-- ==== Sys2Proof/Word.lean ====
section
/-! DEFINITION. The word types of the block (00_scope.md R9, R10): bytes, 32-bit command words, channel indices and 7-bit data values. -/

namespace Sys2Proof

/-- A byte is 8 bits (R9). -/
abbrev Byte := BitVec 8

/-- A command on either port is one 32-bit word (R90). -/
abbrev Word := BitVec 32

/-- A channel index `c`, 0 to 15; MIDI channel `c + 1` (R18). -/
abbrev Chan := BitVec 4

/-- A 7-bit data value, 0 to 127 (R91). -/
abbrev Data := BitVec 7

end Sys2Proof
end

