-- ==== Sys2Proof/Config.lean ====
section
/-! DEFINITION. What an implementation fixes: the parameters of 00_scope.md R6 and R7 as plain data, the patch record they mention (10_state.md R38, R39), and the two open encoding functions. -/

namespace Sys2Proof

/-- One of the exactly 8 operators of a patch (10_state.md R39). -/
structure Operator where
  freq : BitVec 16
  attack : Byte
  decay : Byte
  sustain : Byte
  release : Byte
  vol : Byte
  wf : BitVec 4
  deriving DecidableEq, Repr

/-- An operator with all fields 0, the load default (R38). -/
def Operator.zero : Operator := ⟨0, 0, 0, 0, 0, 0, 0⟩

/-- A patch (10_state.md R38). `ks` is read as two's complement, `mm` holds any byte (90_conflicts.md C2). -/
structure Patch where
  defined : Bool
  mm : Byte
  fb : Byte
  ks : Byte
  op : Vector Operator 8
  deriving DecidableEq, Repr

/-- `LOAD_DEFAULTS` (R38): `def = 1`, modmode 4, feedback 0x80, key shift 0, operator fields 0. -/
def Patch.loadDefaults : Patch := ⟨true, 4, 0x80, 0, Vector.replicate 8 Operator.zero⟩

/-- The load defaults with `def = 0`: the value of every patch after reset and after BANK_CLEAR (R37, R239). -/
def Patch.blank : Patch := { Patch.loadDefaults with defined := false }

/-- One entry of the drum keymap, `(channel, note)` to `(address, rate, length)` (10_state.md R42). The rate has no fixed
width: DESIGN CHOICE (log 22), safe. -/
structure KeyEntry where
  chan : Chan
  note : Data
  addr : BitVec 24
  rate : Nat
  len : BitVec 24
  deriving DecidableEq, Repr

/-- The parameters the source leaves open (R7), the two switches of 93_implementation_defined.md U3 and U6, and one for two
rules of this spec that disagree (log 23).
DESIGN CHOICE (log 1): they are one plain record that the state carries and no step changes (R294), so that a
statement about every state holds for every parameter set. Safe. -/
structure Params where
  /-- `NCHIPS`. -/
  nchips : Nat
  /-- `VPC`, voices per chip. -/
  vpc : Nat
  /-- `NBANKS`. -/
  nbanks : Nat
  /-- `VSM`, the 13 by 8 volume-scaling table (R41). -/
  vsm : Vector (Vector Bool 8) 13
  /-- `KEYMAP` (R42); the first entry for a key counts, no entry is `none`. -/
  keymap : List KeyEntry
  /-- `DEFAULT_PATCH` (R40). -/
  defaultPatch : Patch
  voiceBase : Nat
  drumBase : Nat
  noteFreqBase : Nat
  imgSize : Nat
  gateOn : Byte
  /-- `LOOP_DISABLE`, three bytes. -/
  loopDisable : Vector Byte 3
  /-- `FULL_REUSE_SCAN` (U3), true in this spec's reading. -/
  fullReuseScan : Bool
  /-- `GM_CLEARS_DRUMSET` (U6), true in this spec's reading. -/
  gmClearsDrumset : Bool
  /-- Whether PATCH_DEFINE of an absent bank clears `HP`, as R240 and vector V89 say (true), or changes nothing, as R102,
  R262 and R269 say (false). No file settles it: DESIGN CHOICE (log 23), safe over both values, unsafe in `State.reset`. -/
  absentDefineClearsPointer : Bool
  deriving DecidableEq, Repr

/-- `NV = NCHIPS × VPC` (R7). -/
def Params.nv (p : Params) : Nat := p.nchips * p.vpc

/-- `ND = NCHIPS × 4` (R7, R36). -/
def Params.nd (p : Params) : Nat := p.nchips * 4

/-- The reference column of R7 for given pool sizes, with `VSM` all false (95_test_vectors.md) and an empty keymap. -/
def Params.reference (nchips vpc : Nat) : Params where
  nchips := nchips
  vpc := vpc
  nbanks := 2
  vsm := Vector.replicate 13 (Vector.replicate 8 false)
  keymap := []
  defaultPatch := Patch.blank
  voiceBase := 0
  drumBase := 0x40 * vpc
  noteFreqBase := 0x40 * vpc + 0x30 * 4
  imgSize := 0x40 * vpc + 0x30 * 4 + 2 * vpc
  gateOn := 0x01
  loopDisable := Vector.replicate 3 0x00
  fullReuseScan := true
  gmClearsDrumset := true
  absentDefineClearsPointer := true

/-- The keymap of 42_drum_alloc.md R201: notes 36 to 40, address `0x1000 × (n − 35)`, rate 32000, length 0x800. -/
def Params.exampleKeymap : List KeyEntry :=
  [⟨9, 36, 0x001000, 32000, 0x000800⟩, ⟨9, 37, 0x002000, 32000, 0x000800⟩, ⟨9, 38, 0x003000, 32000, 0x000800⟩,
   ⟨9, 39, 0x004000, 32000, 0x000800⟩, ⟨9, 40, 0x005000, 32000, 0x000800⟩]

/-- The parameter set `State.reset` holds: program P3 of 95_test_vectors.md (`NCHIPS = 1`, `VPC = 2`, the keymap of
R201). DESIGN CHOICE (log 1), unsafe: pool sizes and keymap are not in the source. -/
def Params.atReset : Params := { Params.reference 1 2 with keymap := Params.exampleKeymap }

/-- `FREQ_ENC` (40_patch_encode.md R133; 93 U8): from a rational pitch in semitones above note 69 to a 16-bit word.
Nothing is assumed of it but that it depends on its argument alone (log 2). -/
opaque Config.freqEnc : Rat → BitVec 16

/-- `DRUM_ENC` (40_patch_encode.md R135; 93 U8): from a rate and a bend in semitones to a 16-bit word (log 2). -/
opaque Config.drumEnc : Nat → Rat → BitVec 16

end Sys2Proof
end

