-- ==== Sys2Proof/Syntax.lean ====
section
/-! DEFINITION. The 14 commands of 30_encoding.md R100, the two ports of R90, and the script forms of R105 to R108 with the load schema of 43_control.md R243. -/

namespace Sys2Proof

/-- The two command ports (R90, R271). -/
inductive Port where
  | realTime
  | host
  deriving DecidableEq, Repr

/-- A word presented on a port (R24, R90). -/
structure PortWord where
  port : Port
  word : Word
  deriving DecidableEq, Repr

/-- The complete command set, one constructor per row of R100. Every operand has exactly the width of its field
(R91 to R95), so no ill-formed command can be built; `bend` is read as two's complement (R96). -/
inductive Instr where
  /-- NOTE_OFF `c, n, b`: `b`, the release velocity, is accepted and ignored (R221). -/
  | noteOff (c : Chan) (n : Data) (b : Data)
  /-- NOTE_ON `c, n, vel` (R220). -/
  | noteOn (c : Chan) (n : Data) (vel : Data)
  /-- CC `c, ctrl, v` (R222). -/
  | cc (c : Chan) (ctrl : Data) (v : Data)
  /-- PROG `c, p` (R231). -/
  | prog (c : Chan) (p : Data)
  /-- BEND `c, bend` (R232). -/
  | bend (c : Chan) (bend : BitVec 14)
  /-- GM_RESET (R234). -/
  | gmReset
  /-- GS_RESET (R235). -/
  | gsReset
  /-- GS_DRUM_PART `part, map` (R236). -/
  | gsDrumPart (part : Data) (map : Data)
  /-- PATCH_OVERRIDE `prog, ra, value` (R237); `value` is `(msn << 4) | lsn` (R97). -/
  | patchOverride (prog : Data) (ra : Data) (value : Byte)
  /-- TICK_ADV `n` (R238). -/
  | tickAdv (n : BitVec 24)
  /-- BANK_CLEAR `bank` (R239). -/
  | bankClear (bank : Data)
  /-- PATCH_DEFINE `bank, prog` (R240). -/
  | patchDefine (bank : Data) (prog : Data)
  /-- PATCH_FIELD `ra, val` (R241). -/
  | patchField (ra : Byte) (val : Byte)
  /-- PATCH_READ `bank, prog` (R242). -/
  | patchRead (bank : Data) (prog : Data)
  deriving DecidableEq, Repr

/-- One operator of a load entry (schema of R243); a missing field is `none`. -/
structure OperatorEntry where
  frequency : Option Nat := none
  attack : Option Nat := none
  decay : Option Nat := none
  sustain : Option Nat := none
  release : Option Nat := none
  volume : Option Nat := none
  waveform : Option Nat := none
  deriving DecidableEq, Repr

/-- One entry of a load (schema of R243); missing fields are `none`, at most 8 operators. -/
structure PatchEntry where
  program : Nat
  modmode : Option Nat := none
  feedback : Option Nat := none
  keyShift : Option Int := none
  operators : List OperatorEntry := []
  deriving DecidableEq, Repr

/-- A line of a script (R105) with its operands as numbers, the pseudo-commands of R106 and R107 and `LOAD` of R108. -/
inductive Source where
  | noteOff (c n b : Nat)
  | noteOn (c n vel : Nat)
  | cc (c ctrl v : Nat)
  | prog (c p : Nat)
  | bend (c : Nat) (bend : Int)
  | gmReset
  | gsReset
  | gsDrumPart (part map : Nat)
  | patchOverride (prog ra value : Nat)
  | tickAdv (n : Nat)
  | bankClear (bank : Nat)
  | patchDefine (bank prog : Nat)
  | patchField (ra val : Nat)
  | patchRead (bank prog : Nat)
  | bank (c v : Nat)
  | data (c v : Nat)
  | volume (c v : Nat)
  | pan (c v : Nat)
  | expr (c v : Nat)
  | sustainOn (c : Nat)
  | sustainOff (c : Nat)
  | allSoundOff (c : Nat)
  | allNotesOff (c : Nat)
  | bendRange (c v : Nat)
  | fineTune (c v : Nat)
  | coarseTune (c v : Nat)
  | load (bank : Nat) (entries : List PatchEntry)
  deriving DecidableEq, Repr

end Sys2Proof
end

