-- ==== Sys2Proof/WellFormed.lean ====
section
/-! DEFINITION. The checks: which words R100's table admits on which port, which script lines and load entries have operands in range (R91 to R96, R105 to R108, R243), and which parameter sets the spec defines the block for (R7, R68, R294). -/

namespace Sys2Proof

/-- A row of the opcode map of R100: `W` is the command exactly when `W & mask = bits`. -/
structure Row where
  mnemonic : String
  port : Port
  bits : Word
  mask : Word
  deriving DecidableEq, Repr

/-- The opcode map (R100). -/
def opcodeTable : List Row :=
  [⟨"NOTE_OFF", .realTime, 0x01000000, 0xFFF08080⟩,
   ⟨"NOTE_ON", .realTime, 0x02000000, 0xFFF08080⟩,
   ⟨"CC", .realTime, 0x03000000, 0xFFF08080⟩,
   ⟨"PROG", .realTime, 0x04000000, 0xFFF080FF⟩,
   ⟨"BEND", .realTime, 0x05000000, 0xFFF0C000⟩,
   ⟨"GM_RESET", .realTime, 0x10000000, 0xFFFFFFFF⟩,
   ⟨"GS_RESET", .realTime, 0x11000000, 0xFFFFFFFF⟩,
   ⟨"GS_DRUM_PART", .realTime, 0x12000000, 0xFFFF8080⟩,
   ⟨"PATCH_OVERRIDE", .realTime, 0x13000000, 0xFF808000⟩,
   ⟨"TICK_ADV", .realTime, 0x14000000, 0xFF000000⟩] ++
  [⟨"BANK_CLEAR", .host, 0x20000000, 0xFFFFFF80⟩,
   ⟨"PATCH_DEFINE", .host, 0x21000000, 0xFFFF8080⟩,
   ⟨"PATCH_FIELD", .host, 0x22000000, 0xFFFF0000⟩,
   ⟨"PATCH_READ", .host, 0x23000000, 0xFFFF8080⟩]

/-- Whether a row admits a word on a port (R100). -/
def Row.admits (r : Row) (p : Port) (w : Word) : Bool := r.port == p && w &&& r.mask == r.bits

/-- Whether a word on a port is a command at all; every other word is reserved (R101). -/
def wordWellFormed (p : Port) (w : Word) : Bool := opcodeTable.any (·.admits p w)

/-- A channel operand, 0 to 15 (R105). -/
def isChan (c : Nat) : Bool := c < 16

/-- A 7-bit operand, 0 to 127 (R91). -/
def isData (v : Nat) : Bool := v < 128

/-- A byte operand (R94, R95). -/
def isByte (v : Nat) : Bool := v < 256

/-- An absent field, or a present one that passes its check. -/
def optIs (p : Nat → Bool) (v : Option Nat) : Bool := v.all p

/-- Ranges of an operator entry in the schema of R243. -/
def OperatorEntry.wellFormed (o : OperatorEntry) : Bool :=
  optIs (· < 65536) o.frequency && optIs isByte o.attack && optIs isByte o.decay && optIs isByte o.sustain &&
  optIs isByte o.release && optIs isByte o.volume && optIs isByte o.waveform

/-- Ranges of a patch entry in the schema of R243; up to 8 operators. -/
def PatchEntry.wellFormed (e : PatchEntry) : Bool :=
  isData e.program && optIs isByte e.modmode && optIs isByte e.feedback &&
  e.keyShift.all (fun k => decide (-128 ≤ k ∧ k ≤ 127)) && decide (e.operators.length ≤ 8) &&
  e.operators.all OperatorEntry.wellFormed

/-- Operand ranges of a script line (R91 to R96, R105 to R108). -/
def Source.wellFormed : Source → Bool
  | .noteOff c n b => isChan c && isData n && isData b
  | .noteOn c n vel => isChan c && isData n && isData vel
  | .cc c ctrl v => isChan c && isData ctrl && isData v
  | .prog c p => isChan c && isData p
  | .bend c b => isChan c && decide (-8192 ≤ b ∧ b ≤ 8191)
  | .gmReset => true
  | .gsReset => true
  | .gsDrumPart part map => isData part && isData map
  | .patchOverride pg ra value => isData pg && isData ra && isByte value
  | .tickAdv n => decide (n < 2 ^ 24)
  | .bankClear bk => isData bk
  | .patchDefine bk pg => isData bk && isData pg
  | .patchField ra val => isByte ra && isByte val
  | .patchRead bk pg => isData bk && isData pg
  | .bank c v => isChan c && isData v
  | .data c v => isChan c && isData v
  | .volume c v => isChan c && isData v
  | .pan c v => isChan c && isData v
  | .expr c v => isChan c && isData v
  | .sustainOn c => isChan c
  | .sustainOff c => isChan c
  | .allSoundOff c => isChan c
  | .allNotesOff c => isChan c
  | .bendRange c v => isChan c && isData v
  | .fineTune c v => isChan c && isData v
  | .coarseTune c v => isChan c && isData v
  | .load bk entries => isData bk && entries.all PatchEntry.wellFormed

/-- Two half-open address intervals do not meet. -/
def apart (a b c d : Nat) : Bool := decide (b ≤ c ∨ d ≤ a)

/-- The parameter sets the block is defined for: `NCHIPS, VPC ≥ 1`, 1 to 128 banks, a non-zero `GATE_ON`, an
undefined `DEFAULT_PATCH` (R7, R40), and the three image regions pairwise disjoint and inside the image (R68). -/
def Params.legal (p : Params) : Bool :=
  decide (1 ≤ p.nchips) && decide (1 ≤ p.vpc) && decide (1 ≤ p.nbanks ∧ p.nbanks ≤ 128) &&
  p.gateOn != 0 && !p.defaultPatch.defined &&
  apart p.voiceBase (p.voiceBase + 0x40 * p.vpc) p.drumBase (p.drumBase + 0x30 * 4) &&
  apart p.voiceBase (p.voiceBase + 0x40 * p.vpc) p.noteFreqBase (p.noteFreqBase + 2 * p.vpc) &&
  apart p.drumBase (p.drumBase + 0x30 * 4) p.noteFreqBase (p.noteFreqBase + 2 * p.vpc) &&
  decide (p.voiceBase + 0x40 * p.vpc ≤ p.imgSize) && decide (p.drumBase + 0x30 * 4 ≤ p.imgSize) &&
  decide (p.noteFreqBase + 2 * p.vpc ≤ p.imgSize)

end Sys2Proof
end

