-- ==== Sys2Proof/Decode.lean ====
section
/-! DEFINITION. The decoder (30_encoding.md R90 to R101), total on every word of every port and rejecting by name, and the encoder (R109). -/

namespace Sys2Proof

/-- Why a word is reserved (R101). The block treats the three alike: `Warn(UNKNOWN_CMD, W)`. The three names are a
DESIGN CHOICE (log 19), safe. -/
inductive Reserved where
  /-- No row of R100 has the opcode. -/
  | unassignedOpcode
  /-- A real-time opcode on the host port, or the reverse. -/
  | wrongPort
  /-- A must-be-zero bit of the row's format is set. -/
  | mustBeZero
  deriving DecidableEq, Repr

/-- `W[31:24]`, the opcode in every format (R90). -/
def opField (w : Word) : Byte := w.extractLsb' 24 8

/-- `W[19:16]`, the channel (R91, R96). -/
def chField (w : Word) : Chan := w.extractLsb' 16 4

/-- `W[14:8]`, the first data value (R91, R93, R95). -/
def aField (w : Word) : Data := w.extractLsb' 8 7

/-- `W[6:0]`, the second data value (R91, R93, R95). -/
def bField (w : Word) : Data := w.extractLsb' 0 7

/-- `W[13:0]`, the bend of format B (R92). -/
def bendField (w : Word) : BitVec 14 := w.extractLsb' 0 14

/-- `W[22:16]`, the program of format O (R94). -/
def progField (w : Word) : Data := w.extractLsb' 16 7

/-- `W[15:8]`, the relative address of format HF (R95). -/
def raField (w : Word) : Byte := w.extractLsb' 8 8

/-- `W[7:0]`, the value byte of formats O and HF (R94, R95, R97). -/
def valField (w : Word) : Byte := w.extractLsb' 0 8

/-- `W[23:0]`, the sample count of format T (R94). -/
def countField (w : Word) : BitVec 24 := w.extractLsb' 0 24

/-- Accept `i` when the word came on its row's port and the must-be-zero bits are zero (R101). -/
def accept (p q : Port) (w zeros : Word) (i : Instr) : Except Reserved Instr :=
  if p ≠ q then .error .wrongPort
  else if w &&& zeros ≠ 0 then .error .mustBeZero
  else .ok i

/-- The decoder: the command a word on a port is, or why it is reserved. The zero masks are the must-be-zero bits of
formats C, B, S, O, T, HB, HD and HF (R91 to R95). -/
def decode (p : Port) (w : Word) : Except Reserved Instr :=
  match (opField w).toNat with
  | 0x01 => accept p .realTime w 0x00F08080 (.noteOff (chField w) (aField w) (bField w))
  | 0x02 => accept p .realTime w 0x00F08080 (.noteOn (chField w) (aField w) (bField w))
  | 0x03 => accept p .realTime w 0x00F08080 (.cc (chField w) (aField w) (bField w))
  | 0x04 => accept p .realTime w 0x00F080FF (.prog (chField w) (aField w))
  | 0x05 => accept p .realTime w 0x00F0C000 (.bend (chField w) (bendField w))
  | 0x10 => accept p .realTime w 0x00FFFFFF .gmReset
  | 0x11 => accept p .realTime w 0x00FFFFFF .gsReset
  | 0x12 => accept p .realTime w 0x00FF8080 (.gsDrumPart (aField w) (bField w))
  | 0x13 => accept p .realTime w 0x00808000 (.patchOverride (progField w) (aField w) (valField w))
  | 0x14 => accept p .realTime w 0x00000000 (.tickAdv (countField w))
  | 0x20 => accept p .host w 0x00FFFF80 (.bankClear (bField w))
  | 0x21 => accept p .host w 0x00FF8080 (.patchDefine (aField w) (bField w))
  | 0x22 => accept p .host w 0x00FF0000 (.patchField (raField w) (valField w))
  | 0x23 => accept p .host w 0x00FF8080 (.patchRead (aField w) (bField w))
  | _ => .error .unassignedOpcode

/-- The port a command belongs to (R100). -/
def Instr.port : Instr → Port
  | .noteOff _ _ _ => .realTime
  | .noteOn _ _ _ => .realTime
  | .cc _ _ _ => .realTime
  | .prog _ _ => .realTime
  | .bend _ _ => .realTime
  | .gmReset => .realTime
  | .gsReset => .realTime
  | .gsDrumPart _ _ => .realTime
  | .patchOverride _ _ _ => .realTime
  | .tickAdv _ => .realTime
  | .bankClear _ => .host
  | .patchDefine _ _ => .host
  | .patchField _ _ => .host
  | .patchRead _ _ => .host

/-- Format C: `(op << 24) | (c << 16) | (a << 8) | b` (R91, R109). -/
def formC (op : Byte) (c : Chan) (a b : Data) : Word := op ++ 0#4 ++ c ++ 0#1 ++ a ++ 0#1 ++ b

/-- Formats S and HD: `(op << 24) | (a << 8) | b` (R93, R95, R109). -/
def formS (op : Byte) (a b : Data) : Word := op ++ 0#9 ++ a ++ 0#1 ++ b

/-- The encoder (R109): the word of a command. -/
def encode : Instr → Word
  | .noteOff c n b => formC 0x01 c n b
  | .noteOn c n vel => formC 0x02 c n vel
  | .cc c ctrl v => formC 0x03 c ctrl v
  | .prog c p => formC 0x04 c p 0
  | .bend c b => 0x05#8 ++ 0#4 ++ c ++ 0#2 ++ b
  | .gmReset => formS 0x10 0 0
  | .gsReset => formS 0x11 0 0
  | .gsDrumPart part map => formS 0x12 part map
  | .patchOverride prog ra value => 0x13#8 ++ 0#1 ++ prog ++ 0#1 ++ ra ++ value
  | .tickAdv n => 0x14#8 ++ n
  | .bankClear bank => 0x20#8 ++ 0#17 ++ bank
  | .patchDefine bank prog => formS 0x21 bank prog
  | .patchField ra val => 0x22#8 ++ 0#8 ++ ra ++ val
  | .patchRead bank prog => formS 0x23 bank prog

/-- The word an opcode-table row's bits stand for: `w` numbered with bit 0 least significant, bits from `nbits` on 0. -/
def tableWord (nbits w : Nat) : Word := BitVec.ofNat 32 (w % 2 ^ nbits)

/-- The port on which a word is a command: the host port where the decoder takes it there, else the real-time port. -/
def portFor (w : Word) : Port :=
  match decode .host w with
  | .ok _ => .host
  | .error _ => .realTime

/-- The instruction the decoder reads from a word of the opcode table, on the port the table gives it. -/
def decodeTableWord (nbits w : Nat) : Option Instr :=
  match decode (portFor (tableWord nbits w)) (tableWord nbits w) with
  | .ok i => some i
  | .error _ => none

end Sys2Proof
end

