-- ==== Sys2Proof/Machine/State.lean ====
section
/-! DEFINITION. The state of the block (10_state.md), plain data: voice slots, drum slots, channels, patch store, tick, cursor, images, locks, the output trace, and the values of all of it at power-on reset (R48, R290). -/

namespace Sys2Proof.Machine

/-- An FM voice slot `VS[s]` (10_state.md R20). `note` is the adjusted note, a signed integer that is never clamped. -/
structure Voice where
  inuse : Bool
  note : Int
  chan : Chan
  vel : Data
  vol : Byte
  last : BitVec 64
  deriving DecidableEq, Repr

/-- A slot at reset: Free, every field 0 (R20, R48). -/
def Voice.free : Voice := ⟨false, 0, 0, 0, 0, 0⟩

/-- A drum slot `DS[d]` (10_state.md R36). `bsnap` is read as two's complement. -/
structure Drum where
  inuse : Bool
  note : Data
  chan : Chan
  vel : Data
  vol : Byte
  last : BitVec 64
  addr : BitVec 24
  rate : Nat
  bsnap : BitVec 14
  deriving DecidableEq, Repr

/-- A drum slot at reset (R36, R48). -/
def Drum.free : Drum := ⟨false, 0, 0, 0, 0, 0, 0, 0, 0⟩

/-- The control state of one channel, `CH[c]` (10_state.md R26 to R32). `bend` is read as two's complement, `coarse`
and `fine` are cents, `fine` an exact rational (R29), `kshift` is written by resets alone (DEDUCED, log 11, safe), bit
`n` of `held` says that raw note `n` is on the held list. -/
structure Channel where
  prog : Data
  bank : Data
  bend : BitVec 14
  brange : Data
  coarse : Int
  fine : Rat
  kshift : Int
  cc : Vector Data 128
  sus : Bool
  held : BitVec 128
  rpnMsb : Data
  rpnLsb : Data
  deriving DecidableEq, Repr

/-- The controller table at reset: CC7 = 127, CC10 = 64, CC11 = 127, every other entry 0 (R30). -/
def Channel.ccReset : Vector Data 128 :=
  (((Vector.replicate 128 (0 : Data)).set 7 127).set 10 64).set 11 127

/-- The channel reset values (R27 to R32, R48); also what the GM and GS resets restore (R233). The spec takes `brange = 2`
from general knowledge: PRESUMED (log 20), unsafe as to the product. -/
def Channel.atReset : Channel where
  prog := 0
  bank := 0
  bend := 0
  brange := 2
  coarse := 0
  fine := 0
  kshift := 0
  cc := Channel.ccReset
  sus := false
  held := 0
  rpnMsb := 127
  rpnLsb := 127

/-- The two strobes (00_scope.md R14). -/
inductive StrobeKind where
  | gateReset
  | sampleTrig
  deriving DecidableEq, Repr

/-- The warnings (60_exceptions.md R265). -/
inductive Warning where
  /-- Code 1: reuse of a matching slot whose note is not held; channel index and raw note. -/
  | retrigger (c : Chan) (n : Data)
  /-- Code 2: a reserved word, on either port. -/
  | unknownCmd (w : Word)
  deriving DecidableEq, Repr

/-- The output events (00_scope.md R13 to R15; 10_state.md R44). -/
inductive Event where
  | lock (k : Nat)
  | unlock (k : Nat)
  | wr (k : Nat) (a : Nat) (v : Byte)
  | strobe (k : Nat) (kind : StrobeKind) (i : Nat)
  | warn (w : Warning)
  deriving DecidableEq, Repr

/-- What PATCH_READ returns to the host (43_control.md R242): `def = 0`, or `def = 1` and the 65 bytes at relative
addresses 0x00 to 0x40. -/
inductive PatchReply where
  | absent
  | present (bytes : List Byte)
  deriving DecidableEq, Repr

/-- One chip's register image as far as it has been written: (address, byte) pairs in canonical form, addresses
strictly rising. An unlisted address has no value (R43, R292, 93 U11; log 5). -/
abbrev Memory := List Host.Cell

/-- One bank of the patch store: 128 patches by program (R37). -/
abbrev Bank := Vector Patch 128

/-- Everything the spec gives the block (10_state.md), and two fields of the model: `input`, the words the ports will
present, and `replies`, what PATCH_READ has answered. -/
structure State where
  /-- The parameters (00_scope.md R7), fixed before reset, changed by no step (R294; log 1). -/
  cfg : Params
  /-- `VS[0 .. NV−1]` (R20). -/
  vs : List Voice
  /-- `DS[0 .. ND−1]` (R36). -/
  ds : List Drum
  /-- `CH[0 .. 15]` (R26). -/
  ch : Vector Channel 16
  /-- `DRUMSET` (R33); bit 9 is hard-wired 1. -/
  drumset : BitVec 16
  /-- `TICK` (R34), modulo 2^64. -/
  tick : BitVec 64
  /-- `CUR` (R35), the drum cursor. -/
  cur : Nat
  /-- `PB[b][p]` (R37), the live patches. -/
  pb : List Bank
  /-- `PO[b][p]` (R37), the original copies. -/
  po : List Bank
  /-- `HP` (R45), the host patch pointer (bank, program). -/
  hp : Option (Data × Data)
  /-- `LOCK[k]` (R46). -/
  lock : List Bool
  /-- `IMG[k]` (R43). -/
  img : List Memory
  /-- `OUT` (R44), the trace of output events, oldest first. -/
  out : List Event
  /-- The MODEL's own: the words the ports will present, in the order the block takes them (R24, R77; log 3). -/
  input : List PortWord
  /-- The MODEL's own: the answers of PATCH_READ, oldest first (R242; log 4). -/
  replies : List PatchReply
  deriving DecidableEq, Repr

/-- A fault. There is none: "No command raises a synchronous exception that redirects control, saves state or stops
the block" (60_exceptions.md R260), and a fault outcome "is therefore never produced by these rules" (R266; log 14). -/
inductive Fault
  deriving DecidableEq, Repr

/-- A refusal: the model is not defined there. -/
inductive Refusal where
  /-- An instruction whose meaning is not written yet, by its mnemonic; raised by no arm of this model. Safe. -/
  | notModelled (mnemonic : String)
  /-- The parameter set is outside R7, R68 and R294; raised by `step` (93_implementation_defined.md U12; log 6). Safe. -/
  | illegalParameters
  /-- A note-on over an FM pool without slots, which R155 and R294 exclude ("over a non-empty pool"); raised by
  NOTE_ON (log 6). Safe. -/
  | emptyPool
  deriving DecidableEq, Repr

/-- The block right after power-on reset with a given parameter set (R48, R290). Images hold no byte (R292). -/
def State.resetOf (p : Params) : State where
  cfg := p
  vs := List.replicate p.nv Voice.free
  ds := List.replicate p.nd Drum.free
  ch := Vector.replicate 16 Channel.atReset
  drumset := 0x0200
  tick := 0
  cur := 0
  pb := List.replicate p.nbanks (Vector.replicate 128 Patch.blank)
  po := List.replicate p.nbanks (Vector.replicate 128 Patch.blank)
  hp := none
  lock := List.replicate p.nchips false
  img := List.replicate p.nchips []
  out := []
  input := []
  replies := []

/-- The block right after power-on reset (R48, R290), with the parameter set of log 1. -/
def State.reset : State := State.resetOf Params.atReset

end Sys2Proof.Machine
end

