-- ==== Sys2Proof/Machine/Operands.lean ====
section
/-! DEFINITION. Operand assembly (30_encoding.md R96 to R99) and the address helpers (00_scope.md R16; 20_memory.md R62 to R64). -/

namespace Sys2Proof.Machine

/-- `sext_14(W[13:0])`, the bend operand as a number (R96). -/
def bendValue (b : BitVec 14) : Int := b.toInt

/-- `sext_8(value)`, the key-shift byte as a number (R99). -/
def signedByte (v : Byte) : Int := v.toInt

/-- `partchan(part)` (R98): part 0x10 is index 9, parts 0x11 to 0x19 are 0 to 8, parts 0x1A to 0x1F are 10 to 15; any
other part maps to nothing. -/
def partChan (part : Data) : Option Chan :=
  if part = 0x10 then some 9
  else if 0x11 ≤ part ∧ part ≤ 0x19 then some (BitVec.ofNat 4 (part.toNat - 0x11))
  else if 0x1A ≤ part ∧ part ≤ 0x1F then some (BitVec.ofNat 4 (part.toNat - 0x10))
  else none

/-- `CANON`, the channel of every keymap lookup (42_drum_alloc.md R191). -/
def canonChan : Chan := 9

/-- `chip(s) = s div VPC` (R16). -/
def chipOf (p : Params) (i : Nat) : Nat := i / p.vpc

/-- `lv(s) = s mod VPC` (R16). -/
def localVoice (p : Params) (i : Nat) : Nat := i % p.vpc

/-- `vbase(s) = VOICE_BASE + 0x40 × lv(s)` (R16). -/
def vbase (p : Params) (i : Nat) : Nat := p.voiceBase + 0x40 * localVoice p i

/-- `nfaddr(s) = NOTEFREQ_BASE + 2 × lv(s)` (R16, R64). -/
def nfaddr (p : Params) (i : Nat) : Nat := p.noteFreqBase + 2 * localVoice p i

/-- `dchip(d) = d div 4` (R16). -/
def drumChip (d : Nat) : Nat := d / 4

/-- `ld(d) = d mod 4` (R16). -/
def localDrum (d : Nat) : Nat := d % 4

/-- `dbase(d) = DRUM_BASE + 0x30 × ld(d)` (R16). -/
def dbase (p : Params) (d : Nat) : Nat := p.drumBase + 0x30 * localDrum d

/-- `KEYMAP(9, n)` (R42, R191). -/
def keyLookup (p : Params) (n : Data) : Option KeyEntry :=
  p.keymap.find? (fun e => e.chan == canonChan && e.note == n)

/-- The relative addresses that name a patch field (20_memory.md R65; 40_patch_encode.md R126). -/
def namesField (ra : Nat) : Bool := decide (ra ≤ 0x1C ∨ ra = 0x1F ∨ (0x20 ≤ ra ∧ ra ≤ 0x40))

end Sys2Proof.Machine
end

