-- ==== Sys2Proof/Machine/Ops.lean ====
section
/-! DEFINITION. The named operations over images, registers and the output trace (00_scope.md R12 to R15; 20_memory.md R66 to R75). The block has no exceptions (R15, R260, R269, R270): there is nothing to take and nothing to return from; `warnEvents` is what stands in that place. -/

namespace Sys2Proof.Machine

/-! ## One register image -/

/-- The byte at an address, `none` when nothing has written it (R43). Only a consumer reads an image (R70). -/
def Memory.read : Memory → Nat → Option Byte
  | [], _ => none
  | (b, w) :: m, a => if a = b then some w else Memory.read m a

/-- `IMG[k][a] <- v` (R13), keeping the addresses strictly rising. -/
def Memory.write : Memory → Nat → Byte → Memory
  | [], a, v => [(a, v)]
  | (b, w) :: m, a, v =>
    if a < b then (a, v) :: (b, w) :: m
    else if a = b then (a, v) :: m
    else (b, w) :: Memory.write m a v

/-- The canonical form: addresses strictly rising. Every byte value may be listed, since an unlisted address has no value. -/
abbrev Memory.wf (m : Memory) : Prop := (m.map Prod.fst).Pairwise (· < ·)

/-! ## Events -/

/-- What one event does to the images: only `Wr` writes (R13, R14). -/
def Event.onImages (img : List Memory) : Event → List Memory
  | .wr k a v => img.modify k (fun m => Memory.write m a v)
  | .lock _ => img
  | .unlock _ => img
  | .strobe _ _ _ => img
  | .warn _ => img

/-- What one event does to the locks (R14). -/
def Event.onLocks (lock : List Bool) : Event → List Bool
  | .lock k => lock.set k true
  | .unlock k => lock.set k false
  | .wr _ _ _ => lock
  | .strobe _ _ _ => lock
  | .warn _ => lock

/-- Produce events in order: append them to `OUT` and let each act on images and locks (R13 to R15, R44, R73). -/
def State.emit (s : State) (es : List Event) : State :=
  { s with
    out := s.out ++ es
    img := es.foldl Event.onImages s.img
    lock := es.foldl Event.onLocks s.lock }

/-- `Wr16(k, a, w)`: high byte first (R13, R67). -/
def wr16 (k a : Nat) (w : BitVec 16) : List Event :=
  [.wr k a (w.extractLsb' 8 8), .wr k (a + 1) (w.extractLsb' 0 8)]

/-- `Wr24(k, a, w)`: high byte first (R13, R67). -/
def wr24 (k a : Nat) (w : BitVec 24) : List Event :=
  [.wr k a (w.extractLsb' 16 8), .wr k (a + 1) (w.extractLsb' 8 8), .wr k (a + 2) (w.extractLsb' 0 8)]

/-- A lock bracket of chip `k` around the writes and strobes of one slot operation (R74). -/
def bracket (k : Nat) (body : List Event) : List Event := .lock k :: (body ++ [.unlock k])

/-- `Warn(code, args)` (R15, R265): the event is the whole of its effect. -/
def warnEvents (w : Warning) : List Event := [.warn w]

/-- The code of a warning (R265). -/
def Warning.code : Warning → Nat
  | .retrigger _ _ => 1
  | .unknownCmd _ => 2

/-- A byte of a chip's image, `none` while nothing has written it. -/
def State.imgByte (s : State) (k a : Nat) : Option Byte := (s.img[k]?).bind (fun m => Memory.read m a)

/-- What the consumer of chip `k` gets when it samples state `s`: the whole image at that instant, and
nothing while `LOCK[k] = 1` (R72, R75; log 12). The instants inside a command are `State.sampleDuring`. -/
def State.sample (s : State) (k : Nat) : Option Memory :=
  if s.lock[k]? = some false then s.img[k]? else none

/-- What the consumer of chip `k` gets at the instant when the first `n` of the events `es`, produced from state `s`, have
happened: nothing inside a bracket of its chip, else the whole image of that instant (R72, R75; log 12). -/
def State.sampleWithin (s : State) (es : List Event) (n k : Nat) : Option Memory := (s.emit (es.take n)).sample k

/-- The events of a command or a step that led from `s` to `t`: those `OUT` gained (R44, R73). -/
def State.eventsUntil (s t : State) : List Event := t.out.drop s.out.length

/-- The sample of the consumer of chip `k` at instant `n` of the command or step that leads from `s` to `t`, the instants
between two of its brackets among them (R72, 92 D41; log 12). -/
def State.sampleDuring (s t : State) (n k : Nat) : Option Memory := s.sampleWithin (s.eventsUntil t) n k

/-! ## Channels -/

/-- `CH[c]` (R12, R26). -/
def State.chan (s : State) (c : Chan) : Channel := s.ch[c.toNat]'(c.isLt)

/-- Write the channel state of one channel. -/
def State.modChan (s : State) (c : Chan) (f : Channel → Channel) : State :=
  { s with ch := s.ch.set c.toNat (f (s.chan c)) c.isLt }

/-- A controller's value, `CH[c].cc[i]` (R30). -/
def Channel.ctrl (x : Channel) (i : Data) : Data := x.cc[i.toNat]'(i.isLt)

/-- Store a controller value (R30, R222). -/
def Channel.setCtrl (x : Channel) (i v : Data) : Channel := { x with cc := x.cc.set i.toNat v i.isLt }

/-! ## Slots -/

/-- `VS[i]`; a Free slot where the pool has none of that index. -/
def State.voice (s : State) (i : Nat) : Voice := s.vs.getD i Voice.free

/-- Write slot `i` of the FM pool. -/
def State.modVoice (s : State) (i : Nat) (f : Voice → Voice) : State := { s with vs := s.vs.modify i f }

/-- `DS[d]`; a slot at its reset value where the pool has none of that index. -/
def State.drum (s : State) (d : Nat) : Drum := s.ds.getD d Drum.free

/-- Write slot `d` of the drum pool. -/
def State.modDrum (s : State) (d : Nat) (f : Drum → Drum) : State := { s with ds := s.ds.modify d f }

/-- Visit, ascending, every FM slot that satisfies `p`: update it by `g` and produce the events `ev` (R17). The loops
of R159 to R163 and R233 read nothing but the visited slot and state the loop does not change, so the slots' values
before the loop decide them: DEDUCED (log 21), safe. -/
def State.sweepVoices (s : State) (p : Voice → Bool) (g : Voice → Voice) (ev : Nat → Voice → List Event) : State :=
  State.emit { s with vs := s.vs.map (fun v => if p v then g v else v) }
    (s.vs.zipIdx.flatMap (fun (x : Voice × Nat) => if p x.1 then ev x.2 x.1 else []))

/-- Visit, ascending, every drum slot that satisfies `p` (R17), for the loops of R196, R197 and R233. -/
def State.sweepDrums (s : State) (p : Drum → Bool) (g : Drum → Drum) (ev : Nat → Drum → List Event) : State :=
  State.emit { s with ds := s.ds.map (fun d => if p d then g d else d) }
    (s.ds.zipIdx.flatMap (fun (x : Drum × Nat) => if p x.1 then ev x.2 x.1 else []))

/-! ## Tick, cursor, patch store, host side -/

/-- `TICK <- (TICK + n) mod 2^64` (R34, R154, R238). -/
def State.advanceTick (s : State) (n : BitVec 64) : State := { s with tick := s.tick + n }

/-- `CUR <- (CUR + 1) mod ND` (R35, R194). -/
def State.advanceCursor (s : State) : State := { s with cur := (s.cur + 1) % s.cfg.nd }

/-- `PB[b][p] <- f (PB[b][p])` (R37). -/
def State.modLive (s : State) (b : Nat) (p : Data) (f : Patch → Patch) : State :=
  { s with pb := s.pb.modify b (fun k => k.set p.toNat (f (k[p.toNat]'(p.isLt))) p.isLt) }

/-- `PO[b][p] <- f (PO[b][p])` (R37). -/
def State.modOriginal (s : State) (b : Nat) (p : Data) (f : Patch → Patch) : State :=
  { s with po := s.po.modify b (fun k => k.set p.toNat (f (k[p.toNat]'(p.isLt))) p.isLt) }

/-- All 128 programs of bank `b`, in both copies, become undefined with the load defaults (R239). -/
def State.clearBank (s : State) (b : Nat) : State :=
  { s with
    pb := s.pb.modify b (fun _ => Vector.replicate 128 Patch.blank)
    po := s.po.modify b (fun _ => Vector.replicate 128 Patch.blank) }

/-- `HP <- x` (R45). -/
def State.setPointer (s : State) (x : Option (Data × Data)) : State := { s with hp := x }

/-- Return an answer to the host (R242; log 4). -/
def State.answer (s : State) (r : PatchReply) : State := { s with replies := s.replies ++ [r] }

/-- The next word presented on a port, and the state once it is taken; `none` while the block is idle (R24, R90, R291). -/
def State.fetch (s : State) : Option (PortWord × State) :=
  match s.input with
  | [] => none
  | x :: rest => some (x, { s with input := rest })

/-- Present a word on a port, before every other pending word (log 3). -/
def State.present (s : State) (x : PortWord) : State := { s with input := x :: s.input }

/-- What a reserved word does: `Warn(UNKNOWN_CMD, W)` and nothing else (R101). -/
def State.unknownWord (s : State) (w : Word) : State := s.emit (warnEvents (.unknownCmd w))

end Sys2Proof.Machine
end

