-- ==== Sys2Proof/Machine/PatchStore.lean ====
section
/-! DEFINITION. Patch lookup, the register-image bit packer and the value computations (40_patch_encode.md R120 to R136). -/

namespace Sys2Proof.Machine

/-! ## Fields of a patch by relative address (20_memory.md R65) -/

/-- Operator `i` of a patch, `i` taken modulo 8. -/
def Patch.opAt (Q : Patch) (i : Nat) : Operator := Q.op.get (Fin.ofNat 8 i)

/-- Write operator `i` of a patch, `i` taken modulo 8. -/
def Patch.modOp (Q : Patch) (i : Nat) (f : Operator → Operator) : Patch :=
  { Q with op := Q.op.set (Fin.ofNat 8 i).val (f (Patch.opAt Q i)) (Fin.ofNat 8 i).isLt }

/-- The byte of an envelope quad at offset `j`: attack, decay, sustain, release (R62, R65). -/
def Operator.envelope (o : Operator) (j : Nat) : Byte :=
  if j = 0 then o.attack else if j = 1 then o.decay else if j = 2 then o.sustain else o.release

/-- Write the byte of an envelope quad at offset `j` (R126). -/
def Operator.setEnvelope (o : Operator) (j : Nat) (v : Byte) : Operator :=
  if j = 0 then { o with attack := v }
  else if j = 1 then { o with decay := v }
  else if j = 2 then { o with sustain := v }
  else { o with release := v }

/-- The byte of a patch at a relative address (R65), 0x00 where the address names no field (R242). -/
def Patch.byteAt (Q : Patch) (ra : Nat) : Byte :=
  if ra ≤ 0x0F then
    if ra % 2 = 0 then (Patch.opAt Q (ra / 2)).freq.extractLsb' 8 8 else (Patch.opAt Q (ra / 2)).freq.extractLsb' 0 8
  else if ra ≤ 0x17 then (Patch.opAt Q (ra - 0x10)).vol
  else if ra ≤ 0x1B then (Patch.opAt Q (2 * (ra - 0x18))).wf ++ (Patch.opAt Q (2 * (ra - 0x18) + 1)).wf
  else if ra = 0x1C then Q.mm
  else if ra = 0x1F then Q.fb
  else if 0x20 ≤ ra ∧ ra ≤ 0x3F then Operator.envelope (Patch.opAt Q ((ra - 0x20) / 4)) ((ra - 0x20) % 4)
  else if ra = 0x40 then Q.ks
  else 0x00

/-- `patchwrite(Q, ra, value)` (R126): nothing where the address names no field. -/
def Patch.write (Q : Patch) (ra : Nat) (value : Byte) : Patch :=
  if ra ≤ 0x0F then
    Patch.modOp Q (ra / 2) (fun o =>
      if ra % 2 = 0 then { o with freq := value ++ o.freq.extractLsb' 0 8 }
      else { o with freq := o.freq.extractLsb' 8 8 ++ value })
  else if ra ≤ 0x17 then Patch.modOp Q (ra - 0x10) (fun o => { o with vol := value })
  else if ra ≤ 0x1B then
    Patch.modOp (Patch.modOp Q (2 * (ra - 0x18)) (fun o => { o with wf := value.extractLsb' 4 4 }))
      (2 * (ra - 0x18) + 1) (fun o => { o with wf := value.extractLsb' 0 4 })
  else if ra = 0x1C then { Q with mm := value }
  else if ra = 0x1F then { Q with fb := value }
  else if 0x20 ≤ ra ∧ ra ≤ 0x3F then
    Patch.modOp Q ((ra - 0x20) / 4) (fun o => Operator.setEnvelope o ((ra - 0x20) % 4) value)
  else if ra = 0x40 then { Q with ks := value }
  else Q

/-- The 65 bytes at relative addresses 0x00 to 0x40 (R242). -/
def Patch.bytes (Q : Patch) : List Byte := (List.range 0x41).map (Patch.byteAt Q)

/-! ## The encoder (R121 to R125) -/

/-- `VSM[mm][i]`, false where the table has no row (R123). -/
def scales (vsm : Vector (Vector Bool 8) 13) (mm : Byte) (i : Nat) : Bool :=
  if h : mm.toNat < 13 then (vsm[mm.toNat]'h).get (Fin.ofNat 8 i) else false

/-- `opvol(P, i, m)` (R123): the operator's volume, or the floor of volume times `m` over 255 where it is scaled. -/
def opVol (vsm : Vector (Vector Bool 8) 13) (P : Patch) (m : Byte) (i : Nat) : Byte :=
  if scales vsm P.mm i then BitVec.ofNat 8 ((Patch.opAt P i).vol.toNat * m.toNat / 255)
  else (Patch.opAt P i).vol

/-- `E[a]` of `encode(P, m)` (R122): the patch's bytes with the volumes scaled; pan and gate are 0x00 (R125). -/
def encodeByte (vsm : Vector (Vector Bool 8) 13) (P : Patch) (m : Byte) (a : Nat) : Byte :=
  if 0x10 ≤ a ∧ a ≤ 0x17 then opVol vsm P m (a - 0x10) else Patch.byteAt P a

/-- `encode(P, m)` (R121, R122): the 64-byte image. -/
def encodeImage (vsm : Vector (Vector Bool 8) 13) (P : Patch) (m : Byte) : List Byte :=
  (List.range 0x40).map (encodeByte vsm P m)

/-! ## Lookup and override (R120, R126, R127) -/

/-- `PB[b][p]` for any integers, `none` out of range (R37, R120). -/
def State.livePatch (s : State) (b p : Int) : Option Patch :=
  if h : 0 ≤ b ∧ b < s.cfg.nbanks ∧ 0 ≤ p ∧ p ≤ 127 then
    (s.pb[b.toNat]?).map (fun k => k[p.toNat]'(by omega))
  else none

/-- `PB[b][p]` if it is defined. -/
def State.definedPatch (s : State) (b p : Int) : Option Patch := (s.livePatch b p).filter (·.defined)

/-- `getEffective(b, p)` (R120): the bank's patch, else bank 0's, else the default patch. -/
def State.getEffective (s : State) (b p : Int) : Patch :=
  match s.definedPatch b p with
  | some P => P
  | none =>
    match (if b ≠ 0 then s.definedPatch 0 p else none) with
    | some P => P
    | none => s.cfg.defaultPatch

/-- The channel's effective patch now (R220): `getEffective(CH[c].bank, CH[c].prog)`. -/
def State.effective (s : State) (c : Chan) : Patch := s.getEffective (s.chan c).bank.toNat (s.chan c).prog.toNat

/-- Create the patch from the load defaults if it is undefined (R127). -/
def Patch.created (Q : Patch) : Patch := if Q.defined then Q else Patch.loadDefaults

/-- `setOverride(b, p, ra, value)` (R126): a silent no-op out of range, else one field of the live patch. -/
def State.setOverride (s : State) (b : Nat) (p : Data) (ra : Nat) (value : Byte) : State :=
  if s.cfg.nbanks ≤ b then s
  else if namesField ra = false then s
  else s.modLive b p (fun Q => Patch.write (Patch.created Q) ra value)

/-! ## Volume, pan, pitch (R128 to R135) -/

/-- `cvol(vel, c)` (R128): the exact product over 127³, floored and clamped. -/
def State.cvol (s : State) (vel : Data) (c : Chan) : Byte :=
  BitVec.ofNat 8 (min 255 (vel.toNat * ((s.chan c).ctrl 11).toNat * ((s.chan c).ctrl 7).toNat * 255 / 2048383))

/-- The nearest integer to `x * 15 / 127`, which is never a tie (R130, R131). -/
def panNibble (x : Nat) : BitVec 4 := BitVec.ofNat 4 ((2 * (x * 15) + 127) / (2 * 127))

/-- `panbyte(c)` (R130): left in the high nibble, right in the low one. -/
def State.panByte (s : State) (c : Chan) : Byte :=
  panNibble (127 - ((s.chan c).ctrl 10).toNat) ++ panNibble ((s.chan c).ctrl 10).toNat

/-- `brange × bend / 8192`, an exact rational (R132, R135): `drumsemis(c)`. -/
def State.drumSemis (s : State) (c : Chan) : Rat :=
  (((s.chan c).brange.toNat * bendValue (s.chan c).bend : Int) : Rat) / 8192

/-- `bendsemis(c)` (R132): bend and tuning in semitones. -/
def State.bendSemis (s : State) (c : Chan) : Rat :=
  s.drumSemis c + (((s.chan c).coarse : Rat) + (s.chan c).fine) / 100

/-- `pitch(s)` (R133) of a slot holding adjusted note `note` on channel `c`. -/
def State.pitch (s : State) (note : Int) (c : Chan) : Rat := (note : Rat) + s.bendSemis c - 69

/-- `fword(s) = FREQ_ENC(pitch(s))` (R133). -/
def State.fword (s : State) (note : Int) (c : Chan) : BitVec 16 := Config.freqEnc (s.pitch note c)

/-- `adjnote(c, n, P) = n + CH[c].kshift + P.ks` (R134), not clamped, not wrapped. -/
def State.adjNote (s : State) (c : Chan) (n : Data) (P : Patch) : Int :=
  (n.toNat : Int) + (s.chan c).kshift + signedByte P.ks

/-- `dword(rate, c) = DRUM_ENC(rate, drumsemis(c))` (R135). -/
def State.dword (s : State) (rate : Nat) (c : Chan) : BitVec 16 := Config.drumEnc rate (s.drumSemis c)

end Sys2Proof.Machine
end

