-- ==== Sys2Proof/Machine/DrumPool.lean ====
section
/-! DEFINITION. The drum-channel round-robin scheduler (42_drum_alloc.md R190 to R201). -/

namespace Sys2Proof.Machine

/-- An in-use drum slot of channel `c`. -/
def Drum.ownedBy (c : Chan) (x : Drum) : Bool := x.inuse && x.chan == c

/-- An in-use drum slot with the arriving channel and the raw note (R192). -/
def Drum.plays (c : Chan) (n : Data) (x : Drum) : Bool := x.inuse && x.chan == c && x.note == n

/-- The reuse test of a trigger: the first slot that plays `(c, n)` (R192). -/
def State.matchDrum (s : State) (c : Chan) (n : Data) : Option Nat := s.ds.findIdx? (Drum.plays c n)

/-- The twelve writes and the strobe of a trigger (R193): frequency, start, end, loop markers, volume, `SAMPLE_TRIG`. -/
def State.triggerEvents (s : State) (d : Nat) (e : KeyEntry) (c : Chan) (vol : Byte) : List Event :=
  bracket (drumChip d)
    (wr16 (drumChip d) (dbase s.cfg d) (s.dword e.rate c) ++
      wr24 (drumChip d) (dbase s.cfg d + 0x10) e.addr ++
      wr24 (drumChip d) (dbase s.cfg d + 0x13) (e.addr + e.len) ++
      [.wr (drumChip d) (dbase s.cfg d + 0x16) s.cfg.loopDisable[0],
       .wr (drumChip d) (dbase s.cfg d + 0x17) s.cfg.loopDisable[1],
       .wr (drumChip d) (dbase s.cfg d + 0x18) s.cfg.loopDisable[2],
       .wr (drumChip d) (dbase s.cfg d + 0x02) vol,
       .strobe (drumChip d) .sampleTrig (localDrum d)])

/-- Slot update and write sequence of a trigger into slot `d` (R192, R193, R195). -/
def State.startDrum (s : State) (d : Nat) (e : KeyEntry) (c : Chan) (n vel : Data) : State :=
  ((s.modDrum d (fun _ => ⟨true, n, c, vel, s.cvol vel c, s.tick, e.addr, e.rate, (s.chan c).bend⟩)).advanceTick 1).emit
    (s.triggerEvents d e c (s.cvol vel c))

/-- `triggerDrum(c, n, vel)` (R192): a keymap miss does nothing; a matching slot is reused and the cursor stays; else
the slot at the cursor is taken, whatever it holds, and the cursor advances (R194). -/
def State.triggerDrum (s : State) (c : Chan) (n vel : Data) : State :=
  match keyLookup s.cfg n with
  | none => s
  | some e =>
    match s.matchDrum c n with
    | some d => s.startDrum d e c n vel
    | none => s.advanceCursor.startDrum s.cur e c n vel

/-- `applyPitchBendDrum(c)` (R196): only the frequency bytes, from the stored native rate. -/
def State.applyPitchBendDrum (s : State) (c : Chan) : State :=
  s.sweepDrums (Drum.ownedBy c) (fun x => { x with bsnap := (s.chan c).bend })
    (fun d x => bracket (drumChip d) (wr16 (drumChip d) (dbase s.cfg d) (s.dword x.rate c)))

/-- The three writes of `silenceDrum(d)` (R197): volume, then frequency. -/
def silenceDrumEvents (p : Params) (d : Nat) : List Event :=
  bracket (drumChip d) (.wr (drumChip d) (dbase p d + 0x02) 0x00 :: wr16 (drumChip d) (dbase p d) 0x0000)

/-- `silenceDrum` of every in-use slot that satisfies `p`, ascending (R197, R233). -/
def State.silenceDrums (s : State) (p : Drum → Bool) : State :=
  s.sweepDrums (fun x => x.inuse && p x) (fun x => { x with inuse := false }) (fun d _ => silenceDrumEvents s.cfg d)

/-- `allSoundOffDrum(c)` (R197). -/
def State.allSoundOffDrum (s : State) (c : Chan) : State := s.silenceDrums (fun x => x.chan == c)

end Sys2Proof.Machine
end

