-- ==== Sys2Proof/Machine/Flags.lean ====
section
/-! DEFINITION. The one-bit flags that a rule computes (10_state.md R25): the sustain flag (43_control.md R227) and drum membership (10_state.md R33; 42_drum_alloc.md R200). There are no condition codes. -/

namespace Sys2Proof.Machine

/-- "pressed" is `v ≥ 64`, "released" is `v < 64` (R227), general knowledge in the spec: PRESUMED (log 20), unsafe as to
the product. -/
def pressed (v : Data) : Bool := decide (64 ≤ v.toNat)

/-- `DRUMSET[c]`; bit 9 is hard-wired 1 (R33, R200; log 18). -/
def State.isDrumChan (s : State) (c : Chan) : Bool := c == 9 || s.drumset.getLsbD c.toNat

/-- `DRUMSET <- x`, with bit 9 hard-wired 1 (R33). -/
def State.setDrumset (s : State) (x : BitVec 16) : State := { s with drumset := x ||| 0x0200 }

/-- `DRUMSET[c] <- 1` (R236). -/
def State.addDrumChan (s : State) (c : Chan) : State := s.setDrumset (s.drumset ||| (1#16 <<< c.toNat))

/-- `DRUMSET <- only bit 9` (R233, R235). -/
def State.clearDrumset (s : State) : State := s.setDrumset 0

/-- Whether raw note `n` is on the channel's held list (R31). -/
def Channel.holds (x : Channel) (n : Data) : Bool := x.held.getLsbD n.toNat

/-- Add raw note `n` to the held list, idempotently (R157). -/
def Channel.hold (x : Channel) (n : Data) : Channel := { x with held := x.held ||| (1#128 <<< n.toNat) }

end Sys2Proof.Machine
end

