-- ==== Sys2Proof/Machine/FMVoice.lean ====
section
/-! DEFINITION. The FM voice allocator (41_voice_alloc.md R150 to R166): note-on with reuse, first-free and oldest-first stealing, note-off, sustain release, silencing, live refreshes. -/

namespace Sys2Proof.Machine

/-! ## Selection (R151, R152) -/

/-- A Held slot of channel `c` sounding adjusted note `an`. -/
def Voice.sounds (c : Chan) (an : Int) (v : Voice) : Bool := v.inuse && v.chan == c && v.note == an

/-- A Held slot of channel `c`. -/
def Voice.ownedBy (c : Chan) (v : Voice) : Bool := v.inuse && v.chan == c

/-- The first slot that sounds `(c, an)`, over the whole pool (R156). -/
def State.matchVoice (s : State) (c : Chan) (an : Int) : Option Nat := s.vs.findIdx? (Voice.sounds c an)

/-- Note-on step (a): the first matching slot of the reuse scan, the whole pool, or slot 0 alone where
`FULL_REUSE_SCAN` is false (R152; 93 U3; log 7). -/
def State.reuseVoice (s : State) (c : Chan) (an : Int) : Option Nat :=
  (if s.cfg.fullReuseScan then s.vs else s.vs.take 1).findIdx? (Voice.sounds c an)

/-- Note-on step (b): the first Free slot (R152). -/
def State.freeVoice (s : State) : Option Nat := s.vs.findIdx? (fun v => !v.inuse)

/-- The first slot with the smallest stamp, with the stamp (R152 (c)): stamps compare as unsigned 64-bit numbers, the
lowest index wins among equals. -/
def oldestVoice : List Voice → Option (Nat × BitVec 64)
  | [] => none
  | v :: rest =>
    match oldestVoice rest with
    | none => some (0, v.last)
    | some (j, t) => if t < v.last then some (j + 1, t) else some (0, v.last)

/-- How a note-on got its slot (R151). -/
inductive Choice where
  | reuse (i : Nat)
  | free (i : Nat)
  | steal (i : Nat)
  deriving DecidableEq, Repr

/-- The slot of a choice. -/
def Choice.slot : Choice → Nat
  | .reuse i => i
  | .free i => i
  | .steal i => i

/-- The selection order of R151: (a) reuse, (b) first Free, (c) oldest; `none` only over an empty pool (R155). -/
def State.selectVoice (s : State) (c : Chan) (an : Int) : Option Choice :=
  match s.reuseVoice c an with
  | some i => some (.reuse i)
  | none =>
    match s.freeVoice with
    | some i => some (.free i)
    | none => (oldestVoice s.vs).map (fun x => .steal x.1)

/-! ## Note-on (R151 to R155) -/

/-- The write sequence of a note-on (R153): the 64 image bytes ascending, pan, note frequency, gate, `GATE_RESET`. -/
def State.noteOnEvents (s : State) (i : Nat) (P : Patch) (c : Chan) (an : Int) (vol : Byte) : List Event :=
  bracket (chipOf s.cfg i)
    ((List.range 0x40).map (fun a => .wr (chipOf s.cfg i) (vbase s.cfg i + a) (encodeByte s.cfg.vsm P vol a)) ++
      [.wr (chipOf s.cfg i) (vbase s.cfg i + 0x1D) (s.panByte c)] ++
      wr16 (chipOf s.cfg i) (nfaddr s.cfg i) (s.fword an c) ++
      [.wr (chipOf s.cfg i) (vbase s.cfg i + 0x1E) s.cfg.gateOn,
       .strobe (chipOf s.cfg i) .gateReset (localVoice s.cfg i)])

/-- Slot update and write sequence of a note-on into slot `i` (R151, R153, R154): the stamp is `TICK` before its
increment. -/
def State.startVoice (s : State) (i : Nat) (P : Patch) (c : Chan) (an : Int) (vel : Data) : State :=
  ((s.modVoice i (fun _ => ⟨true, an, c, vel, s.cvol vel c, s.tick⟩)).advanceTick 1).emit
    (s.noteOnEvents i P c an (s.cvol vel c))

/-- The warning of note-on step (a): `RETRIGGER` unless the raw note is on the held list (R151, R165). -/
def State.retriggerEvents (s : State) (c : Chan) (n : Data) : Choice → List Event
  | .reuse _ => if (s.chan c).holds n then [] else warnEvents (.retrigger c n)
  | .free _ => []
  | .steal _ => []

/-- `noteOnFM(c, n, vel)` (R151); `none` only over an empty pool. -/
def State.noteOnFM (s : State) (c : Chan) (n vel : Data) : Option State :=
  (s.selectVoice c (s.adjNote c n (s.effective c))).map (fun x =>
    (s.emit (s.retriggerEvents c n x)).startVoice x.slot (s.effective c) c (s.adjNote c n (s.effective c)) vel)

/-! ## Note-off and sustain (R156 to R158) -/

/-- The gate write of a release (R156). -/
def gateOffEvents (p : Params) (i : Nat) : List Event := bracket (chipOf p i) [.wr (chipOf p i) (vbase p i + 0x1E) 0x00]

/-- The slot of a released or silenced voice: Free, note cleared, other fields kept (R156, R159). -/
def Voice.freed (v : Voice) : Voice := { v with inuse := false, note := 0 }

/-- The releasing branch of `noteOffFM` (R156): an orphan note-off does nothing. -/
def State.releaseVoice (s : State) (c : Chan) (n : Data) : State :=
  match s.matchVoice c (s.adjNote c n (s.effective c)) with
  | some i => (s.modVoice i Voice.freed).emit (gateOffEvents s.cfg i)
  | none => s

/-- `noteOffFM(c, n)` (R156): with the pedal down the raw note joins the held list (R157), else the slot is released. -/
def State.noteOffFM (s : State) (c : Chan) (n : Data) : State :=
  if (s.chan c).sus then s.modChan c (fun x => x.hold n) else s.releaseVoice c n

/-- One turn of the loop of `sustainRelease`. -/
def State.releaseHeld (c : Chan) (s : State) (n : Nat) : State :=
  if (s.chan c).holds (BitVec.ofNat 7 n) then s.noteOffFM c (BitVec.ofNat 7 n) else s

/-- `sustainRelease(c)` (R158): every held note in ascending order through `noteOffFM`, then the list is emptied. -/
def State.sustainRelease (s : State) (c : Chan) : State :=
  ((List.range 128).foldl (State.releaseHeld c) s).modChan c (fun x => { x with held := 0 })

/-! ## Silencing (R159, R160) -/

/-- The eleven writes of `silenceFM(s)` (R159): volumes, note frequency, gate. -/
def silenceEvents (p : Params) (i : Nat) : List Event :=
  bracket (chipOf p i)
    ((List.range 8).map (fun j => .wr (chipOf p i) (vbase p i + 0x10 + j) 0x00) ++
      wr16 (chipOf p i) (nfaddr p i) 0x0000 ++ [.wr (chipOf p i) (vbase p i + 0x1E) 0x00])

/-- `silenceFM` of every Held slot that satisfies `p`, ascending (R159, R160, R233). -/
def State.silenceVoices (s : State) (p : Voice → Bool) : State :=
  s.sweepVoices (fun v => v.inuse && p v) Voice.freed (fun i _ => silenceEvents s.cfg i)

/-- `allSoundOffFM(c)` (R160). -/
def State.allSoundOffFM (s : State) (c : Chan) : State := s.silenceVoices (fun v => v.chan == c)

/-! ## Live refreshes (R161 to R163) -/

/-- The eight volume bytes of one voice (R161). -/
def volumeEvents (p : Params) (P : Patch) (vol : Byte) (i : Nat) : List Event :=
  bracket (chipOf p i)
    ((List.range 8).map (fun j => .wr (chipOf p i) (vbase p i + 0x10 + j) (encodeByte p.vsm P vol (0x10 + j))))

/-- `volumeRefreshFM(c)` (R161), from the stored velocity and the channel's patch now. -/
def State.volumeRefreshFM (s : State) (c : Chan) : State :=
  s.sweepVoices (Voice.ownedBy c) (fun v => { v with vol := s.cvol v.vel c })
    (fun i v => volumeEvents s.cfg (s.effective c) (s.cvol v.vel c) i)

/-- `panRefreshFM(c)` (R162). -/
def State.panRefreshFM (s : State) (c : Chan) : State :=
  s.sweepVoices (Voice.ownedBy c) (fun v => v)
    (fun i _ => bracket (chipOf s.cfg i) [.wr (chipOf s.cfg i) (vbase s.cfg i + 0x1D) (s.panByte c)])

/-- `bendRefreshFM(c)` (R163), from each slot's stored adjusted note. -/
def State.bendRefreshFM (s : State) (c : Chan) : State :=
  s.sweepVoices (Voice.ownedBy c) (fun v => v)
    (fun i v => bracket (chipOf s.cfg i) (wr16 (chipOf s.cfg i) (nfaddr s.cfg i) (s.fword v.note c)))

end Sys2Proof.Machine
end

