-- ==== Sys2Proof/Machine/Controls.lean ====
section
/-! DEFINITION. CC with its sub-rules, PROG and BEND (43_control.md R222 to R232). -/

namespace Sys2Proof.Machine

/-- The null RPN latch (R32, R224). -/
def Channel.nullRpn (x : Channel) : Channel := { x with rpnMsb := 127, rpnLsb := 127 }

/-- Fine tune in cents, `(v − 64) × 100 / 64`, exact (R224). -/
def fineCents (v : Data) : Rat := ((((v.toNat : Int) - 64) * 100 : Int) : Rat) / 64

/-- Coarse tune in cents, `(v − 64) × 100` (R224). -/
def coarseCents (v : Data) : Int := ((v.toNat : Int) - 64) * 100

/-- CC6, data entry (R224; the order of the pairs is PRESUMED, log 20): acts on the latches (0,0), (0,1) and (0,2) and nulls them; any other latch is left. -/
def Channel.dataEntry (x : Channel) (v : Data) : Channel :=
  if x.rpnMsb = 0 ∧ x.rpnLsb = 0 then Channel.nullRpn { x with brange := v }
  else if x.rpnMsb = 0 ∧ x.rpnLsb = 1 then Channel.nullRpn { x with fine := fineCents v }
  else if x.rpnMsb = 0 ∧ x.rpnLsb = 2 then Channel.nullRpn { x with coarse := coarseCents v }
  else x

/-- CC64, sustain (R227): the flag is written first; only the 1-to-0 edge releases. -/
def State.sustainPedal (s : State) (c : Chan) (v : Data) : State :=
  if (s.chan c).sus && !pressed v then (s.modChan c (fun x => { x with sus := pressed v })).sustainRelease c
  else s.modChan c (fun x => { x with sus := pressed v })

/-- CC120 and CC123 (R229): with value 0 both pools are swept, FM first. -/
def State.soundOff (s : State) (c : Chan) (v : Data) : State :=
  if v = 0 then (s.allSoundOffFM c).allSoundOffDrum c else s

/-- What a controller does after its value is stored (R222 to R230). -/
def State.control (s : State) (c : Chan) (ctrl v : Data) : State :=
  match ctrl.toNat with
  | 0 => s.modChan c (fun x => { x with bank := v })
  | 6 => s.modChan c (fun x => x.dataEntry v)
  | 7 => s.volumeRefreshFM c
  | 10 => (s.panRefreshFM c).volumeRefreshFM c
  | 11 => s.volumeRefreshFM c
  | 64 => s.sustainPedal c v
  | 100 => s.modChan c (fun x => { x with rpnLsb := v })
  | 101 => s.modChan c (fun x => { x with rpnMsb := v })
  | 120 => s.soundOff c v
  | 123 => s.soundOff c v
  | _ => s

/-- CC `c, ctrl, v` (R222): the value is stored first, always. -/
def execCC (c : Chan) (ctrl v : Data) (s : State) : Host.Outcome State Fault Refusal :=
  .next ((s.modChan c (fun x => x.setCtrl ctrl v)).control c ctrl v)

/-- PROG `c, p` (R231): the program alone; bank, images and sounding voices are unaffected. -/
def execProg (c : Chan) (p : Data) (s : State) : Host.Outcome State Fault Refusal :=
  .next (s.modChan c (fun x => { x with prog := p }))

/-- BEND `c, bend` (R232): the bend is stored, then the FM pool and the drum pool are retuned, without retrigger. -/
def execBend (c : Chan) (bend : BitVec 14) (s : State) : Host.Outcome State Fault Refusal :=
  .next (((s.modChan c (fun x => { x with bend := bend })).bendRefreshFM c).applyPitchBendDrum c)

end Sys2Proof.Machine
end

