-- ==== Sys2Proof/Machine/HostPort.lean ====
section
/-! DEFINITION. The host port's commands (43_control.md R239 to R242). -/

namespace Sys2Proof.Machine

/-- `HP <- none` where it points into bank `b` (R239). -/
def State.dropPointer (s : State) (b : Data) : State :=
  s.setPointer (s.hp.filter (fun x => x.1 != b))

/-- BANK_CLEAR `b` (R239): nothing for an absent bank (R102). -/
def execBankClear (bank : Data) (s : State) : Host.Outcome State Fault Refusal :=
  .next (if s.cfg.nbanks ≤ bank.toNat then s else (s.clearBank bank.toNat).dropPointer bank)

/-- PATCH_DEFINE of an absent bank: `HP` becomes none and nothing else happens (R240, V89), or nothing happens at all
(R102, R262, R269); the two readings are a switch (log 23). -/
def State.defineAbsent (s : State) : State :=
  if s.cfg.absentDefineClearsPointer then s.setPointer none else s

/-- PATCH_DEFINE `b, p` (R240): both copies take the load defaults and `HP` points at the patch. -/
def execPatchDefine (bank prog : Data) (s : State) : Host.Outcome State Fault Refusal :=
  .next (if s.cfg.nbanks ≤ bank.toNat then s.defineAbsent
    else ((s.modLive bank.toNat prog (fun _ => Patch.loadDefaults)).modOriginal bank.toNat prog
      (fun _ => Patch.loadDefaults)).setPointer (some (bank, prog)))

/-- PATCH_FIELD `ra, val` (R241): one field of the patch `HP` points at, in both copies; else nothing (R102). -/
def execPatchField (ra val : Byte) (s : State) : Host.Outcome State Fault Refusal :=
  .next (match s.hp with
    | none => s
    | some (b, p) =>
      if namesField ra.toNat = false then s
      else (s.modLive b.toNat p (fun Q => Patch.write Q ra.toNat val)).modOriginal b.toNat p
        (fun Q => Patch.write Q ra.toNat val))

/-- The answer to PATCH_READ (R242): the live patch if it is defined, else `def = 0`. -/
def State.readPatch (s : State) (bank prog : Data) : PatchReply :=
  match s.definedPatch bank.toNat prog.toNat with
  | some Q => .present (Patch.bytes Q)
  | none => .absent

/-- PATCH_READ `b, p` (R242): the answer is returned to the host; no state of the block changes. -/
def execPatchRead (bank prog : Data) (s : State) : Host.Outcome State Fault Refusal :=
  .next (s.answer (s.readPatch bank prog))

end Sys2Proof.Machine
end

