-- ==== Sys2Proof/Machine/Notes.lean ====
section
/-! DEFINITION. NOTE_OFF and NOTE_ON (43_control.md R220, R221): the block's only routing. -/

namespace Sys2Proof.Machine

/-- NOTE_OFF `c, n, b` (R221): nothing on a drum channel (R199), else `noteOffFM`; `b` is ignored. -/
def execNoteOff (c : Chan) (n _b : Data) (s : State) : Host.Outcome State Fault Refusal :=
  .next (if s.isDrumChan c then s else s.noteOffFM c n)

/-- NOTE_ON `c, n, vel` (R220): the drum pool on a drum channel, else the FM pool; velocity 0 is not special (R104). -/
def execNoteOn (c : Chan) (n vel : Data) (s : State) : Host.Outcome State Fault Refusal :=
  if s.isDrumChan c then .next (s.triggerDrum c n vel)
  else
    match s.noteOnFM c n vel with
    | some t => .next t
    | none => .refused .emptyPool

end Sys2Proof.Machine
end

