-- ==== Sys2Proof/Machine/System.lean ====
section
/-! DEFINITION. The system commands of the real-time port (43_control.md R233 to R238): resets, GS drum part, patch override, tick advance. -/

namespace Sys2Proof.Machine

/-- The channel defaults restored to all 16 channels (R233). -/
def State.resetChannels (s : State) : State := { s with ch := Vector.replicate 16 Channel.atReset }

/-- `PB[b][p] <- PO[b][p]` for every bank and program (R233). -/
def State.restorePatches (s : State) : State := { s with pb := s.po }

/-- `gmReset()` (R233): silence both pools, channel defaults, drum membership (unless the switch of 93 U6 moves it to
GS_RESET alone; log 8), live patches from the originals. `TICK`, `CUR`, `HP` and `PO` stay. -/
def State.gmReset (s : State) : State :=
  let t := ((s.silenceVoices (fun _ => true)).silenceDrums (fun _ => true)).resetChannels
  (if s.cfg.gmClearsDrumset then t.clearDrumset else t).restorePatches

/-- GM_RESET (R234). -/
def execGmReset (s : State) : Host.Outcome State Fault Refusal := .next s.gmReset

/-- GS_RESET (R235): `gmReset()`, then the drum membership is cleared in any case. -/
def execGsReset (s : State) : Host.Outcome State Fault Refusal := .next s.gmReset.clearDrumset

/-- GS_DRUM_PART `part, map` (R236): with `map ≥ 1` the mapped channel joins the drum set; else nothing (R102). -/
def execGsDrumPart (part map : Data) (s : State) : Host.Outcome State Fault Refusal :=
  .next (if map = 0 then s else
    match partChan part with
    | some c => s.addDrumChan c
    | none => s)

/-- PATCH_OVERRIDE `prog, ra, value` (R237): `setOverride(0, prog, ra, value)`. -/
def execPatchOverride (prog ra : Data) (value : Byte) (s : State) : Host.Outcome State Fault Refusal :=
  .next (s.setOverride 0 prog ra.toNat value)

/-- TICK_ADV `n` (R238). -/
def execTickAdv (n : BitVec 24) (s : State) : Host.Outcome State Fault Refusal :=
  .next (s.advanceTick (n.setWidth 64))

end Sys2Proof.Machine
end

