-- ==== Sys2Proof/Machine/Dispatch.lean ====
section
/-! DEFINITION. One arm per command (30_encoding.md R100): the command's meaning. -/

namespace Sys2Proof.Machine

def exec (i : Instr) (s : State) : Host.Outcome State Fault Refusal :=
  match i with
  | .noteOff c n b => Sys2Proof.Machine.execNoteOff c n b s
  | .noteOn c n vel => Sys2Proof.Machine.execNoteOn c n vel s
  | .cc c ctrl v => Sys2Proof.Machine.execCC c ctrl v s
  | .prog c p => Sys2Proof.Machine.execProg c p s
  | .bend c bend => Sys2Proof.Machine.execBend c bend s
  | .gmReset => Sys2Proof.Machine.execGmReset s
  | .gsReset => Sys2Proof.Machine.execGsReset s
  | .gsDrumPart part map => Sys2Proof.Machine.execGsDrumPart part map s
  | .patchOverride prog ra value => Sys2Proof.Machine.execPatchOverride prog ra value s
  | .tickAdv n => Sys2Proof.Machine.execTickAdv n s
  | .bankClear bank => Sys2Proof.Machine.execBankClear bank s
  | .patchDefine bank prog => Sys2Proof.Machine.execPatchDefine bank prog s
  | .patchField ra val => Sys2Proof.Machine.execPatchField ra val s
  | .patchRead bank prog => Sys2Proof.Machine.execPatchRead bank prog s

end Sys2Proof.Machine
end

