-- ==== Sys2Proof/Machine/Step.lean ====
section
/-! DEFINITION. One step of the block: take the next word presented on a port and run it to completion (10_state.md R24; 20_memory.md R71; 30_encoding.md R90, R101). -/

namespace Sys2Proof.Machine

/-- What a taken word does: its command's meaning, or `Warn(UNKNOWN_CMD, W)` for a reserved word (R101). -/
def runWord (x : PortWord) (s : State) : Host.Outcome State Fault Refusal :=
  match decode x.port x.word with
  | .ok i => exec i s
  | .error _ => .next (s.unknownWord x.word)

/-- One step. With no word presented the block is idle and holds all its state (R275, R291). The block is defined only
for legal parameter sets (R294; 93 U12; log 6). A host command is atomic as R77 decides (log 9). -/
def step (s : State) : Host.Outcome State Fault Refusal :=
  if s.cfg.legal = false then .refused .illegalParameters
  else
    match s.fetch with
    | none => .next s
    | some (x, t) => runWord x t

/-- The state with a word of the opcode table presented next, on the port the table gives it (log 3). -/
def State.withFetchWord (s : State) (nbits w : Nat) : State :=
  s.present ⟨portFor (tableWord nbits w), tableWord nbits w⟩

end Sys2Proof.Machine
end

