-- ==== Sys2Proof/Machine/Reference.lean ====
section
/-! DEFINITION. The reference instantiations of `FREQ_ENC` and `DRUM_ENC` (40_patch_encode.md R133, R135), computed exactly. The machine never uses them: it keeps both functions abstract (93_implementation_defined.md U8; log 2, log 16). -/

namespace Sys2Proof.Machine

/-- `n − 1/2 ≤ f × 2^(x/12)`, decided over the integers by raising both sides of `2n − 1 ≤ 2f × 2^(x/12)` to the power
`12 × den x`. DEDUCED (log 16). -/
def roundsTo (f : Nat) (x : Rat) (n : Nat) : Bool :=
  n == 0 ||
  (if 0 ≤ x.num then decide ((2 * n - 1) ^ (12 * x.den) ≤ (2 * f) ^ (12 * x.den) * 2 ^ x.num.toNat)
   else decide ((2 * n - 1) ^ (12 * x.den) * 2 ^ (-x.num).toNat ≤ (2 * f) ^ (12 * x.den)))

/-- The greatest `acc + m` with `m < 2^k` that satisfies a downward-closed test. -/
def greatest (test : Nat → Bool) : Nat → Nat → Nat
  | 0, acc => acc
  | k + 1, acc => greatest test k (if test (acc + 2 ^ k) then acc + 2 ^ k else acc)

/-- The reference `FREQ_ENC(x) = min(65535, floor(440 × 2^(x/12) + 1/2))` (R133). -/
def referenceFreqEnc (x : Rat) : BitVec 16 := BitVec.ofNat 16 (greatest (roundsTo 440 x) 16 0)

/-- The reference `DRUM_ENC(rate, x) = min(65535, floor(rate × 2^(x/12) + 1/2))` (R135). -/
def referenceDrumEnc (rate : Nat) (x : Rat) : BitVec 16 := BitVec.ofNat 16 (greatest (roundsTo rate x) 16 0)

end Sys2Proof.Machine
end

