-- ==== Sys2Proof/Machine/Script.lean ====
section
/-! DEFINITION. Script lines, pseudo-commands and the host's LOAD and SAVE as command sequences (30_encoding.md R105 to R108; 43_control.md R242, R243). The host software that parses files is outside (00_scope.md R4 (d)). -/

namespace Sys2Proof.Machine

/-- A `CC` command from numbers. -/
def ccOf (c ctrl v : Nat) : Instr := .cc (BitVec.ofNat 4 c) (BitVec.ofNat 7 ctrl) (BitVec.ofNat 7 v)

/-- The three CCs that set a registered parameter: CC101 0, CC100 `lsb`, CC6 `v` (R107). -/
def rpnOf (c lsb v : Nat) : List Instr := [ccOf c 101 0, ccOf c 100 lsb, ccOf c 6 v]

/-- The present values of one field over a list of operators, each with its operator number. -/
def givenOps (get : OperatorEntry → Option Nat) (ops : List OperatorEntry) : List (Nat × Nat) :=
  ops.zipIdx.filterMap (fun (x : OperatorEntry × Nat) => (get x.1).map (fun v => (x.2, v)))

/-- The waveform a pair packer reads from an operator: its low nibble, 0 for a missing operator or field (R243). -/
def packedWave (ops : List OperatorEntry) (i : Nat) : Nat := (((ops[i]?).bind (·.waveform)).getD 0) % 16

/-- Whether either operator of pair `j` gives a waveform. -/
def givesWave (ops : List OperatorEntry) (j : Nat) : Bool :=
  ((ops[2 * j]?).bind (·.waveform)).isSome || ((ops[2 * j + 1]?).bind (·.waveform)).isSome

/-- The (relative address, byte) pairs the given fields of an entry become (R243). DESIGN CHOICE (log 17): the order is
modmode, feedback, key shift, frequencies, volumes, waveforms, envelopes. -/
def PatchEntry.fields (e : PatchEntry) : List (Nat × Nat) :=
  (e.modmode.toList.map (fun v => (0x1C, v))) ++ (e.feedback.toList.map (fun v => (0x1F, v))) ++
  (e.keyShift.toList.map (fun k => (0x40, (k % 256).toNat))) ++
  ((givenOps (·.frequency) e.operators).flatMap
    (fun x => [(2 * x.1, x.2 / 256), (2 * x.1 + 1, x.2 % 256)])) ++
  ((givenOps (·.volume) e.operators).map (fun x => (0x10 + x.1, x.2))) ++
  (((List.range 4).filter (givesWave e.operators)).map
    (fun j => (0x18 + j, 16 * packedWave e.operators (2 * j) + packedWave e.operators (2 * j + 1)))) ++
  ((givenOps (·.attack) e.operators).map (fun x => (0x20 + 4 * x.1, x.2))) ++
  ((givenOps (·.decay) e.operators).map (fun x => (0x21 + 4 * x.1, x.2))) ++
  ((givenOps (·.sustain) e.operators).map (fun x => (0x22 + 4 * x.1, x.2))) ++
  ((givenOps (·.release) e.operators).map (fun x => (0x23 + 4 * x.1, x.2)))

/-- One entry of a LOAD: PATCH_DEFINE, then one PATCH_FIELD for every field byte it gives (R108). -/
def PatchEntry.commands (bank : Nat) (e : PatchEntry) : List Instr :=
  .patchDefine (BitVec.ofNat 7 bank) (BitVec.ofNat 7 e.program) ::
    (PatchEntry.fields e).map (fun x => .patchField (BitVec.ofNat 8 x.1) (BitVec.ofNat 8 x.2))

/-- The commands of a script line (R105 to R108). -/
def expandLine : Source → List Instr
  | .noteOff c n b => [.noteOff (BitVec.ofNat 4 c) (BitVec.ofNat 7 n) (BitVec.ofNat 7 b)]
  | .noteOn c n vel => [.noteOn (BitVec.ofNat 4 c) (BitVec.ofNat 7 n) (BitVec.ofNat 7 vel)]
  | .cc c ctrl v => [ccOf c ctrl v]
  | .prog c p => [.prog (BitVec.ofNat 4 c) (BitVec.ofNat 7 p)]
  | .bend c b => [.bend (BitVec.ofNat 4 c) (BitVec.ofInt 14 b)]
  | .gmReset => [.gmReset]
  | .gsReset => [.gsReset]
  | .gsDrumPart part map => [.gsDrumPart (BitVec.ofNat 7 part) (BitVec.ofNat 7 map)]
  | .patchOverride pg ra value => [.patchOverride (BitVec.ofNat 7 pg) (BitVec.ofNat 7 ra) (BitVec.ofNat 8 value)]
  | .tickAdv n => [.tickAdv (BitVec.ofNat 24 n)]
  | .bankClear bk => [.bankClear (BitVec.ofNat 7 bk)]
  | .patchDefine bk pg => [.patchDefine (BitVec.ofNat 7 bk) (BitVec.ofNat 7 pg)]
  | .patchField ra val => [.patchField (BitVec.ofNat 8 ra) (BitVec.ofNat 8 val)]
  | .patchRead bk pg => [.patchRead (BitVec.ofNat 7 bk) (BitVec.ofNat 7 pg)]
  | .bank c v => [ccOf c 0 v]
  | .data c v => [ccOf c 6 v]
  | .volume c v => [ccOf c 7 v]
  | .pan c v => [ccOf c 10 v]
  | .expr c v => [ccOf c 11 v]
  | .sustainOn c => [ccOf c 64 127]
  | .sustainOff c => [ccOf c 64 0]
  | .allSoundOff c => [ccOf c 120 0]
  | .allNotesOff c => [ccOf c 123 0]
  | .bendRange c v => rpnOf c 0 v
  | .fineTune c v => rpnOf c 1 v
  | .coarseTune c v => rpnOf c 2 v
  | .load bk entries => .bankClear (BitVec.ofNat 7 bk) :: entries.flatMap (PatchEntry.commands bk)

/-- The words of a script, each on its command's port; `none` where an operand is out of range (R105). -/
def assemble (lines : List Source) : Option (List PortWord) :=
  if lines.all Source.wellFormed then
    some ((lines.flatMap expandLine).map (fun i => ⟨i.port, encode i⟩))
  else none

/-- The host's `load(bankIndex, source)` (R243): an absent or invalid source issues no command, a malformed entry
(`none`, or out of range) is skipped. No word can carry a bank index above 127 (R95) and no rule says what `load` does
then; it fails here and issues no command: DESIGN CHOICE (log 24), unsafe as to such a call. -/
def hostLoad (bank : Nat) (source : Option (List (Option PatchEntry))) : List Instr :=
  match source with
  | none => []
  | some entries =>
    if isData bank = false then []
    else expandLine (.load bank (entries.filterMap (fun e => e.filter (fun x => PatchEntry.wellFormed x))))

/-- The commands of the host's `save` (R242): all 128 programs of the bank are read. No rule gives an order; ascending
programs is a DESIGN CHOICE (log 25), unsafe only as to the order of the answers. -/
def hostSave (bank : Data) : List Instr := (List.range 128).map (fun p => .patchRead bank (BitVec.ofNat 7 p))

/-- Present a list of words on the ports, after those already pending. -/
def State.feed (s : State) (ws : List PortWord) : State := { s with input := s.input ++ ws }

end Sys2Proof.Machine
end

