-- ==== Sys2Proof/Safety.lean ====
section
/-! DEFINITION. What counts as a safe state and a safe trace, in the terms the statements use: the shape of the pools, the bracketing of the trace, the images as the fold of the writes, and the invariants of the pools. -/

namespace Sys2Proof.Machine

/-- Every list of the state has the length its parameters give it, the cursor and the host pointer are in range, every
image is in canonical form and bit 9 of `DRUMSET` is set (10_state.md R20, R33, R35 to R37, R43, R45, R46). -/
structure State.Shaped (s : State) : Prop where
  legal : s.cfg.legal = true
  voices : s.vs.length = s.cfg.nv
  drums : s.ds.length = s.cfg.nd
  live : s.pb.length = s.cfg.nbanks
  originals : s.po.length = s.cfg.nbanks
  locks : s.lock.length = s.cfg.nchips
  images : s.img.length = s.cfg.nchips
  canonical : ∀ m ∈ s.img, Memory.wf m
  cursor : s.cur < s.cfg.nd
  pointer : ∀ x, s.hp = some x → x.1.toNat < s.cfg.nbanks
  channelTen : s.drumset.getLsbD 9 = true

/-- No lock is taken: the state of the locks at every command boundary (R46). -/
def State.Unlocked (s : State) : Prop := ∀ b ∈ s.lock, b = false

/-- The images are what the `Wr` events of the trace make of empty images (R44). -/
def State.ImagesFromTrace (s : State) : Prop :=
  s.img = s.out.foldl Event.onImages (List.replicate s.cfg.nchips [])

/-- Follow the locks along a trace: `some none` outside every bracket, `some (some k)` inside a bracket of chip `k`,
`none` once an event broke the rule of R74 (brackets do not nest; writes and strobes only inside a bracket of their own
chip; warnings outside). -/
def bracketStep : Option (Option Nat) → Event → Option (Option Nat)
  | some none, .lock k => some (some k)
  | some none, .warn _ => some none
  | some (some k), .unlock j => if j = k then some none else none
  | some (some k), .wr j _ _ => if j = k then some (some k) else none
  | some (some k), .strobe j _ _ => if j = k then some (some k) else none
  | _, _ => none

/-- A trace whose brackets are well formed and closed (R74). -/
def bracketed (es : List Event) : Prop := es.foldl bracketStep (some none) = some none

/-- An event that addresses only what exists: a chip below `NCHIPS`, an image address below `IMG_SIZE` (R13, R68), a
local voice or drum channel of the chip (R14). -/
def Event.fits (p : Params) : Event → Prop
  | .lock k => k < p.nchips
  | .unlock k => k < p.nchips
  | .wr k a _ => k < p.nchips ∧ a < p.imgSize
  | .strobe k .gateReset i => k < p.nchips ∧ i < p.vpc
  | .strobe k .sampleTrig i => k < p.nchips ∧ i < 4
  | .warn _ => True

/-- For each pair (channel, adjusted note) at most one slot is Held with it (R23). -/
def State.UniqueVoices (s : State) : Prop :=
  ∀ (i j : Nat) (v w : Voice), s.vs[i]? = some v → s.vs[j]? = some w →
    v.inuse = true → w.inuse = true → v.chan = w.chan → v.note = w.note → i = j

/-- Every Held slot's stamp is below `TICK`, and no two Held slots have the same stamp (R152, R154). -/
def State.StampsDistinct (s : State) : Prop :=
  (∀ (i : Nat) (v : Voice), s.vs[i]? = some v → v.inuse = true → v.last.toNat < s.tick.toNat) ∧
  (∀ (i j : Nat) (v w : Voice), s.vs[i]? = some v → s.vs[j]? = some w → v.inuse = true → w.inuse = true →
    v.last = w.last → i = j)

/-- With the pedal up a channel's held list is empty (R157, R158, R164). -/
def State.HeldNeedsPedal (s : State) : Prop := ∀ c : Chan, (s.chan c).sus = false → (s.chan c).held = 0

/-- The value of the last write of a list of events to an address of a chip. -/
def lastWrite (k a : Nat) : List Event → Option Byte
  | [] => none
  | .wr j b v :: es => (lastWrite k a es).or (if j = k ∧ b = a then some v else none)
  | .lock _ :: es => lastWrite k a es
  | .unlock _ :: es => lastWrite k a es
  | .strobe _ _ _ :: es => lastWrite k a es
  | .warn _ :: es => lastWrite k a es

/-- The number of `Wr` events of a list (70_reset_and_hazards.md R309). -/
def countWrites (es : List Event) : Nat :=
  es.countP (fun e => match e with
    | .wr _ _ _ => true
    | .lock _ => false
    | .unlock _ => false
    | .strobe _ _ _ => false
    | .warn _ => false)

/-- The number of brackets of a list (60_exceptions.md R270). -/
def countBrackets (es : List Event) : Nat :=
  es.countP (fun e => match e with
    | .lock _ => true
    | .wr _ _ _ => false
    | .unlock _ => false
    | .strobe _ _ _ => false
    | .warn _ => false)

end Sys2Proof.Machine
end

