-- ==== Sys2Proof/Certificates/Slice0/Obligations.lean ====
section
/-! DEFINITION. The statements for the provers, with the few terms they share. Image frames are said through the read of one byte, `State.imgByte`; `t = { s with …, img := t.img }` says that every field not named is unchanged, the locks among them. -/

namespace Sys2Proof.Claims

open Sys2Proof Sys2Proof.Machine

/-- Channel `c` is a drum channel: bit `c` of `DRUMSET`, bit 9 hard-wired 1 (R33, R200). -/
def isDrum (s : State) (c : Chan) : Prop := c = 9 ∨ s.drumset.getLsbD c.toNat = true

/-- The adjusted note of raw note `n` on channel `c`, by the channel's effective patch now (R134). -/
def adjusted (s : State) (c : Chan) (n : Data) : Int :=
  (n.toNat : Int) + (s.chan c).kshift + (s.effective c).ks.toInt

/-- `brange × bend / 8192` of channel `c`, an exact rational (R132, R135). -/
def semis (s : State) (c : Chan) : Rat := ((s.chan c).brange.toNat : Rat) * ((s.chan c).bend.toInt : Rat) / 8192

/-- The pitch of adjusted note `note` on channel `c`, in semitones above note 69 (R132, R133). -/
def pitchOf (s : State) (note : Int) (c : Chan) : Rat :=
  (note : Rat) + (semis s c + (((s.chan c).coarse : Rat) + (s.chan c).fine) / 100) - 69

/-- Slot `v` is Held, owned by `c` and sounds adjusted note `an` (R151, R156). -/
def Sounds (v : Voice) (c : Chan) (an : Int) : Prop := v.inuse = true ∧ v.chan = c ∧ v.note = an

/-- An address of FM slot `i` of the pool: chip and image address at offset `a` of its window (R16, R62). -/
def atVoice (s : State) (i a k x : Nat) : Prop := k = chipOf s.cfg i ∧ x = vbase s.cfg i + a

/-- One of the two bytes of the note-frequency word of FM slot `i` (R64). -/
def atFreq (s : State) (i k x : Nat) : Prop := k = chipOf s.cfg i ∧ (x = nfaddr s.cfg i ∨ x = nfaddr s.cfg i + 1)

/-- An address of drum slot `d`: chip and image address at offset `a` of its window (R16, R63). -/
def atDrum (s : State) (d a k x : Nat) : Prop := k = drumChip d ∧ x = dbase s.cfg d + a

/-- What a note-on into FM slot `i` leaves, after the events `pre` (R151, R153, R154): the slot's fields with the stamp
`TICK` before its increment, the 68 writes and the strobe in order inside one bracket, the bytes they leave, and every
other byte and field as before. -/
def VoiceStarted (s t : State) (i : Nat) (c : Chan) (n vel : Data) (pre : List Event) : Prop :=
  t = { s with
        vs := s.vs.set i ⟨true, adjusted s c n, c, vel, s.cvol vel c, s.tick⟩
        tick := s.tick + 1
        out := s.out ++ pre ++ [Event.lock (chipOf s.cfg i)] ++
          (List.range 64).map (fun a => Event.wr (chipOf s.cfg i) (vbase s.cfg i + a)
            (encodeByte s.cfg.vsm (s.effective c) (s.cvol vel c) a)) ++
          [.wr (chipOf s.cfg i) (vbase s.cfg i + 0x1D) (s.panByte c),
           .wr (chipOf s.cfg i) (nfaddr s.cfg i) ((Config.freqEnc (pitchOf s (adjusted s c n) c)).extractLsb' 8 8),
           .wr (chipOf s.cfg i) (nfaddr s.cfg i + 1) ((Config.freqEnc (pitchOf s (adjusted s c n) c)).extractLsb' 0 8),
           .wr (chipOf s.cfg i) (vbase s.cfg i + 0x1E) s.cfg.gateOn,
           .strobe (chipOf s.cfg i) .gateReset (localVoice s.cfg i),
           .unlock (chipOf s.cfg i)]
        img := t.img } ∧
  (∀ a, a < 64 → a ≠ 0x1D → a ≠ 0x1E → t.imgByte (chipOf s.cfg i) (vbase s.cfg i + a) =
    some (encodeByte s.cfg.vsm (s.effective c) (s.cvol vel c) a)) ∧
  t.imgByte (chipOf s.cfg i) (vbase s.cfg i + 0x1D) = some (s.panByte c) ∧
  t.imgByte (chipOf s.cfg i) (vbase s.cfg i + 0x1E) = some s.cfg.gateOn ∧
  t.imgByte (chipOf s.cfg i) (nfaddr s.cfg i) =
    some ((Config.freqEnc (pitchOf s (adjusted s c n) c)).extractLsb' 8 8) ∧
  t.imgByte (chipOf s.cfg i) (nfaddr s.cfg i + 1) =
    some ((Config.freqEnc (pitchOf s (adjusted s c n) c)).extractLsb' 0 8) ∧
  (∀ k x, (∀ a, a < 64 → ¬ atVoice s i a k x) → ¬ atFreq s i k x → t.imgByte k x = s.imgByte k x)

/-- What a trigger into drum slot `d` leaves (R192, R193, R195), with the cursor at `cur`. -/
def DrumStarted (s t : State) (d : Nat) (e : KeyEntry) (c : Chan) (n vel : Data) (cur : Nat) : Prop :=
  t = { s with
        ds := s.ds.set d ⟨true, n, c, vel, s.cvol vel c, s.tick, e.addr, e.rate, (s.chan c).bend⟩
        tick := s.tick + 1
        cur := cur
        out := s.out ++
          [.lock (drumChip d),
           .wr (drumChip d) (dbase s.cfg d) ((Config.drumEnc e.rate (semis s c)).extractLsb' 8 8),
           .wr (drumChip d) (dbase s.cfg d + 1) ((Config.drumEnc e.rate (semis s c)).extractLsb' 0 8),
           .wr (drumChip d) (dbase s.cfg d + 0x10) (e.addr.extractLsb' 16 8),
           .wr (drumChip d) (dbase s.cfg d + 0x11) (e.addr.extractLsb' 8 8),
           .wr (drumChip d) (dbase s.cfg d + 0x12) (e.addr.extractLsb' 0 8),
           .wr (drumChip d) (dbase s.cfg d + 0x13) ((e.addr + e.len).extractLsb' 16 8),
           .wr (drumChip d) (dbase s.cfg d + 0x14) ((e.addr + e.len).extractLsb' 8 8),
           .wr (drumChip d) (dbase s.cfg d + 0x15) ((e.addr + e.len).extractLsb' 0 8),
           .wr (drumChip d) (dbase s.cfg d + 0x16) s.cfg.loopDisable[0],
           .wr (drumChip d) (dbase s.cfg d + 0x17) s.cfg.loopDisable[1],
           .wr (drumChip d) (dbase s.cfg d + 0x18) s.cfg.loopDisable[2],
           .wr (drumChip d) (dbase s.cfg d + 0x02) (s.cvol vel c),
           .strobe (drumChip d) .sampleTrig (localDrum d),
           .unlock (drumChip d)]
        img := t.img } ∧
  t.imgByte (drumChip d) (dbase s.cfg d) = some ((Config.drumEnc e.rate (semis s c)).extractLsb' 8 8) ∧
  t.imgByte (drumChip d) (dbase s.cfg d + 1) = some ((Config.drumEnc e.rate (semis s c)).extractLsb' 0 8) ∧
  t.imgByte (drumChip d) (dbase s.cfg d + 0x02) = some (s.cvol vel c) ∧
  (∀ j, j < 3 → t.imgByte (drumChip d) (dbase s.cfg d + 0x10 + j) = some (e.addr.extractLsb' (16 - 8 * j) 8)) ∧
  (∀ j, j < 3 → t.imgByte (drumChip d) (dbase s.cfg d + 0x13 + j) =
    some ((e.addr + e.len).extractLsb' (16 - 8 * j) 8)) ∧
  (∀ j : Fin 3, t.imgByte (drumChip d) (dbase s.cfg d + 0x16 + j.val) = some (s.cfg.loopDisable.get j)) ∧
  (∀ k x, (∀ a, a ≤ 2 ∨ (0x10 ≤ a ∧ a ≤ 0x18) → ¬ atDrum s d a k x) → t.imgByte k x = s.imgByte k x)

/-- The state with a controller value stored, which every CC does first (R222). -/
def stored (s : State) (c : Chan) (ctrl v : Data) : State := s.modChan c (fun x => x.setCtrl ctrl v)

/-- The events of a sweep: those of each slot that satisfies `p`, in ascending slot order. -/
def sweep {α : Type} (xs : List α) (p : α → Bool) (ev : Nat → α → List Event) : List Event :=
  (xs.zipIdx.filter (fun x => p x.1)).flatMap (fun x => ev x.2 x.1)

/-- One volume refresh (R161): in state `s`, with its channel's patch and controllers, from events `pre` on, every Held
slot of `c` takes the volume of its stored velocity and its eight volume bytes are rewritten; nothing else changes. -/
def VolumesRefreshed (s t : State) (c : Chan) (pre : List Event) : Prop :=
  t.vs = s.vs.map (fun x => if x.inuse && x.chan == c then { x with vol := s.cvol x.vel c } else x) ∧
  t.out = s.out ++ pre ++ sweep s.vs (fun x => x.inuse && x.chan == c) (fun i x =>
    [Event.lock (chipOf s.cfg i)] ++
    (List.range 8).map (fun j => Event.wr (chipOf s.cfg i) (vbase s.cfg i + 0x10 + j)
      (encodeByte s.cfg.vsm (s.effective c) (s.cvol x.vel c) (0x10 + j))) ++
    [Event.unlock (chipOf s.cfg i)]) ∧
  (∀ (i : Nat) (x : Voice) (j : Nat), s.vs[i]? = some x → x.inuse = true → x.chan = c → j < 8 →
    t.imgByte (chipOf s.cfg i) (vbase s.cfg i + 0x10 + j) =
      some (encodeByte s.cfg.vsm (s.effective c) (s.cvol x.vel c) (0x10 + j)))

/-- A Held slot's silencing (R159): the bytes of slot `i` that become 0. -/
def silencedAt (s : State) (i k x : Nat) : Prop :=
  (∃ j, j < 8 ∧ atVoice s i (0x10 + j) k x) ∨ atFreq s i k x ∨ atVoice s i 0x1E k x

/-- A drum slot's silencing (R197): the bytes of slot `d` that become 0. -/
def drumSilencedAt (s : State) (d k x : Nat) : Prop := ∃ a, a ≤ 2 ∧ atDrum s d a k x

/-- The events of silencing FM slot `i` (R159): eleven writes in one bracket. -/
def silenceOf (s : State) (i : Nat) : List Event :=
  [Event.lock (chipOf s.cfg i)] ++
  (List.range 8).map (fun j => Event.wr (chipOf s.cfg i) (vbase s.cfg i + 0x10 + j) 0) ++
  [.wr (chipOf s.cfg i) (nfaddr s.cfg i) 0, .wr (chipOf s.cfg i) (nfaddr s.cfg i + 1) 0,
   .wr (chipOf s.cfg i) (vbase s.cfg i + 0x1E) 0, .unlock (chipOf s.cfg i)]

/-- The events of silencing drum slot `d` (R197): three writes in one bracket. -/
def drumSilenceOf (s : State) (d : Nat) : List Event :=
  [.lock (drumChip d), .wr (drumChip d) (dbase s.cfg d + 0x02) 0, .wr (drumChip d) (dbase s.cfg d) 0,
   .wr (drumChip d) (dbase s.cfg d + 1) 0, .unlock (drumChip d)]

/-- Every in-use slot of either pool that satisfies `p` or `q` is silenced, FM first, ascending: the bytes that become
0 and the bytes that stay (R159, R160, R197, R233). -/
def SilencedBytes (s t : State) (p : Voice → Bool) (q : Drum → Bool) : Prop :=
  (∀ (i : Nat) (v : Voice) (k x : Nat), s.vs[i]? = some v → v.inuse = true → p v = true → silencedAt s i k x →
    t.imgByte k x = some 0) ∧
  (∀ (d : Nat) (v : Drum) (k x : Nat), s.ds[d]? = some v → v.inuse = true → q v = true → drumSilencedAt s d k x →
    t.imgByte k x = some 0) ∧
  (∀ k x, (∀ (i : Nat) (v : Voice), s.vs[i]? = some v → v.inuse = true → p v = true → ¬ silencedAt s i k x) →
    (∀ (d : Nat) (v : Drum), s.ds[d]? = some v → v.inuse = true → q v = true → ¬ drumSilencedAt s d k x) →
    t.imgByte k x = s.imgByte k x)

/-- Entry `e` of a load gives byte `v` for relative address `ra` (R243): its own fields, and for a waveform byte, which
two operators share, the low nibbles of both, a missing one counting as 0. -/
def givesByte (e : PatchEntry) (ra v : Nat) : Prop :=
  (ra = 0x1C ∧ e.modmode = some v) ∨ (ra = 0x1F ∧ e.feedback = some v) ∨
  (∃ k : Int, ra = 0x40 ∧ e.keyShift = some k ∧ v = (k % 256).toNat) ∨
  (∃ (i : Nat) (o : OperatorEntry), e.operators[i]? = some o ∧
    ((∃ f, o.frequency = some f ∧ ((ra = 2 * i ∧ v = f / 256) ∨ (ra = 2 * i + 1 ∧ v = f % 256))) ∨
     (ra = 0x10 + i ∧ o.volume = some v) ∨ (ra = 0x20 + 4 * i ∧ o.attack = some v) ∨
     (ra = 0x21 + 4 * i ∧ o.decay = some v) ∨ (ra = 0x22 + 4 * i ∧ o.sustain = some v) ∨
     (ra = 0x23 + 4 * i ∧ o.release = some v))) ∨
  (∃ j, j < 4 ∧ ra = 0x18 + j ∧
    (((e.operators[2 * j]?).bind (·.waveform)).isSome = true ∨
     ((e.operators[2 * j + 1]?).bind (·.waveform)).isSome = true) ∧
    v = 16 * ((((e.operators[2 * j]?).bind (·.waveform)).getD 0) % 16) +
      (((e.operators[2 * j + 1]?).bind (·.waveform)).getD 0) % 16)

end Sys2Proof.Claims

section
open Sys2Proof Sys2Proof.Machine Sys2Proof.Claims

/-! ## Encoding -/

/-- A few words written out from R105 and 95_test_vectors.md decode to their commands. -/
def Obligations.WrittenOutWordsDecode : Prop :=
  decode .realTime 0x02003C64 = .ok (.noteOn 0 60 100) ∧
  decode .realTime 0x01003C40 = .ok (.noteOff 0 60 64) ∧
  decode .realTime 0x05022000 = .ok (.bend 2 (BitVec.ofInt 14 (-8192))) ∧
  decode .realTime 0x12001A01 = .ok (.gsDrumPart 0x1A 1) ∧
  decode .realTime 0x130518A5 = .ok (.patchOverride 5 0x18 0xA5) ∧
  decode .realTime 0x14000200 = .ok (.tickAdv 512) ∧
  decode .host 0x21000005 = .ok (.patchDefine 0 5) ∧
  decode .host 0x220010C8 = .ok (.patchField 0x10 0xC8)

/-- Decoding an encoded command on its port gives it back, every operand at every value (R91 to R95, R100, R109). -/
def Obligations.DecodeEncodeRoundTrip : Prop := ∀ i : Instr, decode i.port (encode i) = .ok i

/-- The decoder accepts exactly the words R100's match and mask table admits, each on its port, and a word that decodes
is the encoding (R109) of what it decodes to. -/
def Obligations.DecoderAcceptsExactlyTheOpcodeTable : Prop :=
  ∀ (p : Port) (w : Word), ((∃ i, decode p w = .ok i) ↔ wordWellFormed p w = true) ∧
    ∀ i, decode p w = .ok i → encode i = w ∧ i.port = p

/-- A reserved word, on either port, produces `Warn(UNKNOWN_CMD, W)` and nothing else (R101). -/
def Obligations.ReservedWordOnlyWarns : Prop :=
  ∀ (s : State) (x : PortWord) (rest : List PortWord), s.cfg.legal = true → s.input = x :: rest →
    wordWellFormed x.port x.word = false →
    step s = .next { s with input := rest, out := s.out ++ [.warn (.unknownCmd x.word)] }

/-! ## The step -/

/-- A step takes the next word and runs the command it decodes to, to completion (R24, R71). The interleaving of the
ports as one list is the model's (log 3). -/
def Obligations.StepRunsTheDecodedCommand : Prop :=
  ∀ (s : State) (x : PortWord) (rest : List PortWord) (i : Instr), s.cfg.legal = true → s.input = x :: rest →
    decode x.port x.word = .ok i → step s = exec i { s with input := rest }

/-- With no word presented the block holds all its state (R275, R291; the step of an idle block is the model's, log 3);
with a parameter set outside R68 and R294 the step is refused (93 U12; that the step says so is the model's, log 6). -/
def Obligations.StepWithoutACommandHoldsOrRefuses : Prop :=
  ∀ s : State, (s.cfg.legal = true → s.input = [] → step s = .next s) ∧
    (s.cfg.legal = false → step s = .refused .illegalParameters)

/-! ## Reset -/

/-- Power-on reset gives every piece of state the value of R48's table, for every parameter set; that an image byte nothing
has written has no value is the model's choice (log 5). -/
def Obligations.ResetHoldsTheStatedValues : Prop :=
  ∀ p : Params,
    ((State.resetOf p).vs.length = p.nchips * p.vpc ∧
      ∀ v ∈ (State.resetOf p).vs, v.inuse = false ∧ v.note = 0 ∧ v.chan = 0 ∧ v.vel = 0 ∧ v.vol = 0 ∧ v.last = 0) ∧
    ((State.resetOf p).ds.length = p.nchips * 4 ∧
      ∀ v ∈ (State.resetOf p).ds, v.inuse = false ∧ v.note = 0 ∧ v.chan = 0 ∧ v.vel = 0 ∧ v.vol = 0 ∧ v.last = 0 ∧
        v.addr = 0 ∧ v.rate = 0 ∧ v.bsnap = 0) ∧
    (∀ c : Chan, ((State.resetOf p).chan c).prog = 0 ∧ ((State.resetOf p).chan c).bank = 0 ∧
      ((State.resetOf p).chan c).bend = 0 ∧ ((State.resetOf p).chan c).brange = 2 ∧
      ((State.resetOf p).chan c).coarse = 0 ∧ ((State.resetOf p).chan c).fine = 0 ∧
      ((State.resetOf p).chan c).kshift = 0 ∧ ((State.resetOf p).chan c).sus = false ∧
      ((State.resetOf p).chan c).held = 0 ∧ ((State.resetOf p).chan c).rpnMsb = 127 ∧
      ((State.resetOf p).chan c).rpnLsb = 127 ∧
      ∀ i : Data, ((State.resetOf p).chan c).ctrl i = if i = 7 ∨ i = 11 then 127 else if i = 10 then 64 else 0) ∧
    (State.resetOf p).drumset = 0x0200 ∧ (State.resetOf p).tick = 0 ∧ (State.resetOf p).cur = 0 ∧
    ((State.resetOf p).pb.length = p.nbanks ∧ (State.resetOf p).po = (State.resetOf p).pb ∧
      ∀ b ∈ (State.resetOf p).pb, ∀ q : Fin 128, (b.get q).defined = false ∧ (b.get q).mm = 4 ∧ (b.get q).fb = 0x80 ∧
        (b.get q).ks = 0 ∧ ∀ i : Fin 8, (b.get q).op.get i = ⟨0, 0, 0, 0, 0, 0, 0⟩) ∧
    (State.resetOf p).hp = none ∧
    ((State.resetOf p).lock.length = p.nchips ∧ ∀ b ∈ (State.resetOf p).lock, b = false) ∧
    (∀ k a, (State.resetOf p).imgByte k a = none) ∧ (State.resetOf p).out = []

/-- Reset, with any legal parameter set, meets every invariant the other statements keep; and the parameter set of
State.reset, the model's choice (log 1), is legal. -/
def Obligations.ResetMeetsTheInvariants : Prop :=
  State.reset.cfg.legal = true ∧ State.reset = State.resetOf State.reset.cfg ∧
  ∀ p : Params, p.legal = true →
    (State.resetOf p).Shaped ∧ (State.resetOf p).Unlocked ∧ (State.resetOf p).ImagesFromTrace ∧
    bracketed (State.resetOf p).out ∧ (∀ e ∈ (State.resetOf p).out, Event.fits p e) ∧
    (State.resetOf p).UniqueVoices ∧ (State.resetOf p).StampsDistinct ∧ (State.resetOf p).HeldNeedsPedal

/-! ## Invariants of every step -/

/-- From a well-shaped state every step completes (no fault, no refusal), the parameters do not change, and the state
it gives is well shaped (R15, R260, R294). -/
def Obligations.EveryStepCompletesWellShaped : Prop :=
  ∀ s : State, s.Shaped → ∃ t, step s = .next t ∧ t.Shaped ∧ t.cfg = s.cfg

/-- `IMG` stays the fold of the `Wr` events of `OUT` (R44). -/
def Obligations.StepKeepsImagesTheFoldOfTheTrace : Prop :=
  ∀ s t : State, s.ImagesFromTrace → step s = .next t → t.ImagesFromTrace

/-- The trace stays well bracketed and every lock is free at every command boundary (R46, R74). At instant `n` of a step,
after `n` of its events, the consumer of chip `k` gets nothing inside a bracket of its chip and else the whole image those
events made, so it sees a bracket whole or not at all (R72; the instants are the model's way to say it, log 12); the first
instant is the state before the step and the last the state after it. -/
def Obligations.StepKeepsBracketsClosedAndLocksFree : Prop :=
  ∀ s t : State, bracketed s.out → s.Unlocked → step s = .next t → bracketed t.out ∧ t.Unlocked ∧
    t.out = s.out ++ s.eventsUntil t ∧
    (∀ n k, k < s.lock.length → s.sampleDuring t n k =
      if ((s.eventsUntil t).take n).foldl bracketStep (some none) = some (some k) then none
      else (((s.eventsUntil t).take n).foldl Event.onImages s.img)[k]?) ∧
    (∀ k, s.sampleDuring t 0 k = s.sample k) ∧ (∀ k, s.sampleDuring t (s.eventsUntil t).length k = t.sample k)

/-- Every event addresses an existing chip, image byte, voice or drum channel (R13, R14, R68). -/
def Obligations.StepAddressesOnlyWhatExists : Prop :=
  ∀ s t : State, s.Shaped → (∀ e ∈ s.out, Event.fits s.cfg e) → step s = .next t → ∀ e ∈ t.out, Event.fits t.cfg e

/-- With the full reuse scan no two Held slots share a (channel, adjusted note) pair (R23, the spec's own
inference; the switch is 93 U3, log 7). -/
def Obligations.StepKeepsVoicesUnique : Prop :=
  ∀ s t : State, s.cfg.fullReuseScan = true → s.UniqueVoices → step s = .next t → t.UniqueVoices

/-- Short of a wrap of `TICK`, the stamps of Held slots stay distinct and below `TICK` (R152, R154, R305). -/
def Obligations.StepKeepsStampsDistinct : Prop :=
  ∀ s t : State, s.tick.toNat + 2 ^ 24 < 2 ^ 64 → s.StampsDistinct → step s = .next t → t.StampsDistinct

/-- A channel whose pedal is up has an empty held list (R157, R158, R164). -/
def Obligations.StepKeepsHeldListForPedal : Prop :=
  ∀ s t : State, s.HeldNeedsPedal → step s = .next t → t.HeldNeedsPedal

/-- One command makes at most `128 + 2 × NV + ND` brackets (R270, the spec's own inference). -/
def Obligations.CommandBracketsAreBounded : Prop :=
  ∀ (i : Instr) (s t : State), s.Shaped → exec i s = .next t →
    ∃ es, t.out = s.out ++ es ∧ countBrackets es ≤ 128 + 2 * s.cfg.nv + s.cfg.nd

/-- `TICK` moves only by TICK_ADV and, by one, by NOTE_ON (R34, R272). -/
def Obligations.OnlyNotesAndTickAdvMoveTheTick : Prop :=
  ∀ (i : Instr) (s t : State), exec i s = .next t →
    t.tick = s.tick ∨ (∃ n, i = .tickAdv n ∧ t.tick = s.tick + n.setWidth 64) ∨
      (∃ c n vel, i = .noteOn c n vel ∧ t.tick = s.tick + 1)

/-- A real-time command never writes the original patches, the host pointer or an answer to the host (R37, R271). -/
def Obligations.RealTimeCommandsLeaveHostStateAlone : Prop :=
  ∀ (i : Instr) (s t : State), i.port = .realTime → exec i s = .next t →
    t.po = s.po ∧ t.hp = s.hp ∧ t.replies = s.replies

/-- A host command takes no lock, writes no image and touches no allocation or channel state (R77, R271). -/
def Obligations.HostCommandsLeaveTheImagesAlone : Prop :=
  ∀ (i : Instr) (s : State), i.port = .host →
    ∃ t, exec i s = .next t ∧ t = { s with pb := t.pb, po := t.po, hp := t.hp, replies := t.replies }

/-! ## Images, patches and values -/

/-- A write to an image reads back and leaves every other address alone (R13), and keeps the canonical form. That form,
addresses strictly rising, is the model's choice (log 5). -/
def Obligations.ImageWriteReadsBack : Prop :=
  ∀ (m : Memory) (a : Nat) (v : Byte),
    (∀ b, Memory.read (Memory.write m a v) b = if b = a then some v else Memory.read m b) ∧
    (Memory.wf m → Memory.wf (Memory.write m a v))

/-- The byte of a patch at each relative address (R65). -/
def Obligations.PatchBytesFollowTheRelativeAddressMap : Prop :=
  ∀ (Q : Patch),
    (∀ i : Fin 8, Patch.byteAt Q (2 * i.val) = (Q.op.get i).freq.extractLsb' 8 8 ∧
      Patch.byteAt Q (2 * i.val + 1) = (Q.op.get i).freq.extractLsb' 0 8 ∧
      Patch.byteAt Q (0x10 + i.val) = (Q.op.get i).vol ∧
      Patch.byteAt Q (0x20 + 4 * i.val) = (Q.op.get i).attack ∧
      Patch.byteAt Q (0x21 + 4 * i.val) = (Q.op.get i).decay ∧
      Patch.byteAt Q (0x22 + 4 * i.val) = (Q.op.get i).sustain ∧
      Patch.byteAt Q (0x23 + 4 * i.val) = (Q.op.get i).release) ∧
    Patch.byteAt Q 0x18 = Q.op[0].wf ++ Q.op[1].wf ∧ Patch.byteAt Q 0x19 = Q.op[2].wf ++ Q.op[3].wf ∧
    Patch.byteAt Q 0x1A = Q.op[4].wf ++ Q.op[5].wf ∧ Patch.byteAt Q 0x1B = Q.op[6].wf ++ Q.op[7].wf ∧
    Patch.byteAt Q 0x1C = Q.mm ∧ Patch.byteAt Q 0x1D = 0 ∧ Patch.byteAt Q 0x1E = 0 ∧
    Patch.byteAt Q 0x1F = Q.fb ∧ Patch.byteAt Q 0x40 = Q.ks

/-- `patchwrite` sets the byte at its address and no other, never the defined flag, and nothing at all where the address
names no field (R65, R126). -/
def Obligations.PatchWriteSetsExactlyItsByte : Prop :=
  ∀ (Q : Patch) (ra : Nat) (v : Byte),
    (Patch.write Q ra v).defined = Q.defined ∧
    (namesField ra = true → Patch.byteAt (Patch.write Q ra v) ra = v) ∧
    (∀ rb, rb ≠ ra → Patch.byteAt (Patch.write Q ra v) rb = Patch.byteAt Q rb) ∧
    (namesField ra = false → Patch.write Q ra v = Q)

/-- The 64-byte image (R122, R124, R125): the patch's own bytes, except that the volume byte of operator `i` is
`floor(vol × m / 255)` where `mm ≤ 12` and `VSM[mm][i]` is true (R123); pan and gate are 0x00. -/
def Obligations.EncodedImageScalesOnlyCarrierVolumes : Prop :=
  ∀ (vsm : Vector (Vector Bool 8) 13) (P : Patch) (m : Byte),
    encodeImage vsm P m = (List.range 64).map (encodeByte vsm P m) ∧
    (∀ a, a < 0x10 ∨ 0x17 < a → encodeByte vsm P m a = Patch.byteAt P a) ∧
    encodeByte vsm P m 0x1D = 0 ∧ encodeByte vsm P m 0x1E = 0 ∧
    (∀ (i : Fin 8) (mm : Fin 13), P.mm.toNat = mm.val → (vsm.get mm).get i = true →
      (encodeByte vsm P m (0x10 + i.val)).toNat = (P.op.get i).vol.toNat * m.toNat / 255) ∧
    (∀ (i : Fin 8) (mm : Fin 13), P.mm.toNat = mm.val → (vsm.get mm).get i = false →
      encodeByte vsm P m (0x10 + i.val) = (P.op.get i).vol) ∧
    (∀ i : Fin 8, 13 ≤ P.mm.toNat → encodeByte vsm P m (0x10 + i.val) = (P.op.get i).vol)

/-- The ends of the volume range (R123; source property S2): where the table is true volume 0 gives 0 and volume 255
gives the operator's volume; where it is false, or has no row, the byte does not depend on the volume. -/
def Obligations.ScaledVolumeEndsAreExact : Prop :=
  ∀ (vsm : Vector (Vector Bool 8) 13) (P : Patch) (i : Fin 8),
    (∀ mm : Fin 13, P.mm.toNat = mm.val → (vsm.get mm).get i = true →
      encodeByte vsm P 0 (0x10 + i.val) = 0 ∧ encodeByte vsm P 255 (0x10 + i.val) = (P.op.get i).vol) ∧
    (13 ≤ P.mm.toNat ∨ (∃ mm : Fin 13, P.mm.toNat = mm.val ∧ (vsm.get mm).get i = false) →
      ∀ m m', encodeByte vsm P m (0x10 + i.val) = encodeByte vsm P m' (0x10 + i.val))

/-- `getEffective` (R120): the bank's patch if defined, else bank 0's if defined and the bank is not 0, else the default
patch; a program out of range gives the default patch and a bank out of range counts as undefined. The effective patch
of a channel, which the note, pitch and volume statements name, is that of its own bank and program (R220). -/
def Obligations.EffectivePatchFallsBackToBankZero : Prop :=
  ∀ (s : State) (b p : Int) (z : Bank), s.Shaped → s.pb[0]? = some z →
    (p < 0 ∨ 127 < p → s.getEffective b p = s.cfg.defaultPatch) ∧
    (∀ (q : Fin 128), p = (q.val : Int) →
      (∀ k : Bank, 0 ≤ b → s.pb[b.toNat]? = some k → (k.get q).defined = true → s.getEffective b p = k.get q) ∧
      ((b < 0 ∨ (s.cfg.nbanks : Int) ≤ b ∨ ∃ k : Bank, s.pb[b.toNat]? = some k ∧ (k.get q).defined = false) →
        (b ≠ 0 → (z.get q).defined = true → s.getEffective b p = z.get q) ∧
        (b = 0 ∨ (z.get q).defined = false → s.getEffective b p = s.cfg.defaultPatch))) ∧
    (∀ c : Chan, s.effective c = s.getEffective ((s.chan c).bank.toNat : Int) ((s.chan c).prog.toNat : Int))

/-- The computed volume (R128): the exact product over 127³, floored, for every velocity and controller. That the
clamp never changes it is the spec's own inference (R129). -/
def Obligations.ComputedVolumeNeedsNoClamp : Prop :=
  ∀ (s : State) (vel : Data) (c : Chan),
    (s.cvol vel c).toNat =
      vel.toNat * ((s.chan c).ctrl 11).toNat * ((s.chan c).ctrl 7).toNat * 255 / (127 * 127 * 127)

/-- The pan byte (R130): each nibble is the nearest integer, strictly nearer than one half (the spec's
own inference, R131), and the two sum to 15. -/
def Obligations.PanNibblesAreNearestAndSumToFifteen : Prop :=
  ∀ (s : State) (c : Chan),
    ((s.panByte c).extractLsb' 4 4).toNat + ((s.panByte c).extractLsb' 0 4).toNat = 15 ∧
    (2 * (((s.panByte c).extractLsb' 4 4).toNat * 127 : Int) - 2 * ((127 - ((s.chan c).ctrl 10).toNat) * 15)).natAbs < 127 ∧
    (2 * (((s.panByte c).extractLsb' 0 4).toNat * 127 : Int) - 2 * (((s.chan c).ctrl 10).toNat * 15)).natAbs < 127

/-! ## NOTE_OFF -/

/-- A NOTE_OFF on a drum channel does nothing (R199). -/
def Obligations.NoteOffOnADrumChannelDoesNothing : Prop :=
  ∀ (s : State) (c : Chan) (n b : Data), isDrum s c → exec (.noteOff c n b) s = .next s

/-- With the pedal down a NOTE_OFF adds its raw note to the held list, idempotently, and does nothing else (R156, R157). -/
def Obligations.NoteOffWithPedalDownOnlyHolds : Prop :=
  ∀ (s : State) (c : Chan) (n b : Data), ¬ isDrum s c → (s.chan c).sus = true →
    ∃ t, exec (.noteOff c n b) s = .next t ∧ t = { s with ch := t.ch } ∧
      (∀ c', c' ≠ c → t.chan c' = s.chan c') ∧
      t.chan c = { s.chan c with held := (t.chan c).held } ∧
      ∀ m : Data, (t.chan c).held.getLsbD m.toNat = ((s.chan c).held.getLsbD m.toNat || m == n)

/-- With the pedal up a NOTE_OFF frees the first Held slot of its channel and adjusted note: the slot's `inuse` and
`note` are cleared, its gate byte becomes 0x00, and nothing else changes (R156). -/
def Obligations.NoteOffReleasesTheFirstMatchingVoice : Prop :=
  ∀ (s : State) (c : Chan) (n b : Data) (i : Nat) (v : Voice), s.Shaped → s.Unlocked → ¬ isDrum s c →
    (s.chan c).sus = false → s.vs[i]? = some v → Sounds v c (adjusted s c n) →
    (∀ (j : Nat) (w : Voice), j < i → s.vs[j]? = some w → ¬ Sounds w c (adjusted s c n)) →
    ∃ t, exec (.noteOff c n b) s = .next t ∧
      t = { s with
            vs := s.vs.set i { v with inuse := false, note := 0 }
            out := s.out ++ [.lock (chipOf s.cfg i), .wr (chipOf s.cfg i) (vbase s.cfg i + 0x1E) 0x00,
              .unlock (chipOf s.cfg i)]
            img := t.img } ∧
      t.imgByte (chipOf s.cfg i) (vbase s.cfg i + 0x1E) = some 0x00 ∧
      ∀ k x, ¬ atVoice s i 0x1E k x → t.imgByte k x = s.imgByte k x

/-- An orphan NOTE_OFF does nothing: no state change, no event, no warning (R156, 90_conflicts.md C4). -/
def Obligations.OrphanNoteOffDoesNothing : Prop :=
  ∀ (s : State) (c : Chan) (n b : Data), ¬ isDrum s c → (s.chan c).sus = false →
    (∀ (j : Nat) (w : Voice), s.vs[j]? = some w → ¬ Sounds w c (adjusted s c n)) →
    exec (.noteOff c n b) s = .next s

/-! ## NOTE_ON -/

/-- A drum note without a keymap entry under channel index 9 changes nothing, not even `CUR` or `TICK` (R191, R192). -/
def Obligations.DrumNoteWithoutSampleDoesNothing : Prop :=
  ∀ (s : State) (c : Chan) (n vel : Data), isDrum s c → (∀ e ∈ s.cfg.keymap, ¬ (e.chan = 9 ∧ e.note = n)) →
    exec (.noteOn c n vel) s = .next s

/-- A drum note whose (channel, raw note) sounds reuses the first such slot; the cursor stays (R192, R193). -/
def Obligations.DrumNoteReusesItsSlot : Prop :=
  ∀ (s : State) (c : Chan) (n vel : Data) (e : KeyEntry) (d : Nat) (v : Drum), s.Shaped → s.Unlocked → isDrum s c →
    s.cfg.keymap.find? (fun e => e.chan == 9 && e.note == n) = some e →
    s.ds[d]? = some v → (v.inuse = true ∧ v.chan = c ∧ v.note = n) →
    (∀ (j : Nat) (w : Drum), j < d → s.ds[j]? = some w → ¬ (w.inuse = true ∧ w.chan = c ∧ w.note = n)) →
    ∃ t, exec (.noteOn c n vel) s = .next t ∧ DrumStarted s t d e c n vel s.cur

/-- Any other drum note with a sample takes the slot at the cursor, whatever it holds, and the cursor advances by one
modulo `ND` (R192, R194). -/
def Obligations.DrumNoteTakesTheCursorSlot : Prop :=
  ∀ (s : State) (c : Chan) (n vel : Data) (e : KeyEntry), s.Shaped → s.Unlocked → isDrum s c →
    s.cfg.keymap.find? (fun e => e.chan == 9 && e.note == n) = some e →
    (∀ (j : Nat) (w : Drum), s.ds[j]? = some w → ¬ (w.inuse = true ∧ w.chan = c ∧ w.note = n)) →
    ∃ t, exec (.noteOn c n vel) s = .next t ∧ DrumStarted s t s.cur e c n vel ((s.cur + 1) % (s.cfg.nchips * 4))

/-- Note-on step (a): the first Held slot of the channel and adjusted note is reused, with a `RETRIGGER` warning unless
the raw note is on the held list (R151, R152). Where `FULL_REUSE_SCAN` is false only slot 0 is looked at (93 U3, log 7). -/
def Obligations.NoteOnReusesTheMatchingVoice : Prop :=
  ∀ (s : State) (c : Chan) (n vel : Data) (i : Nat) (v : Voice), s.Shaped → s.Unlocked → ¬ isDrum s c →
    (s.cfg.fullReuseScan = true ∨ i = 0) → s.vs[i]? = some v → Sounds v c (adjusted s c n) →
    (∀ (j : Nat) (w : Voice), j < i → s.vs[j]? = some w → ¬ Sounds w c (adjusted s c n)) →
    ∃ t, exec (.noteOn c n vel) s = .next t ∧
      VoiceStarted s t i c n vel
        (if (s.chan c).held.getLsbD n.toNat = true then [] else [.warn (.retrigger c n)])

/-- Note-on step (b): with no slot to reuse the first Free slot is taken (R151, R152). Where `FULL_REUSE_SCAN` is false
only slot 0 is looked at for reuse, so a match in a later slot is passed over (93 U3, log 7). -/
def Obligations.NoteOnTakesTheFirstFreeVoice : Prop :=
  ∀ (s : State) (c : Chan) (n vel : Data) (i : Nat) (v : Voice), s.Shaped → s.Unlocked → ¬ isDrum s c →
    (∀ (j : Nat) (w : Voice), (s.cfg.fullReuseScan = true ∨ j = 0) → s.vs[j]? = some w →
      ¬ Sounds w c (adjusted s c n)) →
    s.vs[i]? = some v → v.inuse = false →
    (∀ (j : Nat) (w : Voice), j < i → s.vs[j]? = some w → w.inuse = true) →
    ∃ t, exec (.noteOn c n vel) s = .next t ∧ VoiceStarted s t i c n vel []

/-- Note-on step (c): with every slot Held and none to reuse the first slot with the smallest stamp is stolen, without a
warning (R151, R152). Where `FULL_REUSE_SCAN` is false only slot 0 is looked at for reuse, so a match in a later slot is
passed over (93 U3, log 7). -/
def Obligations.NoteOnStealsTheOldestVoice : Prop :=
  ∀ (s : State) (c : Chan) (n vel : Data) (i : Nat) (v : Voice), s.Shaped → s.Unlocked → ¬ isDrum s c →
    (∀ (j : Nat) (w : Voice), (s.cfg.fullReuseScan = true ∨ j = 0) → s.vs[j]? = some w →
      ¬ Sounds w c (adjusted s c n)) →
    (∀ w ∈ s.vs, w.inuse = true) → s.vs[i]? = some v →
    (∀ (j : Nat) (w : Voice), s.vs[j]? = some w → v.last.toNat ≤ w.last.toNat ∧
      (j < i → v.last.toNat < w.last.toNat)) →
    ∃ t, exec (.noteOn c n vel) s = .next t ∧ VoiceStarted s t i c n vel []

/-- Allocation never fails over a non-empty pool, and a NOTE_ON on an FM channel always ends with a Held slot of its
channel and adjusted note (R155). -/
def Obligations.NoteOnAlwaysGetsAVoice : Prop :=
  ∀ (s : State) (c : Chan) (n vel : Data), s.vs ≠ [] → ¬ isDrum s c →
    ∃ t, exec (.noteOn c n vel) s = .next t ∧ t.vs.length = s.vs.length ∧ t.tick = s.tick + 1 ∧
      ∃ v ∈ t.vs, Sounds v c (adjusted s c n) ∧ v.vel = vel ∧ v.last = s.tick

/-- The gate of the slot a note-on takes is cleared before it is set (R125, R153; source property S3): slot `i`, the
one that Holds the note afterwards with the stamp of this command while every other slot is as before, has as the writes
to its gate byte among the events appended 0x00 and then `GATE_ON`, and 68 bytes are written in all (R309). -/
def Obligations.NoteOnClearsTheGateBeforeSettingIt : Prop :=
  ∀ (s : State) (c : Chan) (n vel : Data), s.Shaped → ¬ isDrum s c →
    ∃ t es i v, exec (.noteOn c n vel) s = .next t ∧ t.out = s.out ++ es ∧ i < s.cfg.nv ∧
      t.vs[i]? = some v ∧ Sounds v c (adjusted s c n) ∧ v.vel = vel ∧ v.last = s.tick ∧
      (∀ j, j ≠ i → t.vs[j]? = s.vs[j]?) ∧
      es.filter (fun e => match e with
        | .wr k a _ => k == chipOf s.cfg i && a == vbase s.cfg i + 0x1E
        | .lock _ => false
        | .unlock _ => false
        | .strobe _ _ _ => false
        | .warn _ => false) =
        [.wr (chipOf s.cfg i) (vbase s.cfg i + 0x1E) 0x00, .wr (chipOf s.cfg i) (vbase s.cfg i + 0x1E) s.cfg.gateOn] ∧
      countWrites es = 68

/-! ## CC -/

/-- Every CC completes and its value is in the table afterwards; no other table entry of any channel changes (R222). -/
def Obligations.ControllerValueIsAlwaysStored : Prop :=
  ∀ (s : State) (c : Chan) (ctrl v : Data),
    ∃ t, exec (.cc c ctrl v) s = .next t ∧
      ∀ (c' : Chan) (j : Data), (t.chan c').ctrl j = if c' = c ∧ j = ctrl then v else (s.chan c').ctrl j

/-- A controller without a special meaning is stored and nothing else happens (R103, R230); the same for CC120 and CC123
with a value other than 0 (R229). -/
def Obligations.PlainControllerOnlyStores : Prop :=
  ∀ (s : State) (c : Chan) (ctrl v : Data),
    ctrl.toNat ∉ [0, 6, 7, 10, 11, 64, 100, 101, 120, 123] ∨ ((ctrl = 120 ∨ ctrl = 123) ∧ v ≠ 0) →
      exec (.cc c ctrl v) s = .next (stored s c ctrl v)

/-- CC0 sets the bank (R223); CC100 and CC101 latch the two halves of the RPN (R228); nothing else but the table entry. -/
def Obligations.BankAndRpnControllersSetTheirField : Prop :=
  ∀ (s : State) (c : Chan) (v : Data),
    exec (.cc c 0 v) s = .next ((stored s c 0 v).modChan c (fun x => { x with bank := v })) ∧
    exec (.cc c 100 v) s = .next ((stored s c 100 v).modChan c (fun x => { x with rpnLsb := v })) ∧
    exec (.cc c 101 v) s = .next ((stored s c 101 v).modChan c (fun x => { x with rpnMsb := v }))

/-- CC6 (R224): under the latches (0,0), (0,1), (0,2) it sets bend range, fine tune `(v − 64) × 100 / 64` cents, coarse
tune `(v − 64) × 100` cents and nulls the latch; under any other latch nothing more than the store. -/
def Obligations.DataEntrySetsTheLatchedParameter : Prop :=
  ∀ (s : State) (c : Chan) (v : Data),
    ∃ t, exec (.cc c 6 v) s = .next t ∧ t = { s with ch := t.ch } ∧ (∀ c', c' ≠ c → t.chan c' = s.chan c') ∧
      ((s.chan c).rpnMsb = 0 ∧ (s.chan c).rpnLsb = 0 →
        t.chan c = { (s.chan c).setCtrl 6 v with brange := v, rpnMsb := 127, rpnLsb := 127 }) ∧
      ((s.chan c).rpnMsb = 0 ∧ (s.chan c).rpnLsb = 1 →
        t.chan c = { (s.chan c).setCtrl 6 v with
                     fine := ((v.toNat : Rat) - 64) * 100 / 64, rpnMsb := 127, rpnLsb := 127 }) ∧
      ((s.chan c).rpnMsb = 0 ∧ (s.chan c).rpnLsb = 2 →
        t.chan c = { (s.chan c).setCtrl 6 v with
                     coarse := ((v.toNat : Int) - 64) * 100, rpnMsb := 127, rpnLsb := 127 }) ∧
      ((s.chan c).rpnMsb ≠ 0 ∨ 3 ≤ (s.chan c).rpnLsb.toNat → t.chan c = (s.chan c).setCtrl 6 v)

/-- CC7 and CC11 (R161, R225): the value is stored, then the volumes of the channel's Held FM slots are refreshed from
their velocities and the channel's patch now; only volume bytes are written, drum slots are untouched (R198). -/
def Obligations.VolumeControllersRefreshVolumes : Prop :=
  ∀ (s : State) (c : Chan) (ctrl v : Data), s.Shaped → s.Unlocked → ctrl = 7 ∨ ctrl = 11 →
    ∃ t, exec (.cc c ctrl v) s = .next t ∧
      t = { stored s c ctrl v with vs := t.vs, out := t.out, img := t.img } ∧
      VolumesRefreshed (stored s c ctrl v) t c [] ∧
      ∀ k x, (∀ (i : Nat) (w : Voice) (j : Nat), s.vs[i]? = some w → w.inuse = true → w.chan = c → j < 8 →
        ¬ atVoice s i (0x10 + j) k x) → t.imgByte k x = s.imgByte k x

/-- CC10 (R162, R226): the value is stored, the pan bytes of the channel's Held FM slots are rewritten, then their
volumes are refreshed; drum slots are untouched. -/
def Obligations.PanControllerRewritesPanThenVolumes : Prop :=
  ∀ (s : State) (c : Chan) (v : Data), s.Shaped → s.Unlocked →
    ∃ t, exec (.cc c 10 v) s = .next t ∧
      t = { stored s c 10 v with vs := t.vs, out := t.out, img := t.img } ∧
      VolumesRefreshed (stored s c 10 v) t c (sweep s.vs (fun x => x.inuse && x.chan == c) (fun i _ =>
        [.lock (chipOf s.cfg i), .wr (chipOf s.cfg i) (vbase s.cfg i + 0x1D) ((stored s c 10 v).panByte c),
         .unlock (chipOf s.cfg i)])) ∧
      (∀ (i : Nat) (w : Voice), s.vs[i]? = some w → w.inuse = true → w.chan = c →
        t.imgByte (chipOf s.cfg i) (vbase s.cfg i + 0x1D) = some ((stored s c 10 v).panByte c)) ∧
      ∀ k x, (∀ (i : Nat) (w : Voice) (a : Nat), s.vs[i]? = some w → w.inuse = true → w.chan = c →
        (0x10 ≤ a ∧ a ≤ 0x17) ∨ a = 0x1D → ¬ atVoice s i a k x) → t.imgByte k x = s.imgByte k x

/-- CC64 without a pressed-to-released edge writes the stored value and the flag, pressed from 64 on, and nothing else
(R164, R227). -/
def Obligations.PedalWithoutReleaseEdgeOnlySetsTheFlag : Prop :=
  ∀ (s : State) (c : Chan) (v : Data), (s.chan c).sus = false ∨ 64 ≤ v.toNat →
    exec (.cc c 64 v) s = .next ((stored s c 64 v).modChan c (fun x => { x with sus := decide (64 ≤ v.toNat) }))

/-- CC64 on the pressed-to-released edge (R158, R227; source property S5): exactly the Held slots of the channel that
sound a note of its held list are freed with their gate bytes cleared, one bracket of the one gate write each, in
ascending order of the raw notes; the list is emptied and the flag is 0; no other slot, byte or field changes. -/
def Obligations.PedalReleaseFreesExactlyTheHeldNotes : Prop :=
  ∀ (s : State) (c : Chan) (v : Data), s.Shaped → s.Unlocked → s.UniqueVoices → (s.chan c).sus = true →
    v.toNat < 64 →
    ∃ t, exec (.cc c 64 v) s = .next t ∧
      t = { (stored s c 64 v).modChan c (fun x => { x with sus := false, held := 0 }) with
            vs := t.vs, out := t.out, img := t.img } ∧
      t.out = s.out ++ ((List.range 128).filter (fun n => (s.chan c).held.getLsbD n)).flatMap (fun n =>
        sweep s.vs (fun w => w.inuse && w.chan == c && w.note == adjusted s c (BitVec.ofNat 7 n)) (fun i _ =>
          [.lock (chipOf s.cfg i), .wr (chipOf s.cfg i) (vbase s.cfg i + 0x1E) 0x00, .unlock (chipOf s.cfg i)])) ∧
      t.vs.length = s.vs.length ∧
      (∀ (i : Nat) (w : Voice), s.vs[i]? = some w →
        ((∃ n : Data, (s.chan c).held.getLsbD n.toNat = true ∧ Sounds w c (adjusted s c n)) →
          t.vs[i]? = some { w with inuse := false, note := 0 } ∧
          t.imgByte (chipOf s.cfg i) (vbase s.cfg i + 0x1E) = some 0x00) ∧
        ((∀ n : Data, (s.chan c).held.getLsbD n.toNat = true → ¬ Sounds w c (adjusted s c n)) →
          t.vs[i]? = some w)) ∧
      ∀ k x, (∀ (i : Nat) (w : Voice) (n : Data), s.vs[i]? = some w → (s.chan c).held.getLsbD n.toNat = true →
        Sounds w c (adjusted s c n) → ¬ atVoice s i 0x1E k x) → t.imgByte k x = s.imgByte k x

/-- CC120 and CC123 with value 0 silence every slot of the channel in both pools, FM first; sustain flag and held list
stay (R160, R197, R229). -/
def Obligations.SoundOffSilencesTheChannel : Prop :=
  ∀ (s : State) (c : Chan) (ctrl : Data), s.Shaped → s.Unlocked → ctrl = 120 ∨ ctrl = 123 →
    ∃ t, exec (.cc c ctrl 0) s = .next t ∧
      t = { stored s c ctrl 0 with
            vs := s.vs.map (fun x => if x.inuse && x.chan == c then { x with inuse := false, note := 0 } else x)
            ds := s.ds.map (fun x => if x.inuse && x.chan == c then { x with inuse := false } else x)
            out := s.out ++ sweep s.vs (fun x => x.inuse && x.chan == c) (fun i _ => silenceOf s i) ++
              sweep s.ds (fun x => x.inuse && x.chan == c) (fun d _ => drumSilenceOf s d)
            img := t.img } ∧
      SilencedBytes s t (fun x => x.chan == c) (fun x => x.chan == c)

/-! ## PROG, BEND -/

/-- PROG sets the channel's program and nothing else (R231). -/
def Obligations.ProgramChangeSetsOnlyTheProgram : Prop :=
  ∀ (s : State) (c : Chan) (p : Data),
    ∃ t, exec (.prog c p) s = .next t ∧ t = { s with ch := t.ch } ∧
      t.chan c = { s.chan c with prog := p } ∧ ∀ c', c' ≠ c → t.chan c' = s.chan c'

/-- BEND stores the bend and rewrites the frequency words of the channel's FM and drum slots, FM first, ascending, from
stored adjusted notes and native rates, with no strobe and no other byte (R163, R196, R232). -/
def Obligations.BendRetunesBothPools : Prop :=
  ∀ (s : State) (c : Chan) (bend : BitVec 14), s.Shaped → s.Unlocked →
    ∃ t b, b = s.modChan c (fun x => { x with bend := bend }) ∧ exec (.bend c bend) s = .next t ∧
      t = { b with
            ds := s.ds.map (fun x => if x.inuse && x.chan == c then { x with bsnap := bend } else x)
            out := s.out ++
              sweep s.vs (fun x => x.inuse && x.chan == c) (fun i x =>
                [.lock (chipOf s.cfg i),
                 .wr (chipOf s.cfg i) (nfaddr s.cfg i) ((Config.freqEnc (pitchOf b x.note c)).extractLsb' 8 8),
                 .wr (chipOf s.cfg i) (nfaddr s.cfg i + 1) ((Config.freqEnc (pitchOf b x.note c)).extractLsb' 0 8),
                 .unlock (chipOf s.cfg i)]) ++
              sweep s.ds (fun x => x.inuse && x.chan == c) (fun d x =>
                [.lock (drumChip d),
                 .wr (drumChip d) (dbase s.cfg d) ((Config.drumEnc x.rate (semis b c)).extractLsb' 8 8),
                 .wr (drumChip d) (dbase s.cfg d + 1) ((Config.drumEnc x.rate (semis b c)).extractLsb' 0 8),
                 .unlock (drumChip d)])
            img := t.img } ∧
      (∀ (i : Nat) (w : Voice), s.vs[i]? = some w → w.inuse = true → w.chan = c →
        t.imgByte (chipOf s.cfg i) (nfaddr s.cfg i) = some ((Config.freqEnc (pitchOf b w.note c)).extractLsb' 8 8) ∧
        t.imgByte (chipOf s.cfg i) (nfaddr s.cfg i + 1) =
          some ((Config.freqEnc (pitchOf b w.note c)).extractLsb' 0 8)) ∧
      (∀ (d : Nat) (w : Drum), s.ds[d]? = some w → w.inuse = true → w.chan = c →
        t.imgByte (drumChip d) (dbase s.cfg d) = some ((Config.drumEnc w.rate (semis b c)).extractLsb' 8 8) ∧
        t.imgByte (drumChip d) (dbase s.cfg d + 1) = some ((Config.drumEnc w.rate (semis b c)).extractLsb' 0 8)) ∧
      ∀ k x, (∀ (i : Nat) (w : Voice), s.vs[i]? = some w → w.inuse = true → w.chan = c → ¬ atFreq s i k x) →
        (∀ (d : Nat) (w : Drum) (a : Nat), s.ds[d]? = some w → w.inuse = true → w.chan = c → a ≤ 1 →
          ¬ atDrum s d a k x) → t.imgByte k x = s.imgByte k x

/-! ## System commands -/

/-- GM_RESET (R233, R234): both pools silenced, every channel at its defaults, `DRUMSET` to channel index 9 alone (where
`GM_CLEARS_DRUMSET` is false, unchanged: 93 U6, log 8), live patches from the originals; `TICK`, `CUR`, `HP`, `PO` and
the locks unchanged. -/
def Obligations.GmResetSilencesAndRestores : Prop :=
  ∀ s : State, s.Shaped → s.Unlocked →
    ∃ t, exec .gmReset s = .next t ∧
      t = { s with
            vs := s.vs.map (fun x => if x.inuse then { x with inuse := false, note := 0 } else x)
            ds := s.ds.map (fun x => if x.inuse then { x with inuse := false } else x)
            ch := t.ch
            drumset := if s.cfg.gmClearsDrumset then 0x0200 else s.drumset
            pb := s.po
            out := s.out ++ sweep s.vs (fun x => x.inuse) (fun i _ => silenceOf s i) ++
              sweep s.ds (fun x => x.inuse) (fun d _ => drumSilenceOf s d)
            img := t.img } ∧
      (∀ c : Chan, t.chan c = (State.resetOf s.cfg).chan c) ∧
      (∀ v ∈ t.vs, v.inuse = false) ∧ (∀ v ∈ t.ds, v.inuse = false) ∧
      SilencedBytes s t (fun _ => true) (fun _ => true)

/-- GS_RESET (R235): what GM_RESET does, and `DRUMSET` is channel index 9 alone in any case. -/
def Obligations.GsResetAlsoClearsTheDrumSet : Prop :=
  ∀ s : State, ∃ t u, exec .gmReset s = .next u ∧ exec .gsReset s = .next t ∧ t = { u with drumset := 0x0200 }

/-- GS_DRUM_PART (R98, R236): with `map ≥ 1`, parts 0x10, 0x11 to 0x19 and 0x1A to 0x1F add channel index 9, part − 0x11
and part − 0x10; with `map = 0` or another part nothing happens. -/
def Obligations.DrumPartAddsTheMappedChannel : Prop :=
  ∀ (s : State) (part map : Data), s.drumset.getLsbD 9 = true →
    (map = 0 ∨ part.toNat < 0x10 ∨ 0x1F < part.toNat → exec (.gsDrumPart part map) s = .next s) ∧
    (map ≠ 0 → 0x10 ≤ part.toNat → part.toNat ≤ 0x1F →
      ∃ t, exec (.gsDrumPart part map) s = .next t ∧ t = { s with drumset := t.drumset } ∧
        ∀ c : Chan, t.drumset.getLsbD c.toNat = (s.drumset.getLsbD c.toNat ||
          c.toNat == (if part.toNat = 0x10 then 9
            else if part.toNat ≤ 0x19 then part.toNat - 0x11 else part.toNat - 0x10)))

/-- PATCH_OVERRIDE (R126, R127, R237): an address that names no field does nothing; else the live patch of bank 0, created
from the load defaults if it was undefined, has that one field written; originals and images are untouched. -/
def Obligations.PatchOverrideWritesOneLiveField : Prop :=
  ∀ (s : State) (pg ra : Data) (v : Byte) (z : Bank), s.Shaped → s.pb[0]? = some z →
    (namesField ra.toNat = false → exec (.patchOverride pg ra v) s = .next s) ∧
    (namesField ra.toNat = true →
      ∃ t q, exec (.patchOverride pg ra v) s = .next t ∧ t = { s with pb := s.pb.set 0 q } ∧
        q.get pg.toFin = Patch.write (if (z.get pg.toFin).defined then z.get pg.toFin
          else Patch.loadDefaults) ra.toNat v ∧
        (q.get pg.toFin).defined = true ∧
        Patch.byteAt (q.get pg.toFin) ra.toNat = v ∧
        ∀ p : Fin 128, p ≠ pg.toFin → q.get p = z.get p)

/-- TICK_ADV adds its count to `TICK` modulo 2^64 and changes nothing else (R238). -/
def Obligations.TickAdvAddsToTheTick : Prop :=
  ∀ (s : State) (n : BitVec 24),
    ∃ t, exec (.tickAdv n) s = .next t ∧ t = { s with tick := t.tick } ∧
      t.tick.toNat = (s.tick.toNat + n.toNat) % 2 ^ 64

/-! ## Host commands -/

/-- BANK_CLEAR (R239): an absent bank is left alone; else all 128 programs of the bank are undefined load defaults in
both copies, and `HP` is none if it pointed there. -/
def Obligations.BankClearUndefinesTheBank : Prop :=
  ∀ (s : State) (b : Data), s.Shaped →
    (s.cfg.nbanks ≤ b.toNat → exec (.bankClear b) s = .next s) ∧
    (b.toNat < s.cfg.nbanks →
      ∃ t, exec (.bankClear b) s = .next t ∧ t = { s with pb := t.pb, po := t.po, hp := t.hp } ∧
        t.pb = s.pb.set b.toNat (Vector.replicate 128 { Patch.loadDefaults with defined := false }) ∧
        t.po = s.po.set b.toNat (Vector.replicate 128 { Patch.loadDefaults with defined := false }) ∧
        (∀ p, s.hp = some (b, p) → t.hp = none) ∧ ((∀ p, s.hp ≠ some (b, p)) → t.hp = s.hp))

/-- PATCH_DEFINE (R240): the patch has the load defaults in both copies and `HP` points at it. For an absent bank two
rules disagree and a switch of the model chooses (log 23): only `HP` becomes none (R240), or nothing changes (R262,
R269). -/
def Obligations.PatchDefineSetsLoadDefaults : Prop :=
  ∀ (s : State) (b p : Data), s.Shaped →
    (s.cfg.nbanks ≤ b.toNat → s.cfg.absentDefineClearsPointer = true →
      exec (.patchDefine b p) s = .next { s with hp := none }) ∧
    (s.cfg.nbanks ≤ b.toNat → s.cfg.absentDefineClearsPointer = false → exec (.patchDefine b p) s = .next s) ∧
    (∀ k o : Bank, s.pb[b.toNat]? = some k → s.po[b.toNat]? = some o →
      exec (.patchDefine b p) s = .next { s with
        pb := s.pb.set b.toNat (k.set p.toNat Patch.loadDefaults p.isLt)
        po := s.po.set b.toNat (o.set p.toNat Patch.loadDefaults p.isLt)
        hp := some (b, p) })

/-- PATCH_FIELD (R241): nothing while `HP` is none or where the address names no field; else the field is written in both
copies of the patch `HP` points at. -/
def Obligations.PatchFieldWritesBothCopies : Prop :=
  ∀ (s : State) (ra v : Byte), s.Shaped →
    (s.hp = none ∨ namesField ra.toNat = false → exec (.patchField ra v) s = .next s) ∧
    (∀ (b p : Data) (k o : Bank), s.hp = some (b, p) → namesField ra.toNat = true → s.pb[b.toNat]? = some k →
      s.po[b.toNat]? = some o →
      exec (.patchField ra v) s = .next { s with
        pb := s.pb.set b.toNat (k.set p.toNat (Patch.write (k.get p.toFin) ra.toNat v) p.isLt)
        po := s.po.set b.toNat (o.set p.toNat (Patch.write (o.get p.toFin) ra.toNat v) p.isLt) })

/-- PATCH_READ (R242): the answer is the `def` flag and, when it is 1, the 65 bytes of the live patch; nothing else
changes. That the answer is kept in a list is the model's (log 4). -/
def Obligations.PatchReadAnswersTheLivePatch : Prop :=
  ∀ (s : State) (b p : Data), s.Shaped →
    ∃ r, exec (.patchRead b p) s = .next { s with replies := s.replies ++ [r] } ∧
      (s.cfg.nbanks ≤ b.toNat → r = .absent) ∧
      (∀ k : Bank, s.pb[b.toNat]? = some k →
        ((k.get p.toFin).defined = false → r = .absent) ∧
        ((k.get p.toFin).defined = true → ∃ bytes, r = .present bytes ∧ bytes.length = 65 ∧
          ∀ a, a < 65 → bytes[a]? = some (Patch.byteAt (k.get p.toFin) a)))

/-! ## Scripts -/

/-- The words of a script in range decode, on their ports, to its expansion; a plain line is its one command, and the
pseudo-commands expand as R106 to R108 say. A LOAD is BANK_CLEAR and then, for each entry, PATCH_DEFINE and one
PATCH_FIELD for every field byte the entry gives, each address once. The order of the fields, which the statement leaves
open, and a waveform byte for a pair when either operator gives one are the model's choices (log 17); the encoding of
scripts is the spec's own (R105). -/
def Obligations.ScriptsAssembleToTheirExpansion : Prop :=
  (∀ (lines : List Source) (ws : List PortWord), assemble lines = some ws →
    ws.map (fun x => decode x.port x.word) = (lines.flatMap expandLine).map Except.ok) ∧
  (∀ c a b : Nat,
    expandLine (.noteOff c a b) = [.noteOff (BitVec.ofNat 4 c) (BitVec.ofNat 7 a) (BitVec.ofNat 7 b)] ∧
    expandLine (.noteOn c a b) = [.noteOn (BitVec.ofNat 4 c) (BitVec.ofNat 7 a) (BitVec.ofNat 7 b)] ∧
    expandLine (.cc c a b) = [.cc (BitVec.ofNat 4 c) (BitVec.ofNat 7 a) (BitVec.ofNat 7 b)] ∧
    expandLine (.prog c a) = [.prog (BitVec.ofNat 4 c) (BitVec.ofNat 7 a)] ∧
    (∀ x : Int, expandLine (.bend c x) = [.bend (BitVec.ofNat 4 c) (BitVec.ofInt 14 x)]) ∧
    expandLine .gmReset = [.gmReset] ∧ expandLine .gsReset = [.gsReset] ∧
    expandLine (.gsDrumPart a b) = [.gsDrumPart (BitVec.ofNat 7 a) (BitVec.ofNat 7 b)] ∧
    expandLine (.patchOverride a b c) =
      [.patchOverride (BitVec.ofNat 7 a) (BitVec.ofNat 7 b) (BitVec.ofNat 8 c)] ∧
    expandLine (.tickAdv a) = [.tickAdv (BitVec.ofNat 24 a)] ∧
    expandLine (.bankClear a) = [.bankClear (BitVec.ofNat 7 a)] ∧
    expandLine (.patchDefine a b) = [.patchDefine (BitVec.ofNat 7 a) (BitVec.ofNat 7 b)] ∧
    expandLine (.patchField a b) = [.patchField (BitVec.ofNat 8 a) (BitVec.ofNat 8 b)] ∧
    expandLine (.patchRead a b) = [.patchRead (BitVec.ofNat 7 a) (BitVec.ofNat 7 b)]) ∧
  (∀ c v : Nat, expandLine (.bank c v) = expandLine (.cc c 0 v) ∧ expandLine (.data c v) = expandLine (.cc c 6 v) ∧
    expandLine (.volume c v) = expandLine (.cc c 7 v) ∧ expandLine (.pan c v) = expandLine (.cc c 10 v) ∧
    expandLine (.expr c v) = expandLine (.cc c 11 v) ∧ expandLine (.sustainOn c) = expandLine (.cc c 64 127) ∧
    expandLine (.sustainOff c) = expandLine (.cc c 64 0) ∧ expandLine (.allSoundOff c) = expandLine (.cc c 120 0) ∧
    expandLine (.allNotesOff c) = expandLine (.cc c 123 0) ∧
    expandLine (.bendRange c v) = [.cc c 101 0, .cc c 100 0, .cc c 6 v].flatMap expandLine ∧
    expandLine (.fineTune c v) = [.cc c 101 0, .cc c 100 1, .cc c 6 v].flatMap expandLine ∧
    expandLine (.coarseTune c v) = [.cc c 101 0, .cc c 100 2, .cc c 6 v].flatMap expandLine) ∧
  (∀ (bank : Nat) (entries : List PatchEntry),
    expandLine (.load bank entries) = .bankClear (BitVec.ofNat 7 bank) :: entries.flatMap (fun e =>
      .patchDefine (BitVec.ofNat 7 bank) (BitVec.ofNat 7 e.program) :: (PatchEntry.fields e).map (fun x =>
        .patchField (BitVec.ofNat 8 x.1) (BitVec.ofNat 8 x.2)))) ∧
  (∀ e : PatchEntry, e.wellFormed = true →
    ((PatchEntry.fields e).map Prod.fst).Nodup ∧
    ∀ x : Nat × Nat, x ∈ PatchEntry.fields e ↔ givesByte e x.1 x.2)

end
end

