-- ==== Sys2Proof/Laws/Fields.lean ====
section
/-! SUPPORT. The fields of the two shared word formats read back from an assembled word, and the must-be-zero bits of each format (30_encoding.md R91 to R95, R109). -/

namespace Sys2Proof

@[simp] theorem opField_formC (op : Byte) (c : Chan) (a b : Data) : opField (formC op c a b) = op := by
  apply BitVec.eq_of_getLsbD_eq; intro i hi
  simp only [opField, formC, BitVec.getLsbD_extractLsb', BitVec.getLsbD_append]
  interval_cases i <;> simp

@[simp] theorem chField_formC (op : Byte) (c : Chan) (a b : Data) : chField (formC op c a b) = c := by
  apply BitVec.eq_of_getLsbD_eq; intro i hi
  simp only [chField, formC, BitVec.getLsbD_extractLsb', BitVec.getLsbD_append]
  interval_cases i <;> simp

@[simp] theorem aField_formC (op : Byte) (c : Chan) (a b : Data) : aField (formC op c a b) = a := by
  apply BitVec.eq_of_getLsbD_eq; intro i hi
  simp only [aField, formC, BitVec.getLsbD_extractLsb', BitVec.getLsbD_append]
  interval_cases i <;> simp

@[simp] theorem bField_formC (op : Byte) (c : Chan) (a b : Data) : bField (formC op c a b) = b := by
  apply BitVec.eq_of_getLsbD_eq; intro i hi
  simp only [bField, formC, BitVec.getLsbD_extractLsb', BitVec.getLsbD_append]
  interval_cases i <;> simp

@[simp] theorem zeros_formC (op : Byte) (c : Chan) (a b : Data) : formC op c a b &&& 0x00F08080#32 = 0#32 := by
  apply BitVec.eq_of_getLsbD_eq; intro i hi
  simp only [formC, BitVec.getLsbD_and, BitVec.getLsbD_append]
  interval_cases i <;> simp

@[simp] theorem opField_formS (op : Byte) (a b : Data) : opField (formS op a b) = op := by
  apply BitVec.eq_of_getLsbD_eq; intro i hi
  simp only [opField, formS, BitVec.getLsbD_extractLsb', BitVec.getLsbD_append]
  interval_cases i <;> simp

@[simp] theorem aField_formS (op : Byte) (a b : Data) : aField (formS op a b) = a := by
  apply BitVec.eq_of_getLsbD_eq; intro i hi
  simp only [aField, formS, BitVec.getLsbD_extractLsb', BitVec.getLsbD_append]
  interval_cases i <;> simp

@[simp] theorem bField_formS (op : Byte) (a b : Data) : bField (formS op a b) = b := by
  apply BitVec.eq_of_getLsbD_eq; intro i hi
  simp only [bField, formS, BitVec.getLsbD_extractLsb', BitVec.getLsbD_append]
  interval_cases i <;> simp

@[simp] theorem zeros_formS (op : Byte) (a b : Data) : formS op a b &&& 0x00FF8080#32 = 0#32 := by
  apply BitVec.eq_of_getLsbD_eq; intro i hi
  simp only [formS, BitVec.getLsbD_and, BitVec.getLsbD_append]
  interval_cases i <;> simp

/-- `accept` answers exactly when the port is right and the must-be-zero bits are zero (R101). -/
theorem accept_eq_ok_iff {p q : Port} {w zeros : Word} {i j : Instr} :
    accept p q w zeros i = .ok j ↔ p = q ∧ w &&& zeros = 0 ∧ i = j := by
  unfold accept
  split
  · simp_all
  · split <;> simp_all

end Sys2Proof
end

