-- ==== Sys2Proof/Laws/Memory.lean ====
section
/-! SUPPORT. The laws of one register image: read after write, other addresses left alone, the canonical form kept; and what a list of events does to the images and locks. -/

namespace Sys2Proof.Machine

theorem Memory.read_write_same (m : Memory) (a : Nat) (v : Byte) : Memory.read (Memory.write m a v) a = some v := by
  induction m with
  | nil => simp [Memory.write, Memory.read]
  | cons x m ih =>
    obtain ⟨b, w⟩ := x
    unfold Memory.write
    split
    · simp [Memory.read]
    · split
      · simp [Memory.read]
      · rename_i h; simp [Memory.read, h, ih]

theorem Memory.read_write_other (m : Memory) (a b : Nat) (v : Byte) (h : b ≠ a) :
    Memory.read (Memory.write m a v) b = Memory.read m b := by
  induction m with
  | nil => simp [Memory.write, Memory.read, h]
  | cons x m ih =>
    obtain ⟨c, w⟩ := x
    unfold Memory.write
    split
    · simp [Memory.read, h]
    · split
      · rename_i e; subst e; simp [Memory.read, h]
      · simp only [Memory.read, ih]

/-- What one write does to every read. -/
theorem Memory.read_write (m : Memory) (a b : Nat) (v : Byte) :
    Memory.read (Memory.write m a v) b = if b = a then some v else Memory.read m b := by
  by_cases h : b = a
  · subst h; simp [Memory.read_write_same]
  · simp [h, Memory.read_write_other]

theorem Memory.mem_write {m : Memory} {a : Nat} {v : Byte} {x : Nat} (h : x ∈ (Memory.write m a v).map Prod.fst) :
    x = a ∨ x ∈ m.map Prod.fst := by
  induction m with
  | nil => simpa [Memory.write] using h
  | cons y m ih =>
    obtain ⟨b, w⟩ := y
    unfold Memory.write at h
    split at h
    · simpa using h
    · split at h
      · rename_i e; subst e; simp at h ⊢; tauto
      · simp only [List.map_cons, List.mem_cons] at h ⊢
        rcases h with h | h
        · exact Or.inr (Or.inl h)
        · rcases ih h with h | h
          · exact Or.inl h
          · exact Or.inr (Or.inr h)

/-- A write keeps the canonical form. -/
theorem Memory.wf_write {m : Memory} (a : Nat) (v : Byte) (h : Memory.wf m) : Memory.wf (Memory.write m a v) := by
  induction m with
  | nil => simp [Memory.wf, Memory.write]
  | cons x m ih =>
    obtain ⟨b, w⟩ := x
    simp only [Memory.wf, List.map_cons, List.pairwise_cons] at h
    unfold Memory.write
    split
    · rename_i hlt
      simp only [Memory.wf, List.map_cons, List.pairwise_cons, List.mem_cons]
      refine ⟨?_, h⟩
      rintro y (rfl | hy)
      · exact hlt
      · exact lt_trans hlt (h.1 y hy)
    · split
      · rename_i e; subst e; simpa [Memory.wf] using h
      · rename_i hlt hne
        simp only [Memory.wf, List.map_cons, List.pairwise_cons]
        refine ⟨fun y hy => ?_, ih h.2⟩
        rcases Memory.mem_write hy with rfl | hy
        · omega
        · exact h.1 y hy

/-! ### Events and images -/

@[simp] theorem onImages_length (img : List Memory) (e : Event) : (Event.onImages img e).length = img.length := by
  cases e <;> simp [Event.onImages]

@[simp] theorem foldl_onImages_length (es : List Event) (img : List Memory) :
    (es.foldl Event.onImages img).length = img.length := by
  induction es generalizing img with
  | nil => rfl
  | cons e es ih => simp [ih]

@[simp] theorem onLocks_length (l : List Bool) (e : Event) : (Event.onLocks l e).length = l.length := by
  cases e <;> simp [Event.onLocks]

@[simp] theorem foldl_onLocks_length (es : List Event) (l : List Bool) :
    (es.foldl Event.onLocks l).length = l.length := by
  induction es generalizing l with
  | nil => rfl
  | cons e es ih => simp [ih]

/-- Every image operation keeps the canonical form of every image. -/
theorem onImages_wf {img : List Memory} (e : Event) (h : ∀ m ∈ img, Memory.wf m) :
    ∀ m ∈ Event.onImages img e, Memory.wf m := by
  cases e with
  | wr k a v =>
    intro m hm
    obtain ⟨i, hi, rfl⟩ := List.mem_iff_getElem.mp hm
    simp only [Event.onImages, List.length_modify] at hi ⊢
    rw [List.getElem_modify]
    split
    · exact Memory.wf_write _ _ (h _ (List.getElem_mem hi))
    · exact h _ (List.getElem_mem hi)
  | lock k => exact h
  | unlock k => exact h
  | strobe k kind i => exact h
  | warn w => exact h

theorem foldl_onImages_wf (es : List Event) {img : List Memory} (h : ∀ m ∈ img, Memory.wf m) :
    ∀ m ∈ es.foldl Event.onImages img, Memory.wf m := by
  induction es generalizing img with
  | nil => exact h
  | cons e es ih => exact ih (onImages_wf e h)

/-- The read of one byte of the images after one event. -/
theorem onImages_read (img : List Memory) (e : Event) (k a : Nat) (hk : k < img.length) :
    ((Event.onImages img e)[k]?).bind (fun m => Memory.read m a) =
      (lastWrite k a [e]).or ((img[k]?).bind (fun m => Memory.read m a)) := by
  cases e with
  | wr j b v =>
    simp only [Event.onImages, lastWrite, Option.none_or, List.getElem?_modify]
    by_cases hj : j = k
    · subst hj
      by_cases hb : b = a
      · subst hb; simp [List.getElem?_eq_getElem hk, Memory.read_write_same]
      · simp [List.getElem?_eq_getElem hk, Memory.read_write_other _ _ _ _ (Ne.symm hb), hb]
    · simp [hj]
  | lock _ => simp [Event.onImages, lastWrite]
  | unlock _ => simp [Event.onImages, lastWrite]
  | strobe _ _ _ => simp [Event.onImages, lastWrite]
  | warn _ => simp [Event.onImages, lastWrite]

theorem lastWrite_cons (k a : Nat) (e : Event) (es : List Event) :
    lastWrite k a (e :: es) = (lastWrite k a es).or (lastWrite k a [e]) := by
  cases e <;> simp [lastWrite]

theorem lastWrite_append (k a : Nat) (es fs : List Event) :
    lastWrite k a (es ++ fs) = (lastWrite k a fs).or (lastWrite k a es) := by
  induction es with
  | nil => simp [lastWrite]
  | cons e es ih => rw [List.cons_append, lastWrite_cons, ih, lastWrite_cons k a e es, Option.or_assoc]

theorem foldl_onImages_read (es : List Event) (img : List Memory) (k a : Nat) (hk : k < img.length) :
    ((es.foldl Event.onImages img)[k]?).bind (fun m => Memory.read m a) =
      (lastWrite k a es).or ((img[k]?).bind (fun m => Memory.read m a)) := by
  induction es generalizing img with
  | nil => simp [lastWrite]
  | cons e es ih =>
    rw [List.foldl_cons, ih _ (by simpa using hk), onImages_read _ _ _ _ hk, lastWrite_cons k a e es, Option.or_assoc]

/-- Reading one byte after a list of events: the last write to it, else the byte before. -/
theorem State.emit_imgByte (s : State) (es : List Event) (k a : Nat) (hk : k < s.img.length) :
    (s.emit es).imgByte k a = (lastWrite k a es).or (s.imgByte k a) :=
  foldl_onImages_read es s.img k a hk

/-- A byte no event writes is unchanged. -/
theorem State.emit_imgByte_of_none (s : State) (es : List Event) (k a : Nat) (h : lastWrite k a es = none) :
    (s.emit es).imgByte k a = s.imgByte k a := by
  by_cases hk : k < s.img.length
  · rw [State.emit_imgByte s es k a hk, h]; rfl
  · have h1 : s.img[k]? = none := by simp; omega
    have h2 : (s.emit es).img[k]? = none := by
      have : (s.emit es).img.length = s.img.length := foldl_onImages_length es s.img
      simp; omega
    simp [State.imgByte, h1, h2]

/-! ### Brackets and locks -/

theorem foldl_bracketStep_none (es : List Event) : es.foldl bracketStep none = none := by
  induction es with
  | nil => rfl
  | cons e es ih => cases e <;> simpa [bracketStep] using ih

/-- Events that stand inside a bracket of chip `k`: its writes and strobes. -/
def inside (k : Nat) (e : Event) : Prop := bracketStep (some (some k)) e = some (some k)

theorem foldl_inside {k : Nat} {es : List Event} (h : ∀ e ∈ es, inside k e) :
    es.foldl bracketStep (some (some k)) = some (some k) := by
  induction es with
  | nil => rfl
  | cons e es ih =>
    rw [List.foldl_cons, h e (by simp)]
    exact ih (fun x hx => h x (by simp [hx]))

theorem bracketed_nil : bracketed [] := rfl

theorem bracketed_append {es fs : List Event} (h : bracketed es) (h' : bracketed fs) : bracketed (es ++ fs) := by
  unfold bracketed at *; rw [List.foldl_append, h, h']

/-- A bracket around writes and strobes of its own chip is well formed (R74). -/
theorem bracketed_bracket {k : Nat} {body : List Event} (h : ∀ e ∈ body, inside k e) : bracketed (bracket k body) := by
  unfold bracketed bracket
  simp [List.foldl_append, bracketStep, foldl_inside h]

theorem bracketed_flatMap {α : Type} {xs : List α} {f : α → List Event} (h : ∀ x ∈ xs, bracketed (f x)) :
    bracketed (xs.flatMap f) := by
  induction xs with
  | nil => exact bracketed_nil
  | cons x xs ih =>
    rw [List.flatMap_cons]
    exact bracketed_append (h x (by simp)) (ih (fun y hy => h y (by simp [hy])))

/-- The locks after a well-bracketed list of events are free if they were free (R46, R74). -/
theorem onLocks_bracketed (es : List Event) (l : List Bool) (st : Option Nat)
    (hst : match st with
      | none => ∀ b ∈ l, b = false
      | some k => ∀ (i : Nat) (b : Bool), l[i]? = some b → i ≠ k → b = false)
    (h : es.foldl bracketStep (some st) = some none) : ∀ b ∈ es.foldl Event.onLocks l, b = false := by
  induction es generalizing l st with
  | nil =>
    simp only [List.foldl_nil, Option.some.injEq] at h
    subst h; exact hst
  | cons e es ih =>
    rw [List.foldl_cons] at h
    cases st with
    | none =>
      cases e with
      | lock k =>
        refine ih (l.set k true) (some k) ?_ h
        intro i b hb hi
        rw [List.getElem?_set_ne (Ne.symm hi)] at hb
        exact hst b (List.mem_of_getElem? hb)
      | warn w => exact ih l none hst h
      | unlock k => simp [bracketStep, foldl_bracketStep_none] at h
      | wr k a v => simp [bracketStep, foldl_bracketStep_none] at h
      | strobe k kd i => simp [bracketStep, foldl_bracketStep_none] at h
    | some k =>
      cases e with
      | lock k => simp [bracketStep, foldl_bracketStep_none] at h
      | warn w => simp [bracketStep, foldl_bracketStep_none] at h
      | unlock j =>
        by_cases hj : j = k
        · subst hj
          simp only [bracketStep, if_true] at h
          refine ih (l.set j false) none ?_ h
          intro b hb
          obtain ⟨i, hi⟩ := List.mem_iff_getElem?.mp hb
          by_cases hij : i = j
          · subst hij
            rw [List.getElem?_set] at hi
            simp only [if_true] at hi
            split at hi
            · simpa using hi.symm
            · cases hi
          · rw [List.getElem?_set_ne (Ne.symm hij)] at hi
            exact hst i b hi hij
        · simp [bracketStep, hj, foldl_bracketStep_none] at h
      | wr j a v =>
        by_cases hj : j = k
        · subst hj; simp only [bracketStep, if_true] at h; exact ih l (some j) hst h
        · simp [bracketStep, hj, foldl_bracketStep_none] at h
      | strobe j kd i =>
        by_cases hj : j = k
        · subst hj; simp only [bracketStep, if_true] at h; exact ih l (some j) hst h
        · simp [bracketStep, hj, foldl_bracketStep_none] at h

theorem State.emit_unlocked {s : State} {es : List Event} (h : s.Unlocked) (hb : bracketed es) :
    (s.emit es).Unlocked := onLocks_bracketed es s.lock none h hb

end Sys2Proof.Machine
end

