-- ==== Sys2Proof/Laws/State.lean ====
section
/-! SUPPORT. The small lemmas of every state update: one per field per update, true by rfl, and what a channel read gives after it. -/

namespace Sys2Proof.Machine

/-- The events of a sweep over the FM pool, as one list. -/
def voiceEvents (vs : List Voice) (p : Voice → Bool) (ev : Nat → Voice → List Event) : List Event :=
  vs.zipIdx.flatMap (fun (x : Voice × Nat) => if p x.1 then ev x.2 x.1 else [])

/-- The events of a sweep over the drum pool, as one list. -/
def drumEvents (ds : List Drum) (p : Drum → Bool) (ev : Nat → Drum → List Event) : List Event :=
  ds.zipIdx.flatMap (fun (x : Drum × Nat) => if p x.1 then ev x.2 x.1 else [])

/-! ### emit -/

@[simp] theorem State.emit_cfg (s : State) (es : List Event) : (s.emit es).cfg = s.cfg := rfl
@[simp] theorem State.emit_vs (s : State) (es : List Event) : (s.emit es).vs = s.vs := rfl
@[simp] theorem State.emit_ds (s : State) (es : List Event) : (s.emit es).ds = s.ds := rfl
@[simp] theorem State.emit_ch (s : State) (es : List Event) : (s.emit es).ch = s.ch := rfl
@[simp] theorem State.emit_drumset (s : State) (es : List Event) : (s.emit es).drumset = s.drumset := rfl
@[simp] theorem State.emit_tick (s : State) (es : List Event) : (s.emit es).tick = s.tick := rfl
@[simp] theorem State.emit_cur (s : State) (es : List Event) : (s.emit es).cur = s.cur := rfl
@[simp] theorem State.emit_pb (s : State) (es : List Event) : (s.emit es).pb = s.pb := rfl
@[simp] theorem State.emit_po (s : State) (es : List Event) : (s.emit es).po = s.po := rfl
@[simp] theorem State.emit_hp (s : State) (es : List Event) : (s.emit es).hp = s.hp := rfl
@[simp] theorem State.emit_lock (s : State) (es : List Event) : (s.emit es).lock = es.foldl Event.onLocks s.lock := rfl
@[simp] theorem State.emit_img (s : State) (es : List Event) : (s.emit es).img = es.foldl Event.onImages s.img := rfl
@[simp] theorem State.emit_out (s : State) (es : List Event) : (s.emit es).out = s.out ++ es := rfl
@[simp] theorem State.emit_input (s : State) (es : List Event) : (s.emit es).input = s.input := rfl
@[simp] theorem State.emit_replies (s : State) (es : List Event) : (s.emit es).replies = s.replies := rfl
@[simp] theorem State.emit_chan (s : State) (es : List Event) (c' : Chan) : (s.emit es).chan c' = s.chan c' := rfl

/-! ### modChan -/

@[simp] theorem State.modChan_cfg (s : State) (c : Chan) (f : Channel → Channel) : (s.modChan c f).cfg = s.cfg := rfl
@[simp] theorem State.modChan_vs (s : State) (c : Chan) (f : Channel → Channel) : (s.modChan c f).vs = s.vs := rfl
@[simp] theorem State.modChan_ds (s : State) (c : Chan) (f : Channel → Channel) : (s.modChan c f).ds = s.ds := rfl
@[simp] theorem State.modChan_ch (s : State) (c : Chan) (f : Channel → Channel) : (s.modChan c f).ch = s.ch.set c.toNat (f (s.chan c)) c.isLt := rfl
@[simp] theorem State.modChan_drumset (s : State) (c : Chan) (f : Channel → Channel) : (s.modChan c f).drumset = s.drumset := rfl
@[simp] theorem State.modChan_tick (s : State) (c : Chan) (f : Channel → Channel) : (s.modChan c f).tick = s.tick := rfl
@[simp] theorem State.modChan_cur (s : State) (c : Chan) (f : Channel → Channel) : (s.modChan c f).cur = s.cur := rfl
@[simp] theorem State.modChan_pb (s : State) (c : Chan) (f : Channel → Channel) : (s.modChan c f).pb = s.pb := rfl
@[simp] theorem State.modChan_po (s : State) (c : Chan) (f : Channel → Channel) : (s.modChan c f).po = s.po := rfl
@[simp] theorem State.modChan_hp (s : State) (c : Chan) (f : Channel → Channel) : (s.modChan c f).hp = s.hp := rfl
@[simp] theorem State.modChan_lock (s : State) (c : Chan) (f : Channel → Channel) : (s.modChan c f).lock = s.lock := rfl
@[simp] theorem State.modChan_img (s : State) (c : Chan) (f : Channel → Channel) : (s.modChan c f).img = s.img := rfl
@[simp] theorem State.modChan_out (s : State) (c : Chan) (f : Channel → Channel) : (s.modChan c f).out = s.out := rfl
@[simp] theorem State.modChan_input (s : State) (c : Chan) (f : Channel → Channel) : (s.modChan c f).input = s.input := rfl
@[simp] theorem State.modChan_replies (s : State) (c : Chan) (f : Channel → Channel) : (s.modChan c f).replies = s.replies := rfl

/-! ### modVoice -/

@[simp] theorem State.modVoice_cfg (s : State) (i : Nat) (f : Voice → Voice) : (s.modVoice i f).cfg = s.cfg := rfl
@[simp] theorem State.modVoice_vs (s : State) (i : Nat) (f : Voice → Voice) : (s.modVoice i f).vs = s.vs.modify i f := rfl
@[simp] theorem State.modVoice_ds (s : State) (i : Nat) (f : Voice → Voice) : (s.modVoice i f).ds = s.ds := rfl
@[simp] theorem State.modVoice_ch (s : State) (i : Nat) (f : Voice → Voice) : (s.modVoice i f).ch = s.ch := rfl
@[simp] theorem State.modVoice_drumset (s : State) (i : Nat) (f : Voice → Voice) : (s.modVoice i f).drumset = s.drumset := rfl
@[simp] theorem State.modVoice_tick (s : State) (i : Nat) (f : Voice → Voice) : (s.modVoice i f).tick = s.tick := rfl
@[simp] theorem State.modVoice_cur (s : State) (i : Nat) (f : Voice → Voice) : (s.modVoice i f).cur = s.cur := rfl
@[simp] theorem State.modVoice_pb (s : State) (i : Nat) (f : Voice → Voice) : (s.modVoice i f).pb = s.pb := rfl
@[simp] theorem State.modVoice_po (s : State) (i : Nat) (f : Voice → Voice) : (s.modVoice i f).po = s.po := rfl
@[simp] theorem State.modVoice_hp (s : State) (i : Nat) (f : Voice → Voice) : (s.modVoice i f).hp = s.hp := rfl
@[simp] theorem State.modVoice_lock (s : State) (i : Nat) (f : Voice → Voice) : (s.modVoice i f).lock = s.lock := rfl
@[simp] theorem State.modVoice_img (s : State) (i : Nat) (f : Voice → Voice) : (s.modVoice i f).img = s.img := rfl
@[simp] theorem State.modVoice_out (s : State) (i : Nat) (f : Voice → Voice) : (s.modVoice i f).out = s.out := rfl
@[simp] theorem State.modVoice_input (s : State) (i : Nat) (f : Voice → Voice) : (s.modVoice i f).input = s.input := rfl
@[simp] theorem State.modVoice_replies (s : State) (i : Nat) (f : Voice → Voice) : (s.modVoice i f).replies = s.replies := rfl
@[simp] theorem State.modVoice_chan (s : State) (i : Nat) (f : Voice → Voice) (c' : Chan) : (s.modVoice i f).chan c' = s.chan c' := rfl

/-! ### modDrum -/

@[simp] theorem State.modDrum_cfg (s : State) (d : Nat) (f : Drum → Drum) : (s.modDrum d f).cfg = s.cfg := rfl
@[simp] theorem State.modDrum_vs (s : State) (d : Nat) (f : Drum → Drum) : (s.modDrum d f).vs = s.vs := rfl
@[simp] theorem State.modDrum_ds (s : State) (d : Nat) (f : Drum → Drum) : (s.modDrum d f).ds = s.ds.modify d f := rfl
@[simp] theorem State.modDrum_ch (s : State) (d : Nat) (f : Drum → Drum) : (s.modDrum d f).ch = s.ch := rfl
@[simp] theorem State.modDrum_drumset (s : State) (d : Nat) (f : Drum → Drum) : (s.modDrum d f).drumset = s.drumset := rfl
@[simp] theorem State.modDrum_tick (s : State) (d : Nat) (f : Drum → Drum) : (s.modDrum d f).tick = s.tick := rfl
@[simp] theorem State.modDrum_cur (s : State) (d : Nat) (f : Drum → Drum) : (s.modDrum d f).cur = s.cur := rfl
@[simp] theorem State.modDrum_pb (s : State) (d : Nat) (f : Drum → Drum) : (s.modDrum d f).pb = s.pb := rfl
@[simp] theorem State.modDrum_po (s : State) (d : Nat) (f : Drum → Drum) : (s.modDrum d f).po = s.po := rfl
@[simp] theorem State.modDrum_hp (s : State) (d : Nat) (f : Drum → Drum) : (s.modDrum d f).hp = s.hp := rfl
@[simp] theorem State.modDrum_lock (s : State) (d : Nat) (f : Drum → Drum) : (s.modDrum d f).lock = s.lock := rfl
@[simp] theorem State.modDrum_img (s : State) (d : Nat) (f : Drum → Drum) : (s.modDrum d f).img = s.img := rfl
@[simp] theorem State.modDrum_out (s : State) (d : Nat) (f : Drum → Drum) : (s.modDrum d f).out = s.out := rfl
@[simp] theorem State.modDrum_input (s : State) (d : Nat) (f : Drum → Drum) : (s.modDrum d f).input = s.input := rfl
@[simp] theorem State.modDrum_replies (s : State) (d : Nat) (f : Drum → Drum) : (s.modDrum d f).replies = s.replies := rfl
@[simp] theorem State.modDrum_chan (s : State) (d : Nat) (f : Drum → Drum) (c' : Chan) : (s.modDrum d f).chan c' = s.chan c' := rfl

/-! ### sweepVoices -/

@[simp] theorem State.sweepVoices_cfg (s : State) (p : Voice → Bool) (g : Voice → Voice) (ev : Nat → Voice → List Event) : (s.sweepVoices p g ev).cfg = s.cfg := rfl
@[simp] theorem State.sweepVoices_vs (s : State) (p : Voice → Bool) (g : Voice → Voice) (ev : Nat → Voice → List Event) : (s.sweepVoices p g ev).vs = s.vs.map (fun v => if p v then g v else v) := rfl
@[simp] theorem State.sweepVoices_ds (s : State) (p : Voice → Bool) (g : Voice → Voice) (ev : Nat → Voice → List Event) : (s.sweepVoices p g ev).ds = s.ds := rfl
@[simp] theorem State.sweepVoices_ch (s : State) (p : Voice → Bool) (g : Voice → Voice) (ev : Nat → Voice → List Event) : (s.sweepVoices p g ev).ch = s.ch := rfl
@[simp] theorem State.sweepVoices_drumset (s : State) (p : Voice → Bool) (g : Voice → Voice) (ev : Nat → Voice → List Event) : (s.sweepVoices p g ev).drumset = s.drumset := rfl
@[simp] theorem State.sweepVoices_tick (s : State) (p : Voice → Bool) (g : Voice → Voice) (ev : Nat → Voice → List Event) : (s.sweepVoices p g ev).tick = s.tick := rfl
@[simp] theorem State.sweepVoices_cur (s : State) (p : Voice → Bool) (g : Voice → Voice) (ev : Nat → Voice → List Event) : (s.sweepVoices p g ev).cur = s.cur := rfl
@[simp] theorem State.sweepVoices_pb (s : State) (p : Voice → Bool) (g : Voice → Voice) (ev : Nat → Voice → List Event) : (s.sweepVoices p g ev).pb = s.pb := rfl
@[simp] theorem State.sweepVoices_po (s : State) (p : Voice → Bool) (g : Voice → Voice) (ev : Nat → Voice → List Event) : (s.sweepVoices p g ev).po = s.po := rfl
@[simp] theorem State.sweepVoices_hp (s : State) (p : Voice → Bool) (g : Voice → Voice) (ev : Nat → Voice → List Event) : (s.sweepVoices p g ev).hp = s.hp := rfl
@[simp] theorem State.sweepVoices_lock (s : State) (p : Voice → Bool) (g : Voice → Voice) (ev : Nat → Voice → List Event) : (s.sweepVoices p g ev).lock = (voiceEvents s.vs p ev).foldl Event.onLocks s.lock := rfl
@[simp] theorem State.sweepVoices_img (s : State) (p : Voice → Bool) (g : Voice → Voice) (ev : Nat → Voice → List Event) : (s.sweepVoices p g ev).img = (voiceEvents s.vs p ev).foldl Event.onImages s.img := rfl
@[simp] theorem State.sweepVoices_out (s : State) (p : Voice → Bool) (g : Voice → Voice) (ev : Nat → Voice → List Event) : (s.sweepVoices p g ev).out = s.out ++ voiceEvents s.vs p ev := rfl
@[simp] theorem State.sweepVoices_input (s : State) (p : Voice → Bool) (g : Voice → Voice) (ev : Nat → Voice → List Event) : (s.sweepVoices p g ev).input = s.input := rfl
@[simp] theorem State.sweepVoices_replies (s : State) (p : Voice → Bool) (g : Voice → Voice) (ev : Nat → Voice → List Event) : (s.sweepVoices p g ev).replies = s.replies := rfl
@[simp] theorem State.sweepVoices_chan (s : State) (p : Voice → Bool) (g : Voice → Voice) (ev : Nat → Voice → List Event) (c' : Chan) : (s.sweepVoices p g ev).chan c' = s.chan c' := rfl

/-! ### sweepDrums -/

@[simp] theorem State.sweepDrums_cfg (s : State) (p : Drum → Bool) (g : Drum → Drum) (ev : Nat → Drum → List Event) : (s.sweepDrums p g ev).cfg = s.cfg := rfl
@[simp] theorem State.sweepDrums_vs (s : State) (p : Drum → Bool) (g : Drum → Drum) (ev : Nat → Drum → List Event) : (s.sweepDrums p g ev).vs = s.vs := rfl
@[simp] theorem State.sweepDrums_ds (s : State) (p : Drum → Bool) (g : Drum → Drum) (ev : Nat → Drum → List Event) : (s.sweepDrums p g ev).ds = s.ds.map (fun d => if p d then g d else d) := rfl
@[simp] theorem State.sweepDrums_ch (s : State) (p : Drum → Bool) (g : Drum → Drum) (ev : Nat → Drum → List Event) : (s.sweepDrums p g ev).ch = s.ch := rfl
@[simp] theorem State.sweepDrums_drumset (s : State) (p : Drum → Bool) (g : Drum → Drum) (ev : Nat → Drum → List Event) : (s.sweepDrums p g ev).drumset = s.drumset := rfl
@[simp] theorem State.sweepDrums_tick (s : State) (p : Drum → Bool) (g : Drum → Drum) (ev : Nat → Drum → List Event) : (s.sweepDrums p g ev).tick = s.tick := rfl
@[simp] theorem State.sweepDrums_cur (s : State) (p : Drum → Bool) (g : Drum → Drum) (ev : Nat → Drum → List Event) : (s.sweepDrums p g ev).cur = s.cur := rfl
@[simp] theorem State.sweepDrums_pb (s : State) (p : Drum → Bool) (g : Drum → Drum) (ev : Nat → Drum → List Event) : (s.sweepDrums p g ev).pb = s.pb := rfl
@[simp] theorem State.sweepDrums_po (s : State) (p : Drum → Bool) (g : Drum → Drum) (ev : Nat → Drum → List Event) : (s.sweepDrums p g ev).po = s.po := rfl
@[simp] theorem State.sweepDrums_hp (s : State) (p : Drum → Bool) (g : Drum → Drum) (ev : Nat → Drum → List Event) : (s.sweepDrums p g ev).hp = s.hp := rfl
@[simp] theorem State.sweepDrums_lock (s : State) (p : Drum → Bool) (g : Drum → Drum) (ev : Nat → Drum → List Event) : (s.sweepDrums p g ev).lock = (drumEvents s.ds p ev).foldl Event.onLocks s.lock := rfl
@[simp] theorem State.sweepDrums_img (s : State) (p : Drum → Bool) (g : Drum → Drum) (ev : Nat → Drum → List Event) : (s.sweepDrums p g ev).img = (drumEvents s.ds p ev).foldl Event.onImages s.img := rfl
@[simp] theorem State.sweepDrums_out (s : State) (p : Drum → Bool) (g : Drum → Drum) (ev : Nat → Drum → List Event) : (s.sweepDrums p g ev).out = s.out ++ drumEvents s.ds p ev := rfl
@[simp] theorem State.sweepDrums_input (s : State) (p : Drum → Bool) (g : Drum → Drum) (ev : Nat → Drum → List Event) : (s.sweepDrums p g ev).input = s.input := rfl
@[simp] theorem State.sweepDrums_replies (s : State) (p : Drum → Bool) (g : Drum → Drum) (ev : Nat → Drum → List Event) : (s.sweepDrums p g ev).replies = s.replies := rfl
@[simp] theorem State.sweepDrums_chan (s : State) (p : Drum → Bool) (g : Drum → Drum) (ev : Nat → Drum → List Event) (c' : Chan) : (s.sweepDrums p g ev).chan c' = s.chan c' := rfl

/-! ### advanceTick -/

@[simp] theorem State.advanceTick_cfg (s : State) (n : BitVec 64) : (s.advanceTick n).cfg = s.cfg := rfl
@[simp] theorem State.advanceTick_vs (s : State) (n : BitVec 64) : (s.advanceTick n).vs = s.vs := rfl
@[simp] theorem State.advanceTick_ds (s : State) (n : BitVec 64) : (s.advanceTick n).ds = s.ds := rfl
@[simp] theorem State.advanceTick_ch (s : State) (n : BitVec 64) : (s.advanceTick n).ch = s.ch := rfl
@[simp] theorem State.advanceTick_drumset (s : State) (n : BitVec 64) : (s.advanceTick n).drumset = s.drumset := rfl
@[simp] theorem State.advanceTick_tick (s : State) (n : BitVec 64) : (s.advanceTick n).tick = s.tick + n := rfl
@[simp] theorem State.advanceTick_cur (s : State) (n : BitVec 64) : (s.advanceTick n).cur = s.cur := rfl
@[simp] theorem State.advanceTick_pb (s : State) (n : BitVec 64) : (s.advanceTick n).pb = s.pb := rfl
@[simp] theorem State.advanceTick_po (s : State) (n : BitVec 64) : (s.advanceTick n).po = s.po := rfl
@[simp] theorem State.advanceTick_hp (s : State) (n : BitVec 64) : (s.advanceTick n).hp = s.hp := rfl
@[simp] theorem State.advanceTick_lock (s : State) (n : BitVec 64) : (s.advanceTick n).lock = s.lock := rfl
@[simp] theorem State.advanceTick_img (s : State) (n : BitVec 64) : (s.advanceTick n).img = s.img := rfl
@[simp] theorem State.advanceTick_out (s : State) (n : BitVec 64) : (s.advanceTick n).out = s.out := rfl
@[simp] theorem State.advanceTick_input (s : State) (n : BitVec 64) : (s.advanceTick n).input = s.input := rfl
@[simp] theorem State.advanceTick_replies (s : State) (n : BitVec 64) : (s.advanceTick n).replies = s.replies := rfl
@[simp] theorem State.advanceTick_chan (s : State) (n : BitVec 64) (c' : Chan) : (s.advanceTick n).chan c' = s.chan c' := rfl

/-! ### advanceCursor -/

@[simp] theorem State.advanceCursor_cfg (s : State) : (s.advanceCursor).cfg = s.cfg := rfl
@[simp] theorem State.advanceCursor_vs (s : State) : (s.advanceCursor).vs = s.vs := rfl
@[simp] theorem State.advanceCursor_ds (s : State) : (s.advanceCursor).ds = s.ds := rfl
@[simp] theorem State.advanceCursor_ch (s : State) : (s.advanceCursor).ch = s.ch := rfl
@[simp] theorem State.advanceCursor_drumset (s : State) : (s.advanceCursor).drumset = s.drumset := rfl
@[simp] theorem State.advanceCursor_tick (s : State) : (s.advanceCursor).tick = s.tick := rfl
@[simp] theorem State.advanceCursor_cur (s : State) : (s.advanceCursor).cur = (s.cur + 1) % s.cfg.nd := rfl
@[simp] theorem State.advanceCursor_pb (s : State) : (s.advanceCursor).pb = s.pb := rfl
@[simp] theorem State.advanceCursor_po (s : State) : (s.advanceCursor).po = s.po := rfl
@[simp] theorem State.advanceCursor_hp (s : State) : (s.advanceCursor).hp = s.hp := rfl
@[simp] theorem State.advanceCursor_lock (s : State) : (s.advanceCursor).lock = s.lock := rfl
@[simp] theorem State.advanceCursor_img (s : State) : (s.advanceCursor).img = s.img := rfl
@[simp] theorem State.advanceCursor_out (s : State) : (s.advanceCursor).out = s.out := rfl
@[simp] theorem State.advanceCursor_input (s : State) : (s.advanceCursor).input = s.input := rfl
@[simp] theorem State.advanceCursor_replies (s : State) : (s.advanceCursor).replies = s.replies := rfl
@[simp] theorem State.advanceCursor_chan (s : State) (c' : Chan) : (s.advanceCursor).chan c' = s.chan c' := rfl

/-! ### modLive -/

@[simp] theorem State.modLive_cfg (s : State) (b : Nat) (p : Data) (f : Patch → Patch) : (s.modLive b p f).cfg = s.cfg := rfl
@[simp] theorem State.modLive_vs (s : State) (b : Nat) (p : Data) (f : Patch → Patch) : (s.modLive b p f).vs = s.vs := rfl
@[simp] theorem State.modLive_ds (s : State) (b : Nat) (p : Data) (f : Patch → Patch) : (s.modLive b p f).ds = s.ds := rfl
@[simp] theorem State.modLive_ch (s : State) (b : Nat) (p : Data) (f : Patch → Patch) : (s.modLive b p f).ch = s.ch := rfl
@[simp] theorem State.modLive_drumset (s : State) (b : Nat) (p : Data) (f : Patch → Patch) : (s.modLive b p f).drumset = s.drumset := rfl
@[simp] theorem State.modLive_tick (s : State) (b : Nat) (p : Data) (f : Patch → Patch) : (s.modLive b p f).tick = s.tick := rfl
@[simp] theorem State.modLive_cur (s : State) (b : Nat) (p : Data) (f : Patch → Patch) : (s.modLive b p f).cur = s.cur := rfl
@[simp] theorem State.modLive_pb (s : State) (b : Nat) (p : Data) (f : Patch → Patch) : (s.modLive b p f).pb = s.pb.modify b (fun k => k.set p.toNat (f (k[p.toNat]'(p.isLt))) p.isLt) := rfl
@[simp] theorem State.modLive_po (s : State) (b : Nat) (p : Data) (f : Patch → Patch) : (s.modLive b p f).po = s.po := rfl
@[simp] theorem State.modLive_hp (s : State) (b : Nat) (p : Data) (f : Patch → Patch) : (s.modLive b p f).hp = s.hp := rfl
@[simp] theorem State.modLive_lock (s : State) (b : Nat) (p : Data) (f : Patch → Patch) : (s.modLive b p f).lock = s.lock := rfl
@[simp] theorem State.modLive_img (s : State) (b : Nat) (p : Data) (f : Patch → Patch) : (s.modLive b p f).img = s.img := rfl
@[simp] theorem State.modLive_out (s : State) (b : Nat) (p : Data) (f : Patch → Patch) : (s.modLive b p f).out = s.out := rfl
@[simp] theorem State.modLive_input (s : State) (b : Nat) (p : Data) (f : Patch → Patch) : (s.modLive b p f).input = s.input := rfl
@[simp] theorem State.modLive_replies (s : State) (b : Nat) (p : Data) (f : Patch → Patch) : (s.modLive b p f).replies = s.replies := rfl
@[simp] theorem State.modLive_chan (s : State) (b : Nat) (p : Data) (f : Patch → Patch) (c' : Chan) : (s.modLive b p f).chan c' = s.chan c' := rfl

/-! ### modOriginal -/

@[simp] theorem State.modOriginal_cfg (s : State) (b : Nat) (p : Data) (f : Patch → Patch) : (s.modOriginal b p f).cfg = s.cfg := rfl
@[simp] theorem State.modOriginal_vs (s : State) (b : Nat) (p : Data) (f : Patch → Patch) : (s.modOriginal b p f).vs = s.vs := rfl
@[simp] theorem State.modOriginal_ds (s : State) (b : Nat) (p : Data) (f : Patch → Patch) : (s.modOriginal b p f).ds = s.ds := rfl
@[simp] theorem State.modOriginal_ch (s : State) (b : Nat) (p : Data) (f : Patch → Patch) : (s.modOriginal b p f).ch = s.ch := rfl
@[simp] theorem State.modOriginal_drumset (s : State) (b : Nat) (p : Data) (f : Patch → Patch) : (s.modOriginal b p f).drumset = s.drumset := rfl
@[simp] theorem State.modOriginal_tick (s : State) (b : Nat) (p : Data) (f : Patch → Patch) : (s.modOriginal b p f).tick = s.tick := rfl
@[simp] theorem State.modOriginal_cur (s : State) (b : Nat) (p : Data) (f : Patch → Patch) : (s.modOriginal b p f).cur = s.cur := rfl
@[simp] theorem State.modOriginal_pb (s : State) (b : Nat) (p : Data) (f : Patch → Patch) : (s.modOriginal b p f).pb = s.pb := rfl
@[simp] theorem State.modOriginal_po (s : State) (b : Nat) (p : Data) (f : Patch → Patch) : (s.modOriginal b p f).po = s.po.modify b (fun k => k.set p.toNat (f (k[p.toNat]'(p.isLt))) p.isLt) := rfl
@[simp] theorem State.modOriginal_hp (s : State) (b : Nat) (p : Data) (f : Patch → Patch) : (s.modOriginal b p f).hp = s.hp := rfl
@[simp] theorem State.modOriginal_lock (s : State) (b : Nat) (p : Data) (f : Patch → Patch) : (s.modOriginal b p f).lock = s.lock := rfl
@[simp] theorem State.modOriginal_img (s : State) (b : Nat) (p : Data) (f : Patch → Patch) : (s.modOriginal b p f).img = s.img := rfl
@[simp] theorem State.modOriginal_out (s : State) (b : Nat) (p : Data) (f : Patch → Patch) : (s.modOriginal b p f).out = s.out := rfl
@[simp] theorem State.modOriginal_input (s : State) (b : Nat) (p : Data) (f : Patch → Patch) : (s.modOriginal b p f).input = s.input := rfl
@[simp] theorem State.modOriginal_replies (s : State) (b : Nat) (p : Data) (f : Patch → Patch) : (s.modOriginal b p f).replies = s.replies := rfl
@[simp] theorem State.modOriginal_chan (s : State) (b : Nat) (p : Data) (f : Patch → Patch) (c' : Chan) : (s.modOriginal b p f).chan c' = s.chan c' := rfl

/-! ### clearBank -/

@[simp] theorem State.clearBank_cfg (s : State) (b : Nat) : (s.clearBank b).cfg = s.cfg := rfl
@[simp] theorem State.clearBank_vs (s : State) (b : Nat) : (s.clearBank b).vs = s.vs := rfl
@[simp] theorem State.clearBank_ds (s : State) (b : Nat) : (s.clearBank b).ds = s.ds := rfl
@[simp] theorem State.clearBank_ch (s : State) (b : Nat) : (s.clearBank b).ch = s.ch := rfl
@[simp] theorem State.clearBank_drumset (s : State) (b : Nat) : (s.clearBank b).drumset = s.drumset := rfl
@[simp] theorem State.clearBank_tick (s : State) (b : Nat) : (s.clearBank b).tick = s.tick := rfl
@[simp] theorem State.clearBank_cur (s : State) (b : Nat) : (s.clearBank b).cur = s.cur := rfl
@[simp] theorem State.clearBank_pb (s : State) (b : Nat) : (s.clearBank b).pb = s.pb.modify b (fun _ => Vector.replicate 128 Patch.blank) := rfl
@[simp] theorem State.clearBank_po (s : State) (b : Nat) : (s.clearBank b).po = s.po.modify b (fun _ => Vector.replicate 128 Patch.blank) := rfl
@[simp] theorem State.clearBank_hp (s : State) (b : Nat) : (s.clearBank b).hp = s.hp := rfl
@[simp] theorem State.clearBank_lock (s : State) (b : Nat) : (s.clearBank b).lock = s.lock := rfl
@[simp] theorem State.clearBank_img (s : State) (b : Nat) : (s.clearBank b).img = s.img := rfl
@[simp] theorem State.clearBank_out (s : State) (b : Nat) : (s.clearBank b).out = s.out := rfl
@[simp] theorem State.clearBank_input (s : State) (b : Nat) : (s.clearBank b).input = s.input := rfl
@[simp] theorem State.clearBank_replies (s : State) (b : Nat) : (s.clearBank b).replies = s.replies := rfl
@[simp] theorem State.clearBank_chan (s : State) (b : Nat) (c' : Chan) : (s.clearBank b).chan c' = s.chan c' := rfl

/-! ### setPointer -/

@[simp] theorem State.setPointer_cfg (s : State) (x : Option (Data × Data)) : (s.setPointer x).cfg = s.cfg := rfl
@[simp] theorem State.setPointer_vs (s : State) (x : Option (Data × Data)) : (s.setPointer x).vs = s.vs := rfl
@[simp] theorem State.setPointer_ds (s : State) (x : Option (Data × Data)) : (s.setPointer x).ds = s.ds := rfl
@[simp] theorem State.setPointer_ch (s : State) (x : Option (Data × Data)) : (s.setPointer x).ch = s.ch := rfl
@[simp] theorem State.setPointer_drumset (s : State) (x : Option (Data × Data)) : (s.setPointer x).drumset = s.drumset := rfl
@[simp] theorem State.setPointer_tick (s : State) (x : Option (Data × Data)) : (s.setPointer x).tick = s.tick := rfl
@[simp] theorem State.setPointer_cur (s : State) (x : Option (Data × Data)) : (s.setPointer x).cur = s.cur := rfl
@[simp] theorem State.setPointer_pb (s : State) (x : Option (Data × Data)) : (s.setPointer x).pb = s.pb := rfl
@[simp] theorem State.setPointer_po (s : State) (x : Option (Data × Data)) : (s.setPointer x).po = s.po := rfl
@[simp] theorem State.setPointer_hp (s : State) (x : Option (Data × Data)) : (s.setPointer x).hp = x := rfl
@[simp] theorem State.setPointer_lock (s : State) (x : Option (Data × Data)) : (s.setPointer x).lock = s.lock := rfl
@[simp] theorem State.setPointer_img (s : State) (x : Option (Data × Data)) : (s.setPointer x).img = s.img := rfl
@[simp] theorem State.setPointer_out (s : State) (x : Option (Data × Data)) : (s.setPointer x).out = s.out := rfl
@[simp] theorem State.setPointer_input (s : State) (x : Option (Data × Data)) : (s.setPointer x).input = s.input := rfl
@[simp] theorem State.setPointer_replies (s : State) (x : Option (Data × Data)) : (s.setPointer x).replies = s.replies := rfl
@[simp] theorem State.setPointer_chan (s : State) (x : Option (Data × Data)) (c' : Chan) : (s.setPointer x).chan c' = s.chan c' := rfl

/-! ### answer -/

@[simp] theorem State.answer_cfg (s : State) (r : PatchReply) : (s.answer r).cfg = s.cfg := rfl
@[simp] theorem State.answer_vs (s : State) (r : PatchReply) : (s.answer r).vs = s.vs := rfl
@[simp] theorem State.answer_ds (s : State) (r : PatchReply) : (s.answer r).ds = s.ds := rfl
@[simp] theorem State.answer_ch (s : State) (r : PatchReply) : (s.answer r).ch = s.ch := rfl
@[simp] theorem State.answer_drumset (s : State) (r : PatchReply) : (s.answer r).drumset = s.drumset := rfl
@[simp] theorem State.answer_tick (s : State) (r : PatchReply) : (s.answer r).tick = s.tick := rfl
@[simp] theorem State.answer_cur (s : State) (r : PatchReply) : (s.answer r).cur = s.cur := rfl
@[simp] theorem State.answer_pb (s : State) (r : PatchReply) : (s.answer r).pb = s.pb := rfl
@[simp] theorem State.answer_po (s : State) (r : PatchReply) : (s.answer r).po = s.po := rfl
@[simp] theorem State.answer_hp (s : State) (r : PatchReply) : (s.answer r).hp = s.hp := rfl
@[simp] theorem State.answer_lock (s : State) (r : PatchReply) : (s.answer r).lock = s.lock := rfl
@[simp] theorem State.answer_img (s : State) (r : PatchReply) : (s.answer r).img = s.img := rfl
@[simp] theorem State.answer_out (s : State) (r : PatchReply) : (s.answer r).out = s.out := rfl
@[simp] theorem State.answer_input (s : State) (r : PatchReply) : (s.answer r).input = s.input := rfl
@[simp] theorem State.answer_replies (s : State) (r : PatchReply) : (s.answer r).replies = s.replies ++ [r] := rfl
@[simp] theorem State.answer_chan (s : State) (r : PatchReply) (c' : Chan) : (s.answer r).chan c' = s.chan c' := rfl

/-! ### present -/

@[simp] theorem State.present_cfg (s : State) (x : PortWord) : (s.present x).cfg = s.cfg := rfl
@[simp] theorem State.present_vs (s : State) (x : PortWord) : (s.present x).vs = s.vs := rfl
@[simp] theorem State.present_ds (s : State) (x : PortWord) : (s.present x).ds = s.ds := rfl
@[simp] theorem State.present_ch (s : State) (x : PortWord) : (s.present x).ch = s.ch := rfl
@[simp] theorem State.present_drumset (s : State) (x : PortWord) : (s.present x).drumset = s.drumset := rfl
@[simp] theorem State.present_tick (s : State) (x : PortWord) : (s.present x).tick = s.tick := rfl
@[simp] theorem State.present_cur (s : State) (x : PortWord) : (s.present x).cur = s.cur := rfl
@[simp] theorem State.present_pb (s : State) (x : PortWord) : (s.present x).pb = s.pb := rfl
@[simp] theorem State.present_po (s : State) (x : PortWord) : (s.present x).po = s.po := rfl
@[simp] theorem State.present_hp (s : State) (x : PortWord) : (s.present x).hp = s.hp := rfl
@[simp] theorem State.present_lock (s : State) (x : PortWord) : (s.present x).lock = s.lock := rfl
@[simp] theorem State.present_img (s : State) (x : PortWord) : (s.present x).img = s.img := rfl
@[simp] theorem State.present_out (s : State) (x : PortWord) : (s.present x).out = s.out := rfl
@[simp] theorem State.present_input (s : State) (x : PortWord) : (s.present x).input = x :: s.input := rfl
@[simp] theorem State.present_replies (s : State) (x : PortWord) : (s.present x).replies = s.replies := rfl
@[simp] theorem State.present_chan (s : State) (x : PortWord) (c' : Chan) : (s.present x).chan c' = s.chan c' := rfl

/-! ### feed -/

@[simp] theorem State.feed_cfg (s : State) (ws : List PortWord) : (s.feed ws).cfg = s.cfg := rfl
@[simp] theorem State.feed_vs (s : State) (ws : List PortWord) : (s.feed ws).vs = s.vs := rfl
@[simp] theorem State.feed_ds (s : State) (ws : List PortWord) : (s.feed ws).ds = s.ds := rfl
@[simp] theorem State.feed_ch (s : State) (ws : List PortWord) : (s.feed ws).ch = s.ch := rfl
@[simp] theorem State.feed_drumset (s : State) (ws : List PortWord) : (s.feed ws).drumset = s.drumset := rfl
@[simp] theorem State.feed_tick (s : State) (ws : List PortWord) : (s.feed ws).tick = s.tick := rfl
@[simp] theorem State.feed_cur (s : State) (ws : List PortWord) : (s.feed ws).cur = s.cur := rfl
@[simp] theorem State.feed_pb (s : State) (ws : List PortWord) : (s.feed ws).pb = s.pb := rfl
@[simp] theorem State.feed_po (s : State) (ws : List PortWord) : (s.feed ws).po = s.po := rfl
@[simp] theorem State.feed_hp (s : State) (ws : List PortWord) : (s.feed ws).hp = s.hp := rfl
@[simp] theorem State.feed_lock (s : State) (ws : List PortWord) : (s.feed ws).lock = s.lock := rfl
@[simp] theorem State.feed_img (s : State) (ws : List PortWord) : (s.feed ws).img = s.img := rfl
@[simp] theorem State.feed_out (s : State) (ws : List PortWord) : (s.feed ws).out = s.out := rfl
@[simp] theorem State.feed_input (s : State) (ws : List PortWord) : (s.feed ws).input = s.input ++ ws := rfl
@[simp] theorem State.feed_replies (s : State) (ws : List PortWord) : (s.feed ws).replies = s.replies := rfl
@[simp] theorem State.feed_chan (s : State) (ws : List PortWord) (c' : Chan) : (s.feed ws).chan c' = s.chan c' := rfl

/-! ### setDrumset -/

@[simp] theorem State.setDrumset_cfg (s : State) (x : BitVec 16) : (s.setDrumset x).cfg = s.cfg := rfl
@[simp] theorem State.setDrumset_vs (s : State) (x : BitVec 16) : (s.setDrumset x).vs = s.vs := rfl
@[simp] theorem State.setDrumset_ds (s : State) (x : BitVec 16) : (s.setDrumset x).ds = s.ds := rfl
@[simp] theorem State.setDrumset_ch (s : State) (x : BitVec 16) : (s.setDrumset x).ch = s.ch := rfl
@[simp] theorem State.setDrumset_drumset (s : State) (x : BitVec 16) : (s.setDrumset x).drumset = x ||| 0x0200 := rfl
@[simp] theorem State.setDrumset_tick (s : State) (x : BitVec 16) : (s.setDrumset x).tick = s.tick := rfl
@[simp] theorem State.setDrumset_cur (s : State) (x : BitVec 16) : (s.setDrumset x).cur = s.cur := rfl
@[simp] theorem State.setDrumset_pb (s : State) (x : BitVec 16) : (s.setDrumset x).pb = s.pb := rfl
@[simp] theorem State.setDrumset_po (s : State) (x : BitVec 16) : (s.setDrumset x).po = s.po := rfl
@[simp] theorem State.setDrumset_hp (s : State) (x : BitVec 16) : (s.setDrumset x).hp = s.hp := rfl
@[simp] theorem State.setDrumset_lock (s : State) (x : BitVec 16) : (s.setDrumset x).lock = s.lock := rfl
@[simp] theorem State.setDrumset_img (s : State) (x : BitVec 16) : (s.setDrumset x).img = s.img := rfl
@[simp] theorem State.setDrumset_out (s : State) (x : BitVec 16) : (s.setDrumset x).out = s.out := rfl
@[simp] theorem State.setDrumset_input (s : State) (x : BitVec 16) : (s.setDrumset x).input = s.input := rfl
@[simp] theorem State.setDrumset_replies (s : State) (x : BitVec 16) : (s.setDrumset x).replies = s.replies := rfl
@[simp] theorem State.setDrumset_chan (s : State) (x : BitVec 16) (c' : Chan) : (s.setDrumset x).chan c' = s.chan c' := rfl

/-! ### clearDrumset -/

@[simp] theorem State.clearDrumset_cfg (s : State) : (s.clearDrumset).cfg = s.cfg := rfl
@[simp] theorem State.clearDrumset_vs (s : State) : (s.clearDrumset).vs = s.vs := rfl
@[simp] theorem State.clearDrumset_ds (s : State) : (s.clearDrumset).ds = s.ds := rfl
@[simp] theorem State.clearDrumset_ch (s : State) : (s.clearDrumset).ch = s.ch := rfl
@[simp] theorem State.clearDrumset_drumset (s : State) : (s.clearDrumset).drumset = 0 ||| 0x0200 := rfl
@[simp] theorem State.clearDrumset_tick (s : State) : (s.clearDrumset).tick = s.tick := rfl
@[simp] theorem State.clearDrumset_cur (s : State) : (s.clearDrumset).cur = s.cur := rfl
@[simp] theorem State.clearDrumset_pb (s : State) : (s.clearDrumset).pb = s.pb := rfl
@[simp] theorem State.clearDrumset_po (s : State) : (s.clearDrumset).po = s.po := rfl
@[simp] theorem State.clearDrumset_hp (s : State) : (s.clearDrumset).hp = s.hp := rfl
@[simp] theorem State.clearDrumset_lock (s : State) : (s.clearDrumset).lock = s.lock := rfl
@[simp] theorem State.clearDrumset_img (s : State) : (s.clearDrumset).img = s.img := rfl
@[simp] theorem State.clearDrumset_out (s : State) : (s.clearDrumset).out = s.out := rfl
@[simp] theorem State.clearDrumset_input (s : State) : (s.clearDrumset).input = s.input := rfl
@[simp] theorem State.clearDrumset_replies (s : State) : (s.clearDrumset).replies = s.replies := rfl
@[simp] theorem State.clearDrumset_chan (s : State) (c' : Chan) : (s.clearDrumset).chan c' = s.chan c' := rfl

/-! ### addDrumChan -/

@[simp] theorem State.addDrumChan_cfg (s : State) (c : Chan) : (s.addDrumChan c).cfg = s.cfg := rfl
@[simp] theorem State.addDrumChan_vs (s : State) (c : Chan) : (s.addDrumChan c).vs = s.vs := rfl
@[simp] theorem State.addDrumChan_ds (s : State) (c : Chan) : (s.addDrumChan c).ds = s.ds := rfl
@[simp] theorem State.addDrumChan_ch (s : State) (c : Chan) : (s.addDrumChan c).ch = s.ch := rfl
@[simp] theorem State.addDrumChan_drumset (s : State) (c : Chan) : (s.addDrumChan c).drumset = (s.drumset ||| (1#16 <<< c.toNat)) ||| 0x0200 := rfl
@[simp] theorem State.addDrumChan_tick (s : State) (c : Chan) : (s.addDrumChan c).tick = s.tick := rfl
@[simp] theorem State.addDrumChan_cur (s : State) (c : Chan) : (s.addDrumChan c).cur = s.cur := rfl
@[simp] theorem State.addDrumChan_pb (s : State) (c : Chan) : (s.addDrumChan c).pb = s.pb := rfl
@[simp] theorem State.addDrumChan_po (s : State) (c : Chan) : (s.addDrumChan c).po = s.po := rfl
@[simp] theorem State.addDrumChan_hp (s : State) (c : Chan) : (s.addDrumChan c).hp = s.hp := rfl
@[simp] theorem State.addDrumChan_lock (s : State) (c : Chan) : (s.addDrumChan c).lock = s.lock := rfl
@[simp] theorem State.addDrumChan_img (s : State) (c : Chan) : (s.addDrumChan c).img = s.img := rfl
@[simp] theorem State.addDrumChan_out (s : State) (c : Chan) : (s.addDrumChan c).out = s.out := rfl
@[simp] theorem State.addDrumChan_input (s : State) (c : Chan) : (s.addDrumChan c).input = s.input := rfl
@[simp] theorem State.addDrumChan_replies (s : State) (c : Chan) : (s.addDrumChan c).replies = s.replies := rfl
@[simp] theorem State.addDrumChan_chan (s : State) (c : Chan) (c' : Chan) : (s.addDrumChan c).chan c' = s.chan c' := rfl

/-! ### resetChannels -/

@[simp] theorem State.resetChannels_cfg (s : State) : (s.resetChannels).cfg = s.cfg := rfl
@[simp] theorem State.resetChannels_vs (s : State) : (s.resetChannels).vs = s.vs := rfl
@[simp] theorem State.resetChannels_ds (s : State) : (s.resetChannels).ds = s.ds := rfl
@[simp] theorem State.resetChannels_ch (s : State) : (s.resetChannels).ch = Vector.replicate 16 Channel.atReset := rfl
@[simp] theorem State.resetChannels_drumset (s : State) : (s.resetChannels).drumset = s.drumset := rfl
@[simp] theorem State.resetChannels_tick (s : State) : (s.resetChannels).tick = s.tick := rfl
@[simp] theorem State.resetChannels_cur (s : State) : (s.resetChannels).cur = s.cur := rfl
@[simp] theorem State.resetChannels_pb (s : State) : (s.resetChannels).pb = s.pb := rfl
@[simp] theorem State.resetChannels_po (s : State) : (s.resetChannels).po = s.po := rfl
@[simp] theorem State.resetChannels_hp (s : State) : (s.resetChannels).hp = s.hp := rfl
@[simp] theorem State.resetChannels_lock (s : State) : (s.resetChannels).lock = s.lock := rfl
@[simp] theorem State.resetChannels_img (s : State) : (s.resetChannels).img = s.img := rfl
@[simp] theorem State.resetChannels_out (s : State) : (s.resetChannels).out = s.out := rfl
@[simp] theorem State.resetChannels_input (s : State) : (s.resetChannels).input = s.input := rfl
@[simp] theorem State.resetChannels_replies (s : State) : (s.resetChannels).replies = s.replies := rfl

/-! ### restorePatches -/

@[simp] theorem State.restorePatches_cfg (s : State) : (s.restorePatches).cfg = s.cfg := rfl
@[simp] theorem State.restorePatches_vs (s : State) : (s.restorePatches).vs = s.vs := rfl
@[simp] theorem State.restorePatches_ds (s : State) : (s.restorePatches).ds = s.ds := rfl
@[simp] theorem State.restorePatches_ch (s : State) : (s.restorePatches).ch = s.ch := rfl
@[simp] theorem State.restorePatches_drumset (s : State) : (s.restorePatches).drumset = s.drumset := rfl
@[simp] theorem State.restorePatches_tick (s : State) : (s.restorePatches).tick = s.tick := rfl
@[simp] theorem State.restorePatches_cur (s : State) : (s.restorePatches).cur = s.cur := rfl
@[simp] theorem State.restorePatches_pb (s : State) : (s.restorePatches).pb = s.po := rfl
@[simp] theorem State.restorePatches_po (s : State) : (s.restorePatches).po = s.po := rfl
@[simp] theorem State.restorePatches_hp (s : State) : (s.restorePatches).hp = s.hp := rfl
@[simp] theorem State.restorePatches_lock (s : State) : (s.restorePatches).lock = s.lock := rfl
@[simp] theorem State.restorePatches_img (s : State) : (s.restorePatches).img = s.img := rfl
@[simp] theorem State.restorePatches_out (s : State) : (s.restorePatches).out = s.out := rfl
@[simp] theorem State.restorePatches_input (s : State) : (s.restorePatches).input = s.input := rfl
@[simp] theorem State.restorePatches_replies (s : State) : (s.restorePatches).replies = s.replies := rfl
@[simp] theorem State.restorePatches_chan (s : State) (c' : Chan) : (s.restorePatches).chan c' = s.chan c' := rfl

/-! ### Channel reads after a channel write -/

theorem State.modChan_chan (s : State) (c c' : Chan) (f : Channel → Channel) :
    (s.modChan c f).chan c' = if c' = c then f (s.chan c) else s.chan c' := by
  unfold State.chan State.modChan
  by_cases h : c' = c
  · subst h; simp [State.chan]
  · have : c.toNat ≠ c'.toNat := fun e => h (BitVec.eq_of_toNat_eq e.symm)
    simp [h, Vector.getElem_set_ne, this, State.chan]

@[simp] theorem State.modChan_chan_same (s : State) (c : Chan) (f : Channel → Channel) :
    (s.modChan c f).chan c = f (s.chan c) := by simp [State.modChan_chan]

@[simp] theorem State.modChan_modChan (s : State) (c : Chan) (f g : Channel → Channel) :
    (s.modChan c f).modChan c g = s.modChan c (fun x => g (f x)) := by
  have h : (s.modChan c f).chan c = f (s.chan c) := State.modChan_chan_same s c f
  simp only [State.modChan] at h ⊢
  rw [h]; simp

@[simp] theorem State.resetChannels_chan (s : State) (c : Chan) : s.resetChannels.chan c = Channel.atReset := by
  unfold State.chan; simp

@[simp] theorem State.emit_nil (s : State) : s.emit [] = s := by cases s; simp [State.emit]

theorem State.emit_emit (s : State) (a b : List Event) : (s.emit a).emit b = s.emit (a ++ b) := by
  simp [State.emit, List.foldl_append, List.append_assoc]

/-! ### Controller reads after a controller write -/

theorem Channel.setCtrl_ctrl (x : Channel) (i j v : Data) :
    (x.setCtrl i v).ctrl j = if j = i then v else x.ctrl j := by
  unfold Channel.ctrl Channel.setCtrl
  by_cases h : j = i
  · subst h; simp
  · have : i.toNat ≠ j.toNat := fun e => h (BitVec.eq_of_toNat_eq e.symm)
    simp [h, Vector.getElem_set_ne, this]

@[simp] theorem Channel.setCtrl_prog (x : Channel) (i v : Data) : (x.setCtrl i v).prog = x.prog := rfl
@[simp] theorem Channel.setCtrl_bank (x : Channel) (i v : Data) : (x.setCtrl i v).bank = x.bank := rfl
@[simp] theorem Channel.setCtrl_bend (x : Channel) (i v : Data) : (x.setCtrl i v).bend = x.bend := rfl
@[simp] theorem Channel.setCtrl_brange (x : Channel) (i v : Data) : (x.setCtrl i v).brange = x.brange := rfl
@[simp] theorem Channel.setCtrl_coarse (x : Channel) (i v : Data) : (x.setCtrl i v).coarse = x.coarse := rfl
@[simp] theorem Channel.setCtrl_fine (x : Channel) (i v : Data) : (x.setCtrl i v).fine = x.fine := rfl
@[simp] theorem Channel.setCtrl_kshift (x : Channel) (i v : Data) : (x.setCtrl i v).kshift = x.kshift := rfl
@[simp] theorem Channel.setCtrl_sus (x : Channel) (i v : Data) : (x.setCtrl i v).sus = x.sus := rfl
@[simp] theorem Channel.setCtrl_held (x : Channel) (i v : Data) : (x.setCtrl i v).held = x.held := rfl
@[simp] theorem Channel.setCtrl_rpnMsb (x : Channel) (i v : Data) : (x.setCtrl i v).rpnMsb = x.rpnMsb := rfl
@[simp] theorem Channel.setCtrl_rpnLsb (x : Channel) (i v : Data) : (x.setCtrl i v).rpnLsb = x.rpnLsb := rfl
@[simp] theorem Channel.hold_prog (x : Channel) (n : Data) : (x.hold n).prog = x.prog := rfl
@[simp] theorem Channel.hold_bank (x : Channel) (n : Data) : (x.hold n).bank = x.bank := rfl
@[simp] theorem Channel.hold_bend (x : Channel) (n : Data) : (x.hold n).bend = x.bend := rfl
@[simp] theorem Channel.hold_brange (x : Channel) (n : Data) : (x.hold n).brange = x.brange := rfl
@[simp] theorem Channel.hold_coarse (x : Channel) (n : Data) : (x.hold n).coarse = x.coarse := rfl
@[simp] theorem Channel.hold_fine (x : Channel) (n : Data) : (x.hold n).fine = x.fine := rfl
@[simp] theorem Channel.hold_kshift (x : Channel) (n : Data) : (x.hold n).kshift = x.kshift := rfl
@[simp] theorem Channel.hold_sus (x : Channel) (n : Data) : (x.hold n).sus = x.sus := rfl
@[simp] theorem Channel.hold_rpnMsb (x : Channel) (n : Data) : (x.hold n).rpnMsb = x.rpnMsb := rfl
@[simp] theorem Channel.hold_rpnLsb (x : Channel) (n : Data) : (x.hold n).rpnLsb = x.rpnLsb := rfl
@[simp] theorem Channel.hold_cc (x : Channel) (n : Data) : (x.hold n).cc = x.cc := rfl
@[simp] theorem Channel.hold_held (x : Channel) (n : Data) : (x.hold n).held = x.held ||| (1#128 <<< n.toNat) := rfl
@[simp] theorem Voice.freed_chan (v : Voice) : v.freed.chan = v.chan := rfl
@[simp] theorem Voice.freed_vel (v : Voice) : v.freed.vel = v.vel := rfl
@[simp] theorem Voice.freed_vol (v : Voice) : v.freed.vol = v.vol := rfl
@[simp] theorem Voice.freed_last (v : Voice) : v.freed.last = v.last := rfl
@[simp] theorem Voice.freed_inuse (v : Voice) : v.freed.inuse = false := rfl
@[simp] theorem Voice.freed_note (v : Voice) : v.freed.note = 0 := rfl

end Sys2Proof.Machine
end

