-- ==== Sys2Proof/Laws/Ops.lean ====
section
/-! SUPPORT. What each shared operation can do, said once: the events it produces are well bracketed, bounded in number and address only what exists, and the shape of the state is kept. -/

namespace Sys2Proof.Machine

/-! ### Legal parameter sets -/

/-- What legality says, as arithmetic (R7, R68). -/
structure Params.Facts (p : Params) : Prop where
  chips : 1 ≤ p.nchips
  voices : 1 ≤ p.vpc
  banks : 1 ≤ p.nbanks ∧ p.nbanks ≤ 128
  gate : p.gateOn ≠ 0
  fallback : p.defaultPatch.defined = false
  voiceDrum : p.voiceBase + 0x40 * p.vpc ≤ p.drumBase ∨ p.drumBase + 0x30 * 4 ≤ p.voiceBase
  voiceFreq : p.voiceBase + 0x40 * p.vpc ≤ p.noteFreqBase ∨ p.noteFreqBase + 2 * p.vpc ≤ p.voiceBase
  drumFreq : p.drumBase + 0x30 * 4 ≤ p.noteFreqBase ∨ p.noteFreqBase + 2 * p.vpc ≤ p.drumBase
  voiceEnd : p.voiceBase + 0x40 * p.vpc ≤ p.imgSize
  drumEnd : p.drumBase + 0x30 * 4 ≤ p.imgSize
  freqEnd : p.noteFreqBase + 2 * p.vpc ≤ p.imgSize

theorem Params.legal_facts {p : Params} (h : p.legal = true) : Params.Facts p := by
  simp only [Params.legal, apart, Bool.and_eq_true, decide_eq_true_eq, bne_iff_ne, ne_eq, Bool.not_eq_true'] at h
  obtain ⟨⟨⟨⟨⟨⟨⟨⟨⟨⟨h1, h2⟩, h3⟩, h4⟩, h5⟩, h6⟩, h7⟩, h8⟩, h9⟩, h10⟩, h11⟩ := h
  exact ⟨h1, h2, h3, h4, h5, h6, h7, h8, h9, h10, h11⟩

theorem chipOf_lt {p : Params} {i : Nat} (hi : i < p.nv) : chipOf p i < p.nchips := by
  unfold chipOf
  apply Nat.div_lt_of_lt_mul
  rwa [Nat.mul_comm]

theorem localVoice_lt {p : Params} (h : Params.Facts p) (i : Nat) : localVoice p i < p.vpc :=
  Nat.mod_lt _ h.voices

theorem drumChip_lt {p : Params} {d : Nat} (hd : d < p.nd) : drumChip d < p.nchips := by
  unfold drumChip; unfold Params.nd at hd; omega

theorem localDrum_lt (d : Nat) : localDrum d < 4 := Nat.mod_lt _ (by decide)

theorem vbase_lt {p : Params} (h : Params.Facts p) (i : Nat) {a : Nat} (ha : a < 0x40) : vbase p i + a < p.imgSize := by
  have := localVoice_lt h i; have := h.voiceEnd; unfold vbase; omega

theorem nfaddr_lt {p : Params} (h : Params.Facts p) (i : Nat) : nfaddr p i + 1 < p.imgSize := by
  have := localVoice_lt h i; have := h.freqEnd; unfold nfaddr; omega

theorem dbase_lt {p : Params} (h : Params.Facts p) (d : Nat) {a : Nat} (ha : a < 0x30) : dbase p d + a < p.imgSize := by
  have := localDrum_lt d; have := h.drumEnd; unfold dbase; omega

/-! ### What a list of events may be -/

/-- `n` brackets at most, well formed, every event addressing what exists when the state is well shaped. -/
structure Tidy (s : State) (n : Nat) (es : List Event) : Prop where
  closed : bracketed es
  bound : countBrackets es ≤ n
  fits : s.Shaped → ∀ e ∈ es, Event.fits s.cfg e

theorem countBrackets_append (es fs : List Event) : countBrackets (es ++ fs) = countBrackets es + countBrackets fs := by
  simp [countBrackets, List.countP_append]

theorem countBrackets_cons (e : Event) (es : List Event) :
    countBrackets (e :: es) = countBrackets [e] + countBrackets es := countBrackets_append [e] es

theorem countBrackets_inside {k : Nat} {es : List Event} (h : ∀ e ∈ es, inside k e) : countBrackets es = 0 := by
  induction es with
  | nil => rfl
  | cons e es ih =>
    rw [countBrackets_cons, ih (fun x hx => h x (by simp [hx]))]
    have := h e (by simp)
    cases e <;> simp_all [inside, bracketStep, countBrackets]

theorem tidy_nil (s : State) (n : Nat) : Tidy s n [] := ⟨bracketed_nil, Nat.zero_le _, by simp⟩

theorem tidy_warn (s : State) (n : Nat) (w : Warning) : Tidy s n (warnEvents w) :=
  ⟨rfl, Nat.zero_le _, by simp [warnEvents, Event.fits]⟩

/-- A bracket whose body is made of writes and strobes of its own chip that address what exists. -/
theorem tidy_bracket {s : State} {k : Nat} {body : List Event} (h : ∀ e ∈ body, inside k e)
    (hk : s.Shaped → k < s.cfg.nchips) (hf : s.Shaped → ∀ e ∈ body, Event.fits s.cfg e) :
    Tidy s 1 (bracket k body) := by
  refine ⟨bracketed_bracket h, ?_, fun hs e he => ?_⟩
  · unfold bracket
    rw [countBrackets_cons, countBrackets_append, countBrackets_inside h]; simp [countBrackets]
  · simp only [bracket, List.mem_cons, List.mem_append, List.not_mem_nil, or_false] at he
    rcases he with rfl | he | rfl
    · exact hk hs
    · exact hf hs e he
    · exact hk hs

theorem Tidy.append {s t : State} {n m : Nat} {es fs : List Event} (h : Tidy s n es) (h' : Tidy t m fs)
    (hst : s.Shaped → t.Shaped) (hc : t.cfg = s.cfg) : Tidy s (n + m) (es ++ fs) := by
  refine ⟨bracketed_append h.closed h'.closed, ?_, fun hs e he => ?_⟩
  · rw [countBrackets_append]; exact Nat.add_le_add h.bound h'.bound
  · rcases List.mem_append.mp he with he | he
    · exact h.fits hs e he
    · exact hc ▸ h'.fits (hst hs) e he

theorem Tidy.mono {s : State} {n m : Nat} {es : List Event} (h : Tidy s n es) (hnm : n ≤ m) : Tidy s m es :=
  ⟨h.closed, le_trans h.bound hnm, h.fits⟩

theorem tidy_flatMap {α : Type} {s : State} {xs : List α} {f : α → List Event} (h : ∀ x ∈ xs, Tidy s 1 (f x)) :
    Tidy s xs.length (xs.flatMap f) := by
  induction xs with
  | nil => exact tidy_nil s 0
  | cons x xs ih =>
    rw [List.flatMap_cons, List.length_cons, Nat.add_comm]
    exact (h x (by simp)).append (ih (fun y hy => h y (by simp [hy]))) id rfl

theorem tidy_voiceEvents {s : State} {p : Voice → Bool} {ev : Nat → Voice → List Event} (vs : List Voice)
    (h : ∀ (i : Nat) (v : Voice), vs[i]? = some v → Tidy s 1 (ev i v)) : Tidy s vs.length (voiceEvents vs p ev) := by
  have := tidy_flatMap (s := s) (xs := vs.zipIdx)
    (f := fun (x : Voice × Nat) => if p x.1 then ev x.2 x.1 else []) (fun x hx => by
      have hx' := List.mem_zipIdx_iff_getElem?.mp hx
      split
      · exact h x.2 x.1 hx'
      · exact tidy_nil s 1)
  simpa [voiceEvents] using this

theorem tidy_drumEvents {s : State} {p : Drum → Bool} {ev : Nat → Drum → List Event} (ds : List Drum)
    (h : ∀ (i : Nat) (v : Drum), ds[i]? = some v → Tidy s 1 (ev i v)) : Tidy s ds.length (drumEvents ds p ev) := by
  have := tidy_flatMap (s := s) (xs := ds.zipIdx)
    (f := fun (x : Drum × Nat) => if p x.1 then ev x.2 x.1 else []) (fun x hx => by
      have hx' := List.mem_zipIdx_iff_getElem?.mp hx
      split
      · exact h x.2 x.1 hx'
      · exact tidy_nil s 1)
  simpa [drumEvents] using this

/-! ### The bodies of the brackets -/

theorem inside_wr (k a : Nat) (v : Byte) : inside k (.wr k a v) := by simp [inside, bracketStep]

theorem inside_strobe (k : Nat) (kd : StrobeKind) (i : Nat) : inside k (.strobe k kd i) := by simp [inside, bracketStep]

/-- In a well-shaped state slot `i` of the FM pool is a slot of an existing chip. -/
theorem State.Shaped.voice_lt {s : State} (h : s.Shaped) {i : Nat} (hi : i < s.vs.length) : i < s.cfg.nv := h.voices ▸ hi

theorem State.Shaped.drum_lt {s : State} (h : s.Shaped) {d : Nat} (hd : d < s.ds.length) : d < s.cfg.nd := h.drums ▸ hd

theorem lt_of_getElem?_some {α : Type} {xs : List α} {i : Nat} {x : α} (h : xs[i]? = some x) : i < xs.length := by
  rw [List.getElem?_eq_some_iff] at h; exact h.1

/-- A bracket of writes into the window and the frequency word of FM slot `i`. -/
theorem tidy_voiceBracket {s : State} {i : Nat} (hi : s.Shaped → i < s.cfg.nv) {body : List Event}
    (h : ∀ e ∈ body, (∃ a v, a < 0x40 ∧ e = .wr (chipOf s.cfg i) (vbase s.cfg i + a) v) ∨
      (∃ a v, a ≤ 1 ∧ e = .wr (chipOf s.cfg i) (nfaddr s.cfg i + a) v) ∨
      e = .strobe (chipOf s.cfg i) .gateReset (localVoice s.cfg i)) : Tidy s 1 (bracket (chipOf s.cfg i) body) := by
  refine tidy_bracket (fun e he => ?_) (fun hs => chipOf_lt (hi hs)) (fun hs e he => ?_)
  · rcases h e he with ⟨a, v, -, rfl⟩ | ⟨a, v, -, rfl⟩ | rfl
    · exact inside_wr _ _ _
    · exact inside_wr _ _ _
    · exact inside_strobe _ _ _
  · have hf := Params.legal_facts hs.legal
    have hc := chipOf_lt (hi hs)
    rcases h e he with ⟨a, v, ha, rfl⟩ | ⟨a, v, ha, rfl⟩ | rfl
    · exact ⟨hc, vbase_lt hf i ha⟩
    · have := nfaddr_lt hf i
      exact ⟨hc, by omega⟩
    · exact ⟨hc, localVoice_lt hf i⟩

/-- A bracket of writes into the window of drum slot `d`. -/
theorem tidy_drumBracket {s : State} {d : Nat} (hd : s.Shaped → d < s.cfg.nd) {body : List Event}
    (h : ∀ e ∈ body, (∃ a v, a < 0x30 ∧ e = .wr (drumChip d) (dbase s.cfg d + a) v) ∨
      e = .strobe (drumChip d) .sampleTrig (localDrum d)) : Tidy s 1 (bracket (drumChip d) body) := by
  refine tidy_bracket (fun e he => ?_) (fun hs => drumChip_lt (hd hs)) (fun hs e he => ?_)
  · rcases h e he with ⟨a, v, -, rfl⟩ | rfl
    · exact inside_wr _ _ _
    · exact inside_strobe _ _ _
  · have hf := Params.legal_facts hs.legal
    have hc := drumChip_lt (hd hs)
    rcases h e he with ⟨a, v, ha, rfl⟩ | rfl
    · exact ⟨hc, dbase_lt hf d ha⟩
    · exact ⟨hc, localDrum_lt d⟩

theorem tidy_noteOnEvents {s : State} {i : Nat} (hi : s.Shaped → i < s.cfg.nv) (P : Patch) (c : Chan) (an : Int)
    (vol : Byte) : Tidy s 1 (s.noteOnEvents i P c an vol) := by
  refine tidy_voiceBracket hi (fun e he => ?_)
  simp only [wr16, List.mem_append, List.mem_map, List.mem_range, List.mem_cons, List.not_mem_nil, or_false] at he
  rcases he with ((⟨a, ha, rfl⟩ | rfl) | rfl | rfl) | rfl | rfl
  · exact .inl ⟨a, _, ha, rfl⟩
  · exact .inl ⟨0x1D, _, by decide, rfl⟩
  · exact .inr (.inl ⟨0, _, by decide, rfl⟩)
  · exact .inr (.inl ⟨1, _, by decide, rfl⟩)
  · exact .inl ⟨0x1E, _, by decide, rfl⟩
  · exact .inr (.inr rfl)

theorem tidy_gateOffEvents {s : State} {i : Nat} (hi : s.Shaped → i < s.cfg.nv) :
    Tidy s 1 (gateOffEvents s.cfg i) :=
  tidy_voiceBracket hi (fun e he => .inl ⟨0x1E, 0, by decide, by simpa using he⟩)

theorem tidy_silenceEvents {s : State} {i : Nat} (hi : s.Shaped → i < s.cfg.nv) :
    Tidy s 1 (silenceEvents s.cfg i) := by
  refine tidy_voiceBracket hi (fun e he => ?_)
  simp only [wr16, List.mem_append, List.mem_map, List.mem_range, List.mem_cons, List.not_mem_nil, or_false] at he
  rcases he with (⟨j, hj, rfl⟩ | rfl | rfl) | rfl
  · exact .inl ⟨0x10 + j, 0, by omega, by rw [Nat.add_assoc]⟩
  · exact .inr (.inl ⟨0, _, by decide, rfl⟩)
  · exact .inr (.inl ⟨1, _, by decide, rfl⟩)
  · exact .inl ⟨0x1E, _, by decide, rfl⟩

theorem tidy_volumeEvents {s : State} {i : Nat} (hi : s.Shaped → i < s.cfg.nv) (P : Patch) (vol : Byte) :
    Tidy s 1 (volumeEvents s.cfg P vol i) := by
  refine tidy_voiceBracket hi (fun e he => ?_)
  simp only [List.mem_map, List.mem_range] at he
  obtain ⟨j, hj, rfl⟩ := he
  exact .inl ⟨0x10 + j, encodeByte s.cfg.vsm P vol (0x10 + j), by omega, by rw [Nat.add_assoc]⟩

theorem tidy_triggerEvents {s : State} {d : Nat} (hd : s.Shaped → d < s.cfg.nd) (e : KeyEntry) (c : Chan) (vol : Byte) :
    Tidy s 1 (s.triggerEvents d e c vol) := by
  refine tidy_drumBracket hd (fun x hx => ?_)
  simp only [wr16, wr24, List.mem_append, List.mem_cons, List.not_mem_nil, or_false] at hx
  rcases hx with (((rfl | rfl) | rfl | rfl | rfl) | rfl | rfl | rfl) | rfl | rfl | rfl | rfl | rfl
  · exact .inl ⟨0x00, _, by decide, rfl⟩
  · exact .inl ⟨0x01, _, by decide, rfl⟩
  · exact .inl ⟨0x10, _, by decide, rfl⟩
  · exact .inl ⟨0x11, _, by decide, rfl⟩
  · exact .inl ⟨0x12, _, by decide, rfl⟩
  · exact .inl ⟨0x13, _, by decide, rfl⟩
  · exact .inl ⟨0x14, _, by decide, rfl⟩
  · exact .inl ⟨0x15, _, by decide, rfl⟩
  · exact .inl ⟨0x16, _, by decide, rfl⟩
  · exact .inl ⟨0x17, _, by decide, rfl⟩
  · exact .inl ⟨0x18, _, by decide, rfl⟩
  · exact .inl ⟨0x02, _, by decide, rfl⟩
  · exact .inr rfl

theorem tidy_silenceDrumEvents {s : State} {d : Nat} (hd : s.Shaped → d < s.cfg.nd) :
    Tidy s 1 (silenceDrumEvents s.cfg d) := by
  refine tidy_drumBracket hd (fun x hx => ?_)
  simp only [wr16, List.mem_cons, List.not_mem_nil, or_false] at hx
  rcases hx with rfl | rfl | rfl
  · exact .inl ⟨0x02, _, by decide, rfl⟩
  · exact .inl ⟨0x00, _, by decide, rfl⟩
  · exact .inl ⟨0x01, _, by decide, rfl⟩

/-! ### What an operation may do -/

/-- `t` is `s` after an operation that produced `es`, at most `n` brackets of them: the parameters stay, the trace grows
by `es`, images and locks are what `es` makes of them, and the shape is kept. -/
structure Acts (s t : State) (n : Nat) (es : List Event) : Prop where
  cfg : t.cfg = s.cfg
  out : t.out = s.out ++ es
  img : t.img = es.foldl Event.onImages s.img
  lock : t.lock = es.foldl Event.onLocks s.lock
  tidy : Tidy s n es
  shaped : s.Shaped → t.Shaped

theorem Acts.trans {s t u : State} {n m : Nat} {es fs : List Event} (h : Acts s t n es) (h' : Acts t u m fs) :
    Acts s u (n + m) (es ++ fs) where
  cfg := h'.cfg.trans h.cfg
  out := by rw [h'.out, h.out, List.append_assoc]
  img := by rw [h'.img, h.img, List.foldl_append]
  lock := by rw [h'.lock, h.lock, List.foldl_append]
  tidy := h.tidy.append h'.tidy h.shaped h.cfg
  shaped hs := h'.shaped (h.shaped hs)

theorem Acts.mono {s t : State} {n m : Nat} {es : List Event} (h : Acts s t n es) (hnm : n ≤ m) : Acts s t m es :=
  { h with tidy := h.tidy.mono hnm }

theorem acts_refl (s : State) (n : Nat) : Acts s s n [] :=
  ⟨rfl, by simp, rfl, rfl, tidy_nil s n, id⟩

/-- An operation without events. -/
theorem acts_quiet {s t : State} (n : Nat) (hc : t.cfg = s.cfg) (ho : t.out = s.out) (hi : t.img = s.img)
    (hl : t.lock = s.lock) (hs : s.Shaped → t.Shaped) : Acts s t n [] :=
  ⟨hc, by simp [ho], hi, hl, tidy_nil s n, hs⟩

/-- Emitting tidy events keeps the shape. -/
theorem State.Shaped.emit {s : State} (h : s.Shaped) (es : List Event) : (s.emit es).Shaped where
  legal := h.legal
  voices := h.voices
  drums := h.drums
  live := h.live
  originals := h.originals
  locks := by simpa using h.locks
  images := by simpa using h.images
  canonical := by simpa using foldl_onImages_wf es h.canonical
  cursor := h.cursor
  pointer := h.pointer
  channelTen := h.channelTen

theorem acts_emit {s : State} {n : Nat} {es : List Event} (h : Tidy s n es) : Acts s (s.emit es) n es :=
  ⟨rfl, rfl, rfl, rfl, h, fun hs => hs.emit es⟩

theorem State.Shaped.modChan {s : State} (h : s.Shaped) (c : Chan) (f : Channel → Channel) : (s.modChan c f).Shaped :=
  { h with }

theorem acts_modChan (s : State) (c : Chan) (f : Channel → Channel) : Acts s (s.modChan c f) 0 [] :=
  acts_quiet 0 rfl rfl rfl rfl (fun h => h.modChan c f)

theorem acts_modVoice (s : State) (i : Nat) (f : Voice → Voice) : Acts s (s.modVoice i f) 0 [] :=
  acts_quiet 0 rfl rfl rfl rfl (fun h => { h with voices := by simpa using h.voices })

theorem acts_modDrum (s : State) (d : Nat) (f : Drum → Drum) : Acts s (s.modDrum d f) 0 [] :=
  acts_quiet 0 rfl rfl rfl rfl (fun h => { h with drums := by simpa using h.drums })

theorem acts_advanceTick (s : State) (n : BitVec 64) : Acts s (s.advanceTick n) 0 [] :=
  acts_quiet 0 rfl rfl rfl rfl (fun h => { h with })

theorem acts_advanceCursor (s : State) : Acts s s.advanceCursor 0 [] :=
  acts_quiet 0 rfl rfl rfl rfl (fun h =>
    { h with cursor := Nat.mod_lt _ (Nat.lt_of_le_of_lt (Nat.zero_le _) h.cursor) })

theorem acts_modLive (s : State) (b : Nat) (p : Data) (f : Patch → Patch) : Acts s (s.modLive b p f) 0 [] :=
  acts_quiet 0 rfl rfl rfl rfl (fun h => { h with live := by simpa using h.live })

theorem acts_modOriginal (s : State) (b : Nat) (p : Data) (f : Patch → Patch) : Acts s (s.modOriginal b p f) 0 [] :=
  acts_quiet 0 rfl rfl rfl rfl (fun h => { h with originals := by simpa using h.originals })

theorem acts_clearBank (s : State) (b : Nat) : Acts s (s.clearBank b) 0 [] :=
  acts_quiet 0 rfl rfl rfl rfl (fun h =>
    { h with live := by simpa using h.live, originals := by simpa using h.originals })

theorem acts_setPointer {s : State} {x : Option (Data × Data)}
    (hx : s.Shaped → ∀ y, x = some y → y.1.toNat < s.cfg.nbanks) : Acts s (s.setPointer x) 0 [] :=
  acts_quiet 0 rfl rfl rfl rfl (fun h => { h with pointer := hx h })

theorem acts_answer (s : State) (r : PatchReply) : Acts s (s.answer r) 0 [] :=
  acts_quiet 0 rfl rfl rfl rfl (fun h => { h with })

theorem acts_setDrumset (s : State) (x : BitVec 16) : Acts s (s.setDrumset x) 0 [] :=
  acts_quiet 0 rfl rfl rfl rfl (fun h => { h with channelTen := by simp })

theorem acts_resetChannels (s : State) : Acts s s.resetChannels 0 [] :=
  acts_quiet 0 rfl rfl rfl rfl (fun h => { h with })

theorem acts_restorePatches (s : State) : Acts s s.restorePatches 0 [] :=
  acts_quiet 0 rfl rfl rfl rfl (fun h => { h with live := h.originals })

theorem acts_sweepVoices {s : State} {p : Voice → Bool} {g : Voice → Voice} {ev : Nat → Voice → List Event}
    (h : ∀ (i : Nat) (v : Voice), s.vs[i]? = some v → Tidy s 1 (ev i v)) :
    Acts s (s.sweepVoices p g ev) s.vs.length (voiceEvents s.vs p ev) :=
  ⟨rfl, rfl, rfl, rfl, tidy_voiceEvents s.vs h, fun hs => by
    have hs' : ({ s with vs := s.vs.map (fun v => if p v then g v else v) } : State).Shaped :=
      { hs with voices := by simpa using hs.voices }
    exact hs'.emit _⟩

theorem acts_sweepDrums {s : State} {p : Drum → Bool} {g : Drum → Drum} {ev : Nat → Drum → List Event}
    (h : ∀ (i : Nat) (v : Drum), s.ds[i]? = some v → Tidy s 1 (ev i v)) :
    Acts s (s.sweepDrums p g ev) s.ds.length (drumEvents s.ds p ev) :=
  ⟨rfl, rfl, rfl, rfl, tidy_drumEvents s.ds h, fun hs => by
    have hs' : ({ s with ds := s.ds.map (fun v => if p v then g v else v) } : State).Shaped :=
      { hs with drums := by simpa using hs.drums }
    exact hs'.emit _⟩

/-! ### The procedures -/

theorem acts_silenceVoices (s : State) (p : Voice → Bool) :
    ∃ es, Acts s (s.silenceVoices p) s.vs.length es :=
  ⟨_, acts_sweepVoices (fun _ _ h => tidy_silenceEvents (fun hs => hs.voice_lt (lt_of_getElem?_some h)))⟩

theorem acts_silenceDrums (s : State) (p : Drum → Bool) : ∃ es, Acts s (s.silenceDrums p) s.ds.length es :=
  ⟨_, acts_sweepDrums (fun _ _ h => tidy_silenceDrumEvents (fun hs => hs.drum_lt (lt_of_getElem?_some h)))⟩

theorem acts_volumeRefreshFM (s : State) (c : Chan) : ∃ es, Acts s (s.volumeRefreshFM c) s.vs.length es :=
  ⟨_, acts_sweepVoices (fun _ _ h => tidy_volumeEvents (fun hs => hs.voice_lt (lt_of_getElem?_some h)) _ _)⟩

theorem acts_panRefreshFM (s : State) (c : Chan) : ∃ es, Acts s (s.panRefreshFM c) s.vs.length es :=
  ⟨_, acts_sweepVoices (fun _ _ h => tidy_voiceBracket (fun hs => hs.voice_lt (lt_of_getElem?_some h))
    (fun e he => .inl ⟨0x1D, s.panByte c, by decide, by simpa using he⟩))⟩

theorem acts_bendRefreshFM (s : State) (c : Chan) : ∃ es, Acts s (s.bendRefreshFM c) s.vs.length es :=
  ⟨_, acts_sweepVoices (fun i v h => tidy_voiceBracket (fun hs => hs.voice_lt (lt_of_getElem?_some h))
    (fun e he => by
      simp only [wr16, List.mem_cons, List.not_mem_nil, or_false] at he
      rcases he with rfl | rfl
      · exact .inr (.inl ⟨0, _, by decide, rfl⟩)
      · exact .inr (.inl ⟨1, _, by decide, rfl⟩)))⟩

theorem acts_applyPitchBendDrum (s : State) (c : Chan) : ∃ es, Acts s (s.applyPitchBendDrum c) s.ds.length es :=
  ⟨_, acts_sweepDrums (fun i v h => tidy_drumBracket (fun hs => hs.drum_lt (lt_of_getElem?_some h))
    (fun e he => by
      simp only [wr16, List.mem_cons, List.not_mem_nil, or_false] at he
      rcases he with rfl | rfl
      · exact .inl ⟨0, _, by decide, rfl⟩
      · exact .inl ⟨1, _, by decide, rfl⟩))⟩

/-- `findIdx?` answers an index of the list. -/
theorem findIdx?_lt {α : Type} {xs : List α} {p : α → Bool} {i : Nat} (h : xs.findIdx? p = some i) : i < xs.length := by
  rw [List.findIdx?_eq_some_iff_getElem] at h; exact h.1

theorem acts_releaseVoice (s : State) (c : Chan) (n : Data) : ∃ es, Acts s (s.releaseVoice c n) 1 es := by
  unfold State.releaseVoice
  split
  · rename_i i hi
    have hi' : s.Shaped → i < s.cfg.nv := fun hs => hs.voice_lt (findIdx?_lt hi)
    refine ⟨_, ((acts_modVoice s i Voice.freed).trans (acts_emit (n := 1) ?_)).mono (by omega)⟩
    have h1 := tidy_gateOffEvents (s := s) hi'
    exact ⟨h1.closed, h1.bound, fun hs e he =>
      (tidy_gateOffEvents (s := s.modVoice i Voice.freed)
        (fun hs' => by have := hs'.voice_lt (i := i) (by simpa using findIdx?_lt hi); simpa using this)).fits hs e he⟩
  · exact ⟨_, acts_refl s 1⟩

theorem acts_noteOffFM (s : State) (c : Chan) (n : Data) : ∃ es, Acts s (s.noteOffFM c n) 1 es := by
  unfold State.noteOffFM
  split
  · exact ⟨_, (acts_modChan s c _).mono (by omega)⟩
  · exact acts_releaseVoice s c n

theorem acts_releaseLoop (c : Chan) (ns : List Nat) (s : State) :
    ∃ es, Acts s (ns.foldl (State.releaseHeld c) s) ns.length es := by
  induction ns generalizing s with
  | nil => exact ⟨_, acts_refl s 0⟩
  | cons n ns ih =>
    have h1 : ∃ es, Acts s (State.releaseHeld c s n) 1 es := by
      unfold State.releaseHeld
      split
      · exact acts_noteOffFM s c _
      · exact ⟨_, acts_refl s 1⟩
    obtain ⟨es, h1⟩ := h1
    obtain ⟨fs, h2⟩ := ih (State.releaseHeld c s n)
    exact ⟨_, (h1.trans h2).mono (by simp [Nat.add_comm])⟩

theorem acts_sustainRelease (s : State) (c : Chan) : ∃ es, Acts s (s.sustainRelease c) 128 es := by
  obtain ⟨es, h⟩ := acts_releaseLoop c (List.range 128) s
  exact ⟨_, (h.trans (acts_modChan _ c _)).mono (by simp)⟩

theorem acts_startVoice (s : State) (i : Nat) (P : Patch) (c : Chan) (an : Int) (vel : Data) (hi : i < s.vs.length) :
    ∃ es, Acts s (s.startVoice i P c an vel) 1 es := by
  refine ⟨_, (((acts_modVoice s i _).trans (acts_advanceTick _ 1)).trans (acts_emit (n := 1) ?_)).mono (by omega)⟩
  have h1 := tidy_noteOnEvents (s := s) (i := i) (fun hs => hs.voice_lt hi) P c an (s.cvol vel c)
  refine ⟨h1.closed, h1.bound, fun hs e he => ?_⟩
  have := (tidy_noteOnEvents (s := (s.modVoice i (fun _ => ⟨true, an, c, vel, s.cvol vel c, s.tick⟩)).advanceTick 1)
    (i := i) (fun hs' => hs'.voice_lt (by simpa using hi)) P c an (s.cvol vel c)).fits hs e
  exact this he

theorem oldestVoice_lt {vs : List Voice} {x : Nat × BitVec 64} (h : oldestVoice vs = some x) : x.1 < vs.length := by
  induction vs generalizing x with
  | nil => simp [oldestVoice] at h
  | cons v vs ih =>
    unfold oldestVoice at h
    split at h
    · simp only [Option.some.injEq] at h; subst h; simp
    · rename_i j t hj
      have := ih hj
      split at h <;> (simp only [Option.some.injEq] at h; subst h; simp at *; try omega)

theorem oldestVoice_isSome {vs : List Voice} (h : vs ≠ []) : (oldestVoice vs).isSome = true := by
  cases vs with
  | nil => exact absurd rfl h
  | cons v vs => unfold oldestVoice; split <;> (try split) <;> rfl

theorem reuseVoice_lt {s : State} {c : Chan} {an : Int} {i : Nat} (h : s.reuseVoice c an = some i) : i < s.vs.length := by
  have := findIdx?_lt h
  split at this
  · exact this
  · simp at this; omega

theorem selectVoice_lt {s : State} {c : Chan} {an : Int} {x : Choice} (h : s.selectVoice c an = some x) :
    x.slot < s.vs.length := by
  unfold State.selectVoice at h
  split at h
  · rename_i i hi; simp only [Option.some.injEq] at h; subst h; exact reuseVoice_lt hi
  · split at h
    · rename_i i hi; simp only [Option.some.injEq] at h; subst h; exact findIdx?_lt hi
    · simp only [Option.map_eq_some_iff] at h
      obtain ⟨y, hy, rfl⟩ := h
      exact oldestVoice_lt hy

/-- "Allocation never fails" over a non-empty pool (R155). -/
theorem selectVoice_isSome {s : State} (h : s.vs ≠ []) (c : Chan) (an : Int) : (s.selectVoice c an).isSome = true := by
  unfold State.selectVoice
  split
  · rfl
  · split
    · rfl
    · simpa using oldestVoice_isSome h

theorem acts_noteOnFM {s t : State} {c : Chan} {n vel : Data} (h : s.noteOnFM c n vel = some t) :
    ∃ es, Acts s t 1 es := by
  unfold State.noteOnFM at h
  simp only [Option.map_eq_some_iff] at h
  obtain ⟨x, hx, rfl⟩ := h
  have h1 : Acts s (s.emit (s.retriggerEvents c n x)) 0 (s.retriggerEvents c n x) := by
    refine acts_emit ?_
    cases x with
    | reuse i =>
      simp only [State.retriggerEvents]
      split
      · exact tidy_nil s 0
      · exact tidy_warn s 0 _
    | free i => exact tidy_nil s 0
    | steal i => exact tidy_nil s 0
  obtain ⟨es, h2⟩ := acts_startVoice (s.emit (s.retriggerEvents c n x)) x.slot (s.effective c) c
    (s.adjNote c n (s.effective c)) vel (selectVoice_lt hx)
  exact ⟨_, (h1.trans h2).mono (by omega)⟩

theorem acts_startDrum (s : State) (d : Nat) (e : KeyEntry) (c : Chan) (n vel : Data)
    (hd : s.Shaped → d < s.cfg.nd) : ∃ es, Acts s (s.startDrum d e c n vel) 1 es := by
  refine ⟨_, (((acts_modDrum s d _).trans (acts_advanceTick _ 1)).trans (acts_emit (n := 1) ?_)).mono (by omega)⟩
  have h1 := tidy_triggerEvents (s := s) (d := d) hd e c (s.cvol vel c)
  refine ⟨h1.closed, h1.bound, fun hs x hx => ?_⟩
  refine h1.fits ?_ x hx
  exact { hs with drums := by simpa using hs.drums }

theorem acts_triggerDrum (s : State) (c : Chan) (n vel : Data) : ∃ es, Acts s (s.triggerDrum c n vel) 1 es := by
  unfold State.triggerDrum
  split
  · exact ⟨_, acts_refl s 1⟩
  · split
    · rename_i d hd
      exact acts_startDrum s d _ c n vel (fun hs => hs.drum_lt (findIdx?_lt hd))
    · rename_i e _ _ _
      obtain ⟨es, h2⟩ := acts_startDrum s s.cur e c n vel (fun hs => hs.cursor)
      exact ⟨_, (h2.trans (acts_advanceCursor _)).mono (by omega)⟩

/-! ### The commands -/

theorem acts_dropPointer (s : State) (b : Data) : Acts s (s.dropPointer b) 0 [] :=
  acts_setPointer (fun h y hy => by
    simp only [Option.filter_eq_some_iff] at hy
    exact h.pointer y hy.1)

theorem acts_defineAbsent (s : State) : Acts s s.defineAbsent 0 [] := by
  unfold State.defineAbsent
  split
  · exact acts_setPointer (fun _ y hy => by cases hy)
  · exact acts_refl s 0

theorem acts_setOverride (s : State) (b : Nat) (p : Data) (ra : Nat) (v : Byte) :
    Acts s (s.setOverride b p ra v) 0 [] := by
  unfold State.setOverride
  split
  · exact acts_refl s 0
  · split
    · exact acts_refl s 0
    · exact acts_modLive s b p _

theorem acts_gmReset (s : State) : ∃ es, Acts s s.gmReset (s.vs.length + s.ds.length) es := by
  obtain ⟨es, h1⟩ := acts_silenceVoices s (fun _ => true)
  obtain ⟨fs, h2⟩ := acts_silenceDrums (s.silenceVoices (fun _ => true)) (fun _ => true)
  have h3 := (h1.trans h2).trans (acts_resetChannels _)
  unfold State.gmReset
  simp only
  split
  · exact ⟨_, ((h3.trans (acts_setDrumset _ 0)).trans (acts_restorePatches _)).mono (by simp [State.silenceVoices])⟩
  · exact ⟨_, (h3.trans (acts_restorePatches _)).mono (by simp [State.silenceVoices])⟩

theorem acts_soundOff (s : State) (c : Chan) (v : Data) :
    ∃ es, Acts s (s.soundOff c v) (s.vs.length + s.ds.length) es := by
  unfold State.soundOff
  split
  · obtain ⟨es, h1⟩ := acts_silenceVoices s (fun v => v.chan == c)
    obtain ⟨fs, h2⟩ := acts_silenceDrums (s.allSoundOffFM c) (fun x => x.chan == c)
    exact ⟨_, (h1.trans h2).mono (by simp [State.allSoundOffFM, State.silenceVoices])⟩
  · exact ⟨_, acts_refl s _⟩

theorem acts_sustainPedal (s : State) (c : Chan) (v : Data) : ∃ es, Acts s (s.sustainPedal c v) 128 es := by
  unfold State.sustainPedal
  split
  · obtain ⟨es, h⟩ := acts_sustainRelease (s.modChan c (fun x => { x with sus := pressed v })) c
    exact ⟨_, ((acts_modChan s c _).trans h).mono (by omega)⟩
  · exact ⟨_, (acts_modChan s c _).mono (by omega)⟩

theorem acts_control (s : State) (c : Chan) (ctrl v : Data) :
    ∃ es, Acts s (s.control c ctrl v) (128 + 2 * s.vs.length + s.ds.length) es := by
  unfold State.control
  split
  · exact ⟨_, (acts_modChan s c _).mono (by omega)⟩
  · exact ⟨_, (acts_modChan s c _).mono (by omega)⟩
  · exact (acts_volumeRefreshFM s c).imp (fun _ h => h.mono (by omega))
  · obtain ⟨es, h1⟩ := acts_panRefreshFM s c
    obtain ⟨fs, h2⟩ := acts_volumeRefreshFM (s.panRefreshFM c) c
    exact ⟨_, (h1.trans h2).mono (by simp [State.panRefreshFM]; omega)⟩
  · exact (acts_volumeRefreshFM s c).imp (fun _ h => h.mono (by omega))
  · exact (acts_sustainPedal s c v).imp (fun _ h => h.mono (by omega))
  · exact ⟨_, (acts_modChan s c _).mono (by omega)⟩
  · exact ⟨_, (acts_modChan s c _).mono (by omega)⟩
  · exact (acts_soundOff s c v).imp (fun _ h => h.mono (by omega))
  · exact (acts_soundOff s c v).imp (fun _ h => h.mono (by omega))
  · exact ⟨_, acts_refl s _⟩

/-- What one command can do, said once: if it answers a next state, it produced a tidy list of events of at most
`128 + 2 × NV + ND` brackets and kept the shape. -/
theorem exec_acts {i : Instr} {s t : State} (h : exec i s = .next t) :
    ∃ es, Acts s t (128 + 2 * s.vs.length + s.ds.length) es := by
  cases i with
  | noteOff c n b =>
    simp only [exec, execNoteOff, Host.Outcome.next.injEq] at h
    subst h
    split
    · exact ⟨_, acts_refl s _⟩
    · exact (acts_noteOffFM s c n).imp (fun _ h => h.mono (by omega))
  | noteOn c n vel =>
    simp only [exec, execNoteOn] at h
    split at h
    · simp only [Host.Outcome.next.injEq] at h
      subst h
      exact (acts_triggerDrum s c n vel).imp (fun _ h => h.mono (by omega))
    · split at h
      · rename_i u hu
        simp only [Host.Outcome.next.injEq] at h
        subst h
        exact (acts_noteOnFM hu).imp (fun _ h => h.mono (by omega))
      · cases h
  | cc c ctrl v =>
    simp only [exec, execCC, Host.Outcome.next.injEq] at h
    subst h
    obtain ⟨es, h2⟩ := acts_control (s.modChan c (fun x => x.setCtrl ctrl v)) c ctrl v
    exact ⟨_, ((acts_modChan s c _).trans h2).mono (by simp)⟩
  | prog c p =>
    simp only [exec, execProg, Host.Outcome.next.injEq] at h
    subst h
    exact ⟨_, (acts_modChan s c _).mono (by omega)⟩
  | bend c b =>
    simp only [exec, execBend, Host.Outcome.next.injEq] at h
    subst h
    obtain ⟨es, h2⟩ := acts_bendRefreshFM (s.modChan c (fun x => { x with bend := b })) c
    obtain ⟨fs, h3⟩ := acts_applyPitchBendDrum ((s.modChan c (fun x => { x with bend := b })).bendRefreshFM c) c
    exact ⟨_, (((acts_modChan s c _).trans h2).trans h3).mono (by simp [State.bendRefreshFM]; omega)⟩
  | gmReset =>
    simp only [exec, execGmReset, Host.Outcome.next.injEq] at h
    subst h
    exact (acts_gmReset s).imp (fun _ h => h.mono (by omega))
  | gsReset =>
    simp only [exec, execGsReset, Host.Outcome.next.injEq] at h
    subst h
    obtain ⟨es, h⟩ := acts_gmReset s
    exact ⟨_, (h.trans (acts_setDrumset _ 0)).mono (by omega)⟩
  | gsDrumPart part map =>
    simp only [exec, execGsDrumPart, Host.Outcome.next.injEq] at h
    subst h
    split
    · exact ⟨_, acts_refl s _⟩
    · split
      · exact ⟨_, (acts_setDrumset s _).mono (by omega)⟩
      · exact ⟨_, acts_refl s _⟩
  | patchOverride pg ra v =>
    simp only [exec, execPatchOverride, Host.Outcome.next.injEq] at h
    subst h
    exact ⟨_, (acts_setOverride s 0 pg ra.toNat v).mono (by omega)⟩
  | tickAdv n =>
    simp only [exec, execTickAdv, Host.Outcome.next.injEq] at h
    subst h
    exact ⟨_, (acts_advanceTick s _).mono (by omega)⟩
  | bankClear b =>
    simp only [exec, execBankClear, Host.Outcome.next.injEq] at h
    subst h
    split
    · exact ⟨_, acts_refl s _⟩
    · exact ⟨_, ((acts_clearBank s b.toNat).trans (acts_dropPointer _ b)).mono (by omega)⟩
  | patchDefine b p =>
    simp only [exec, execPatchDefine, Host.Outcome.next.injEq] at h
    subst h
    split
    · exact ⟨_, (acts_defineAbsent s).mono (by omega)⟩
    · rename_i hb
      exact ⟨_, (((acts_modLive s b.toNat p _).trans (acts_modOriginal _ b.toNat p _)).trans
        (acts_setPointer (fun _ y hy => by
          simp only [Option.some.injEq] at hy
          subst hy
          simpa using hb))).mono (by omega)⟩
  | patchField ra v =>
    simp only [exec, execPatchField, Host.Outcome.next.injEq] at h
    subst h
    split
    · exact ⟨_, acts_refl s _⟩
    · split
      · exact ⟨_, acts_refl s _⟩
      · exact ⟨_, ((acts_modLive s _ _ _).trans (acts_modOriginal _ _ _ _)).mono (by omega)⟩
  | patchRead b p =>
    simp only [exec, execPatchRead, Host.Outcome.next.injEq] at h
    subst h
    exact ⟨_, (acts_answer s _).mono (by omega)⟩

end Sys2Proof.Machine
end

