-- ==== Sys2Proof/Laws/PerInstr.lean ====
section
/-! SUPPORT. Statements about every command as syntax, one lemma per constructor. -/

/-- The mnemonic of a command in the table of R100. -/
def Sys2Proof.Laws.WordFitsRow.mnemonicOf : Sys2Proof.Instr → String
  | .noteOff _ _ _ => "NOTE_OFF"
  | .noteOn _ _ _ => "NOTE_ON"
  | .cc _ _ _ => "CC"
  | .prog _ _ => "PROG"
  | .bend _ _ => "BEND"
  | .gmReset => "GM_RESET"
  | .gsReset => "GS_RESET"
  | .gsDrumPart _ _ => "GS_DRUM_PART"
  | .patchOverride _ _ _ => "PATCH_OVERRIDE"
  | .tickAdv _ => "TICK_ADV"
  | .bankClear _ => "BANK_CLEAR"
  | .patchDefine _ _ => "PATCH_DEFINE"
  | .patchField _ _ => "PATCH_FIELD"
  | .patchRead _ _ => "PATCH_READ"

/-- The row of R100 with the command's mnemonic admits the command's word on the command's port, whatever its operands. -/
def Sys2Proof.Laws.WordFitsRow.Statement (i : Sys2Proof.Instr) : Prop :=
  ∃ r ∈ Sys2Proof.opcodeTable, r.mnemonic = Sys2Proof.Laws.WordFitsRow.mnemonicOf i ∧
    r.admits i.port (Sys2Proof.encode i) = true

namespace Sys2Proof.Laws

open Sys2Proof

/-- A row admits a word whose port and fixed bits are the row's. -/
theorem fits_of_row {i : Instr} (r : Row) (hr : r ∈ opcodeTable) (hm : r.mnemonic = WordFitsRow.mnemonicOf i)
    (hp : r.port = i.port) (hw : encode i &&& r.mask = r.bits) : WordFitsRow.Statement i :=
  ⟨r, hr, hm, by simp [Row.admits, hp, hw]⟩

/-- The fixed bits of format C (R91). -/
theorem formC_fixed (op : Byte) (c : Chan) (a b : Data) : formC op c a b &&& 0xFFF08080#32 = op ++ 0#24 := by
  apply BitVec.eq_of_getLsbD_eq; intro i hi
  simp only [formC, BitVec.getLsbD_and, BitVec.getLsbD_append]
  interval_cases i <;> simp

/-- The fixed bits of formats S and HD (R93, R95). -/
theorem formS_fixed (op : Byte) (a b : Data) : formS op a b &&& 0xFFFF8080#32 = op ++ 0#24 := by
  apply BitVec.eq_of_getLsbD_eq; intro i hi
  simp only [formS, BitVec.getLsbD_and, BitVec.getLsbD_append]
  interval_cases i <;> simp

theorem WordFitsRow.noteOff (c : Chan) (n b : Data) : WordFitsRow.Statement (.noteOff c n b) :=
  fits_of_row ⟨"NOTE_OFF", .realTime, 0x01000000, 0xFFF08080⟩ (by decide) rfl rfl (formC_fixed 0x01 c n b)

theorem WordFitsRow.noteOn (c : Chan) (n vel : Data) : WordFitsRow.Statement (.noteOn c n vel) :=
  fits_of_row ⟨"NOTE_ON", .realTime, 0x02000000, 0xFFF08080⟩ (by decide) rfl rfl (formC_fixed 0x02 c n vel)

theorem WordFitsRow.cc (c : Chan) (ctrl v : Data) : WordFitsRow.Statement (.cc c ctrl v) :=
  fits_of_row ⟨"CC", .realTime, 0x03000000, 0xFFF08080⟩ (by decide) rfl rfl (formC_fixed 0x03 c ctrl v)

theorem WordFitsRow.prog (c : Chan) (p : Data) : WordFitsRow.Statement (.prog c p) := by
  refine fits_of_row ⟨"PROG", .realTime, 0x04000000, 0xFFF080FF⟩ (by decide) rfl rfl ?_
  apply BitVec.eq_of_getLsbD_eq; intro i hi
  simp only [encode, formC, BitVec.getLsbD_and, BitVec.getLsbD_append]
  interval_cases i <;> simp

theorem WordFitsRow.bend (c : Chan) (b : BitVec 14) : WordFitsRow.Statement (.bend c b) := by
  refine fits_of_row ⟨"BEND", .realTime, 0x05000000, 0xFFF0C000⟩ (by decide) rfl rfl ?_
  apply BitVec.eq_of_getLsbD_eq; intro i hi
  simp only [encode, BitVec.getLsbD_and, BitVec.getLsbD_append]
  interval_cases i <;> simp

theorem WordFitsRow.gmReset : WordFitsRow.Statement .gmReset :=
  fits_of_row ⟨"GM_RESET", .realTime, 0x10000000, 0xFFFFFFFF⟩ (by decide) rfl rfl (by decide)

theorem WordFitsRow.gsReset : WordFitsRow.Statement .gsReset :=
  fits_of_row ⟨"GS_RESET", .realTime, 0x11000000, 0xFFFFFFFF⟩ (by decide) rfl rfl (by decide)

theorem WordFitsRow.gsDrumPart (part map : Data) : WordFitsRow.Statement (.gsDrumPart part map) :=
  fits_of_row ⟨"GS_DRUM_PART", .realTime, 0x12000000, 0xFFFF8080⟩ (by decide) rfl rfl (formS_fixed 0x12 part map)

theorem WordFitsRow.patchOverride (pg ra : Data) (v : Byte) : WordFitsRow.Statement (.patchOverride pg ra v) := by
  refine fits_of_row ⟨"PATCH_OVERRIDE", .realTime, 0x13000000, 0xFF808000⟩ (by decide) rfl rfl ?_
  apply BitVec.eq_of_getLsbD_eq; intro i hi
  simp only [encode, BitVec.getLsbD_and, BitVec.getLsbD_append]
  interval_cases i <;> simp

theorem WordFitsRow.tickAdv (n : BitVec 24) : WordFitsRow.Statement (.tickAdv n) := by
  refine fits_of_row ⟨"TICK_ADV", .realTime, 0x14000000, 0xFF000000⟩ (by decide) rfl rfl ?_
  apply BitVec.eq_of_getLsbD_eq; intro i hi
  simp only [encode, BitVec.getLsbD_and, BitVec.getLsbD_append]
  interval_cases i <;> simp

theorem WordFitsRow.bankClear (b : Data) : WordFitsRow.Statement (.bankClear b) := by
  refine fits_of_row ⟨"BANK_CLEAR", .host, 0x20000000, 0xFFFFFF80⟩ (by decide) rfl rfl ?_
  apply BitVec.eq_of_getLsbD_eq; intro i hi
  simp only [encode, BitVec.getLsbD_and, BitVec.getLsbD_append]
  interval_cases i <;> simp

theorem WordFitsRow.patchDefine (b p : Data) : WordFitsRow.Statement (.patchDefine b p) :=
  fits_of_row ⟨"PATCH_DEFINE", .host, 0x21000000, 0xFFFF8080⟩ (by decide) rfl rfl (formS_fixed 0x21 b p)

theorem WordFitsRow.patchField (ra v : Byte) : WordFitsRow.Statement (.patchField ra v) := by
  refine fits_of_row ⟨"PATCH_FIELD", .host, 0x22000000, 0xFFFF0000⟩ (by decide) rfl rfl ?_
  apply BitVec.eq_of_getLsbD_eq; intro i hi
  simp only [encode, BitVec.getLsbD_and, BitVec.getLsbD_append]
  interval_cases i <;> simp

theorem WordFitsRow.patchRead (b p : Data) : WordFitsRow.Statement (.patchRead b p) :=
  fits_of_row ⟨"PATCH_READ", .host, 0x23000000, 0xFFFF8080⟩ (by decide) rfl rfl (formS_fixed 0x23 b p)

end Sys2Proof.Laws
end

