-- ==== Sys2Proof/Laws/Sweeps.lean ====
section
/-! SUPPORT. What a step does to the trace as a whole, what a list of events leaves in one image byte, and what the sweeps over the pools leave there. -/

namespace Sys2Proof.Machine

/-! ### The step -/

/-- What one step can do: take at most one word, then act by a tidy list of events. -/
theorem step_acts {s t : State} (h : step s = .next t) :
    ∃ s' es, Acts s' t (128 + 2 * s.vs.length + s.ds.length) es ∧ (s' = s ∨ ∃ w rest, s.input = w :: rest ∧
      s' = { s with input := rest }) := by
  unfold step at h
  split at h
  · cases h
  · unfold State.fetch at h
    cases hi : s.input with
    | nil =>
      simp only [hi, Host.Outcome.next.injEq] at h
      subst h
      exact ⟨s, [], acts_refl s _, .inl rfl⟩
    | cons x rest =>
      simp only [hi] at h
      unfold runWord at h
      split at h
      · obtain ⟨es, h⟩ := exec_acts h
        exact ⟨_, es, h, .inr ⟨x, rest, rfl, rfl⟩⟩
      · simp only [Host.Outcome.next.injEq] at h
        subst h
        exact ⟨{ s with input := rest }, _, acts_emit (tidy_warn _ _ _), .inr ⟨x, rest, rfl, rfl⟩⟩

/-! ### Locks -/

/-- Over free locks a well-bracketed list of events leaves the locks as they were. -/
theorem State.emit_lock_of_unlocked {s : State} {es : List Event} (h : s.Unlocked) (hb : bracketed es) :
    (s.emit es).lock = s.lock := by
  have h' := State.emit_unlocked h hb
  have hl : (s.emit es).lock.length = s.lock.length := foldl_onLocks_length es s.lock
  apply List.ext_getElem hl
  intro i h1 h2
  rw [h' _ (List.getElem_mem h1), h _ (List.getElem_mem h2)]

/-! ### What a consumer sees inside a command (R72) -/

/-- Past the events `a` the instants of `a ++ es` are those of `es`. -/
theorem State.sampleWithin_append (s : State) (a es : List Event) (n k : Nat) :
    s.sampleWithin (a ++ es) (a.length + n) k = (s.emit a).sampleWithin es n k := by
  have h : a.take (a.length + n) = a := List.take_of_length_le (by omega)
  simp [State.sampleWithin, List.take_append, State.emit_emit, h]

/-- Before every event of a list the sample is that of the state. -/
@[simp] theorem State.sampleWithin_zero (s : State) (es : List Event) (k : Nat) :
    s.sampleWithin es 0 k = s.sample k := by simp [State.sampleWithin]

/-- Once every event of a list has happened the sample is that of the state it leaves. -/
theorem State.sampleWithin_all (s : State) (es : List Event) (k : Nat) :
    s.sampleWithin es es.length k = (s.emit es).sample k := by simp [State.sampleWithin]

/-- The instants of what led from `s` to `t` are those of the events that `OUT` gained. -/
theorem State.sampleDuring_of_out {s t : State} {es : List Event} (h : t.out = s.out ++ es) (n k : Nat) :
    s.sampleDuring t n k = s.sampleWithin es n k := by
  simp [State.sampleDuring, State.eventsUntil, h]

/-- No prefix of a bracketed list breaks the bracket rule. -/
theorem bracketed_take {es : List Event} (h : bracketed es) (n : Nat) :
    ∃ st, (es.take n).foldl bracketStep (some none) = some st := by
  cases hf : (es.take n).foldl bracketStep (some none) with
  | some st => exact ⟨st, rfl⟩
  | none =>
    unfold bracketed at h
    rw [← List.take_append_drop n es, List.foldl_append, hf, foldl_bracketStep_none] at h
    cases h

/-- Along a list that keeps the bracket rule a lock is 1 exactly inside a bracket of its chip (R74, R75). -/
theorem onLocks_getElem {es : List Event} {l : List Bool} {st st' : Option Nat}
    (h : es.foldl bracketStep (some st) = some st') (hl : ∀ k, k < l.length → l[k]? = some (decide (st = some k))) :
    ∀ k, k < l.length → (es.foldl Event.onLocks l)[k]? = some (decide (st' = some k)) := by
  induction es generalizing l st with
  | nil => cases h; exact hl
  | cons e es ih =>
    rw [List.foldl_cons] at h ⊢
    cases hb : bracketStep (some st) e with
    | none => rw [hb, foldl_bracketStep_none] at h; cases h
    | some st1 =>
      rw [hb] at h
      have hlen : (Event.onLocks l e).length = l.length := by cases e <;> simp [Event.onLocks]
      have := ih h (l := Event.onLocks l e) (by
        rw [hlen]
        intro k hk
        have := hl k hk
        cases e <;> cases st <;> simp_all [bracketStep, Event.onLocks, List.getElem_set] <;> grind)
      rw [hlen] at this
      exact this

/-- What a consumer gets at instant `n`: nothing inside a bracket of its chip, else the whole image (R72). -/
theorem State.sampleWithin_eq {s : State} {es : List Event} (hu : s.Unlocked) (hb : bracketed es) (n : Nat) {k : Nat}
    (hk : k < s.lock.length) :
    s.sampleWithin es n k = if (es.take n).foldl bracketStep (some none) = some (some k) then none
      else ((es.take n).foldl Event.onImages s.img)[k]? := by
  obtain ⟨st, hst⟩ := bracketed_take hb n
  have hl := onLocks_getElem hst (l := s.lock) (fun j hj => by
    simpa [List.getElem?_eq_getElem hj] using hu _ (List.getElem_mem hj)) k hk
  simp only [State.sampleWithin, State.sample, State.emit_lock, State.emit_img, hl, hst]
  by_cases h : st = some k <;> simp [h]

/-! ### The last write of a list of events -/

@[simp] theorem lastWrite_nil (k a : Nat) : lastWrite k a [] = none := rfl

/-- Only the body of a bracket writes. -/
theorem lastWrite_bracket (k a j : Nat) (body : List Event) : lastWrite k a (bracket j body) = lastWrite k a body := by
  simp [bracket, lastWrite, lastWrite_append]

/-- The last write is one of the list. -/
theorem mem_of_lastWrite {k a : Nat} {v : Byte} {es : List Event} (h : lastWrite k a es = some v) :
    Event.wr k a v ∈ es := by
  induction es with
  | nil => cases h
  | cons e es ih =>
    rw [lastWrite_cons] at h
    cases hr : lastWrite k a es with
    | some u =>
      rw [hr] at h
      have h' : u = v := by simpa using h
      subst h'
      exact List.mem_cons_of_mem _ (ih hr)
    | none =>
      rw [hr, Option.none_or] at h
      cases e with
      | wr j b w =>
        simp only [lastWrite, Option.none_or] at h
        split at h
        · rename_i e
          obtain ⟨rfl, rfl⟩ := e
          simp only [Option.some.injEq] at h
          subst h
          exact List.mem_cons_self
        · cases h
      | lock _ => cases h
      | unlock _ => cases h
      | strobe _ _ _ => cases h
      | warn _ => cases h

/-- A byte has no last write exactly when nothing of the list writes it. -/
theorem lastWrite_eq_none_iff {k a : Nat} {es : List Event} :
    lastWrite k a es = none ↔ ∀ v, Event.wr k a v ∉ es := by
  constructor
  · intro h v hv
    induction es with
    | nil => cases hv
    | cons e es ih =>
      rw [lastWrite_cons, Option.or_eq_none_iff] at h
      rcases List.mem_cons.mp hv with rfl | hv
      · simp [lastWrite] at h
      · exact ih h.1 hv
  · intro h
    cases hl : lastWrite k a es with
    | none => rfl
    | some v => exact absurd (mem_of_lastWrite hl) (h v)

/-- Where a list writes one value only to a byte, that is its last write. -/
theorem lastWrite_eq_of_unique {k a : Nat} {v : Byte} {es : List Event} (hv : Event.wr k a v ∈ es)
    (h : ∀ w, Event.wr k a w ∈ es → w = v) : lastWrite k a es = some v := by
  cases hl : lastWrite k a es with
  | none => exact absurd hv (lastWrite_eq_none_iff.mp hl v)
  | some u => rw [h u (mem_of_lastWrite hl)]

/-- The events of a sweep are those of the visited slots. -/
theorem mem_voiceEvents {e : Event} {vs : List Voice} {p : Voice → Bool} {ev : Nat → Voice → List Event} :
    e ∈ voiceEvents vs p ev ↔ ∃ (i : Nat) (v : Voice), vs[i]? = some v ∧ p v = true ∧ e ∈ ev i v := by
  simp only [voiceEvents, List.mem_flatMap]
  constructor
  · rintro ⟨x, hx, he⟩
    split at he
    · exact ⟨x.2, x.1, List.mk_mem_zipIdx_iff_getElem?.mp hx, ‹_›, he⟩
    · cases he
  · rintro ⟨i, v, hv, hp, he⟩
    exact ⟨(v, i), List.mk_mem_zipIdx_iff_getElem?.mpr hv, by simpa [hp] using he⟩

theorem mem_drumEvents {e : Event} {ds : List Drum} {p : Drum → Bool} {ev : Nat → Drum → List Event} :
    e ∈ drumEvents ds p ev ↔ ∃ (d : Nat) (x : Drum), ds[d]? = some x ∧ p x = true ∧ e ∈ ev d x := by
  simp only [drumEvents, List.mem_flatMap]
  constructor
  · rintro ⟨x, hx, he⟩
    split at he
    · exact ⟨x.2, x.1, List.mk_mem_zipIdx_iff_getElem?.mp hx, ‹_›, he⟩
    · cases he
  · rintro ⟨d, x, hx, hp, he⟩
    exact ⟨(x, d), List.mk_mem_zipIdx_iff_getElem?.mpr hx, by simpa [hp] using he⟩

/-- The last write of a run of bytes from `base` on. -/
theorem lastWrite_range (k a j base n : Nat) (f : Nat → Byte) :
    lastWrite k a ((List.range n).map (fun i => Event.wr j (base + i) (f i))) =
      if j = k ∧ base ≤ a ∧ a < base + n then some (f (a - base)) else none := by
  induction n with
  | zero => simp
  | succ n ih =>
    rw [List.range_succ, List.map_append, lastWrite_append, ih]
    simp only [List.map_cons, List.map_nil, lastWrite, Option.none_or]
    by_cases hj : j = k
    · by_cases hn : base + n = a
      · subst hn; simp [hj]
      · rw [if_neg (by simp [hn])]
        simp only [Option.none_or]
        congr 1
        simp only [hj, true_and, eq_iff_iff]
        omega
    · simp [hj]

/-! ### Slots and addresses -/

/-- Two slots of one chip with one local voice are one slot. -/
theorem voice_slot_unique {p : Params} {i j : Nat} (hc : chipOf p i = chipOf p j)
    (hl : localVoice p i = localVoice p j) : i = j := by
  have h1 := Nat.div_add_mod i p.vpc
  have h2 := Nat.div_add_mod j p.vpc
  unfold chipOf at hc; unfold localVoice at hl
  rw [hc, hl] at h1; omega

theorem drum_slot_unique {i j : Nat} (hc : drumChip i = drumChip j) (hl : localDrum i = localDrum j) : i = j := by
  unfold drumChip at hc; unfold localDrum at hl; omega

/-- A byte of a voice window belongs to one slot and one offset. -/
theorem vbase_unique {p : Params} {i j a b : Nat} (ha : a < 0x40) (hb : b < 0x40)
    (hc : chipOf p i = chipOf p j) (h : vbase p i + a = vbase p j + b) : i = j ∧ a = b := by
  unfold vbase at h
  have hl : localVoice p i = localVoice p j := by omega
  exact ⟨voice_slot_unique hc hl, by rw [hl] at h; omega⟩

/-- A byte of a note-frequency word belongs to one slot and one half. -/
theorem nfaddr_unique {p : Params} {i j a b : Nat} (ha : a < 2) (hb : b < 2)
    (hc : chipOf p i = chipOf p j) (h : nfaddr p i + a = nfaddr p j + b) : i = j ∧ a = b := by
  unfold nfaddr at h
  have hl : localVoice p i = localVoice p j := by omega
  exact ⟨voice_slot_unique hc hl, by rw [hl] at h; omega⟩

/-- A byte of a drum window belongs to one slot and one offset. -/
theorem dbase_unique {p : Params} {i j a b : Nat} (ha : a < 0x30) (hb : b < 0x30)
    (hc : drumChip i = drumChip j) (h : dbase p i + a = dbase p j + b) : i = j ∧ a = b := by
  unfold dbase at h
  have hl : localDrum i = localDrum j := by omega
  exact ⟨drum_slot_unique hc hl, by rw [hl] at h; omega⟩

/-- The three regions of an image do not meet (R68). -/
theorem vbase_ne_nfaddr {p : Params} (h : Params.Facts p) (i j : Nat) {a b : Nat} (ha : a < 0x40) (hb : b < 2) :
    vbase p i + a ≠ nfaddr p j + b := by
  have h1 := localVoice_lt h i; have h2 := localVoice_lt h j; have h3 := h.voiceFreq
  unfold vbase nfaddr; omega

theorem vbase_ne_dbase {p : Params} (h : Params.Facts p) (i d : Nat) {a b : Nat} (ha : a < 0x40) (hb : b < 0x30) :
    vbase p i + a ≠ dbase p d + b := by
  have h1 := localVoice_lt h i; have h2 := localDrum_lt d; have h3 := h.voiceDrum
  unfold vbase dbase; omega

theorem nfaddr_ne_dbase {p : Params} (h : Params.Facts p) (i d : Nat) {a b : Nat} (ha : a < 2) (hb : b < 0x30) :
    nfaddr p i + a ≠ dbase p d + b := by
  have h1 := localVoice_lt h i; have h2 := localDrum_lt d; have h3 := h.drumFreq
  unfold nfaddr dbase; omega

end Sys2Proof.Machine
end

