-- ==== Sys2Proof/Tests/Slice0.lean ====
section
/-! SUPPORT. Tests: the refusals of every check, a written-out word for every command, one-step results from 95_test_vectors.md, and a witness for every statement with hypotheses. -/

namespace Sys2Proof.Tests

open Sys2Proof Sys2Proof.Machine Sys2Proof.Claims

/-! ## Well-formedness: an ill-formed term for each check -/

theorem test_refuses_channel_16 :
    ([.noteOff 16 0 0, .noteOn 16 0 0, .cc 16 0 0, .prog 16 0, .bend 16 0, .bank 16 0, .data 16 0, .volume 16 0,
      .pan 16 0, .expr 16 0, .sustainOn 16, .sustainOff 16, .allSoundOff 16, .allNotesOff 16, .bendRange 16 0,
      .fineTune 16 0, .coarseTune 16 0] : List Source).all (fun l => !l.wellFormed) = true := by decide

theorem test_refuses_data_128 :
    ([.noteOff 0 128 0, .noteOff 0 0 128, .noteOn 0 128 0, .noteOn 0 0 128, .cc 0 128 0, .cc 0 0 128, .prog 0 128,
      .gsDrumPart 128 0, .gsDrumPart 0 128, .patchOverride 128 0 0, .patchOverride 0 128 0, .bankClear 128,
      .patchDefine 128 0, .patchDefine 0 128, .patchRead 128 0, .patchRead 0 128] : List Source).all
      (fun l => !l.wellFormed) = true := by decide

theorem test_refuses_pseudo_data_128 :
    ([.bank 0 128, .data 0 128, .volume 0 128, .pan 0 128, .expr 0 128, .bendRange 0 128, .fineTune 0 128,
      .coarseTune 0 128, .load 128 []] : List Source).all (fun l => !l.wellFormed) = true := by decide

theorem test_refuses_wide_operands :
    ([.bend 0 8192, .bend 0 (-8193), .patchOverride 0 0 256, .tickAdv 16777216, .patchField 256 0,
      .patchField 0 256] : List Source).all (fun l => !l.wellFormed) = true := by decide

theorem test_refuses_patch_entries :
    ([{ program := 128 }, { program := 0, modmode := some 256 }, { program := 0, feedback := some 256 },
      { program := 0, keyShift := some 128 }, { program := 0, keyShift := some (-129) },
      { program := 0, operators := List.replicate 9 {} }] : List PatchEntry).all (fun e => !e.wellFormed) = true := by
  decide

theorem test_refuses_operator_entries :
    ([{ frequency := some 65536 }, { attack := some 256 }, { decay := some 256 }, { sustain := some 256 },
      { release := some 256 }, { volume := some 256 }, { waveform := some 256 }] : List OperatorEntry).all
      (fun o => !o.wellFormed) = true := by decide

theorem test_accepts_operand_ends :
    ([.noteOn 15 127 127, .bend 15 8191, .bend 0 (-8192), .patchOverride 127 127 255, .tickAdv 16777215,
      .patchField 255 255] : List Source).all Source.wellFormed = true := by decide

/-- V80 to V87 of 95_test_vectors.md, and one more for each must-be-zero field. -/
theorem test_refuses_reserved_words :
    ([(.realTime, 0x7F000000), (.realTime, 0x02108000), (.realTime, 0x02003C80), (.realTime, 0x04000501),
      (.realTime, 0x05004000), (.realTime, 0x10000001), (.realTime, 0x21000005), (.host, 0x02003C64),
      (.realTime, 0x11000080), (.realTime, 0x12010000), (.realTime, 0x13800000), (.realTime, 0x13008000),
      (.host, 0x20000080), (.host, 0x21008000), (.host, 0x22010000), (.host, 0x23000080),
      (.realTime, 0x00000000)] : List (Port × Word)).all
      (fun x => !wordWellFormed x.1 x.2 && !(decode x.1 x.2).toBool) = true := by decide

theorem test_refuses_parameters :
    ([{ Params.reference 1 2 with nchips := 0 }, { Params.reference 1 2 with vpc := 0 },
      { Params.reference 1 2 with nbanks := 0 }, { Params.reference 1 2 with nbanks := 129 },
      { Params.reference 1 2 with gateOn := 0 },
      { Params.reference 1 2 with defaultPatch := Patch.loadDefaults },
      { Params.reference 1 2 with drumBase := 0x7F }, { Params.reference 1 2 with noteFreqBase := 0x7D },
      { Params.reference 1 2 with noteFreqBase := 0x13F }, { Params.reference 1 2 with imgSize := 0x143 },
      { Params.reference 1 2 with voiceBase := 0x144 },
      { Params.reference 1 2 with drumBase := 0x144 }] : List Params).all (fun p => !p.legal) = true := by decide

/-! ## Decoding: a word written out from the spec's encoding for every command (R91 to R95, R105, 95_test_vectors.md) -/

theorem test_decode_noteOff : decode .realTime 0b00000001000000000011110001000000 = .ok (.noteOff 0 60 64) := by decide
theorem test_decode_noteOn : decode .realTime 0x02003C64 = .ok (.noteOn 0 60 100) := by decide
theorem test_decode_cc : decode .realTime 0x0300070A = .ok (.cc 0 7 10) := by decide
theorem test_decode_prog : decode .realTime 0x04032800 = .ok (.prog 3 40) := by decide
theorem test_decode_bend : decode .realTime 0x05022000 = .ok (.bend 2 (BitVec.ofInt 14 (-8192))) := by decide
theorem test_decode_gmReset : decode .realTime 0x10000000 = .ok .gmReset := by decide
theorem test_decode_gsReset : decode .realTime 0x11000000 = .ok .gsReset := by decide
theorem test_decode_gsDrumPart : decode .realTime 0x12001A01 = .ok (.gsDrumPart 0x1A 1) := by decide
theorem test_decode_patchOverride : decode .realTime 0x130518A5 = .ok (.patchOverride 5 0x18 0xA5) := by decide
theorem test_decode_tickAdv : decode .realTime 0x14000200 = .ok (.tickAdv 512) := by decide
theorem test_decode_bankClear : decode .host 0x20000001 = .ok (.bankClear 1) := by decide
theorem test_decode_patchDefine : decode .host 0x21000005 = .ok (.patchDefine 0 5) := by decide
theorem test_decode_patchField : decode .host 0x220010C8 = .ok (.patchField 0x10 0xC8) := by decide
theorem test_decode_patchRead : decode .host 0x23000005 = .ok (.patchRead 0 5) := by decide

/-- Every field at its largest value: no bit of a field is dropped, none lies in another field. -/
theorem test_decode_largest_fields :
    decode .realTime 0x020F7F7F = .ok (.noteOn 15 127 127) ∧ decode .realTime 0x050F1FFF = .ok (.bend 15 8191) ∧
    decode .realTime 0x137F7FFF = .ok (.patchOverride 127 127 255) ∧
    decode .realTime 0x14FFFFFF = .ok (.tickAdv 0xFFFFFF) ∧ decode .host 0x2000007F = .ok (.bankClear 127) ∧
    decode .host 0x23007F7F = .ok (.patchRead 127 127) ∧ decode .host 0x2200FFFF = .ok (.patchField 255 255) := by
  decide

theorem test_encode_examples :
    encode (.noteOn 0 60 100) = 0x02003C64 ∧ encode (.bend 2 (BitVec.ofInt 14 (-8192))) = 0x05022000 ∧
    encode (.patchOverride 5 0x18 0xA5) = 0x130518A5 ∧ encode (.tickAdv 512) = 0x14000200 ∧
    encode (.prog 3 40) = 0x04032800 ∧ encode (.patchField 0x10 0xC8) = 0x220010C8 := by decide

theorem test_table_word : decodeTableWord 32 0x23000005 = some (.patchRead 0 5) := by decide

/-! ## One step on a small state, against 95_test_vectors.md and the worked examples of files 40 to 43 -/

/-- The state a command leaves, or the state before where it gives none. -/
def after (i : Instr) (s : State) : State :=
  match exec i s with
  | .next t => t
  | .fault _ => s
  | .refused _ => s

/-- The fresh block of P1 and P3: one chip, two voices. -/
def fresh : State := State.reset

/-- Both voices Held, as after steps 1 to 3 of P1. -/
def full : State :=
  { fresh with vs := [⟨true, 60, 0, 100, 200, 0⟩, ⟨true, 64, 0, 100, 200, 1⟩], tick := 514 }

/-- One voice Held, the other Free. -/
def half : State := { fresh with vs := [⟨true, 60, 0, 100, 200, 0⟩, Voice.free], tick := 1 }

/-- Two drum slots in use, cursor at 3. -/
def drums : State :=
  { fresh with
    ds := [⟨true, 36, 0, 127, 255, 0, 0x1000, 32000, 0⟩, ⟨true, 36, 9, 100, 200, 1, 0x1000, 32000, 0⟩,
      Drum.free, Drum.free]
    cur := 3, tick := 3 }

/-- The pedal of channel 0 is down and note 60 is on its held list. -/
def pedal : State :=
  { half with ch := half.ch.set 0 { Channel.atReset with sus := true, held := (1#128 <<< 60) } }

/-- A patch with scaled and unscaled operators, `mm = 2`. -/
def scaledPatch : Patch :=
  { Patch.loadDefaults with
    mm := 2
    op := (Vector.replicate 8 { Operator.zero with vol := 200 }).set 1 { Operator.zero with vol := 100, wf := 5 } }

/-- `VSM[2][0]` alone. -/
def oneScale : Vector (Vector Bool 8) 13 :=
  (Vector.replicate 13 (Vector.replicate 8 false)).set 2 ((Vector.replicate 8 false).set 0 true)

/-- P1 steps 1, 4 and 6: a Free slot, the oldest slot without a warning, a re-trigger with one. -/
theorem test_noteOn_voice : (after (.noteOn 0 60 100) fresh).vs = [⟨true, 60, 0, 100, 200, 0⟩, Voice.free] ∧
    (after (.noteOn 1 67 127) full).voice 0 = ⟨true, 67, 1, 127, 255, 514⟩ ∧
    (after (.noteOn 0 64 90) full).out.head? = some (.warn (.retrigger 0 64)) := by decide +kernel

/-- P3 step 10: the cursor's slot is taken though it sounds; start, end and volume bytes. -/
theorem test_noteOn_drum_cursor :
    (after (.noteOn 9 37 127) { drums with cur := 0 }).drum 0 = ⟨true, 37, 9, 127, 255, 3, 0x2000, 32000, 0⟩ ∧
    (after (.noteOn 9 37 127) { drums with cur := 0 }).cur = 1 ∧
    (after (.noteOn 9 37 127) { drums with cur := 0 }).imgByte 0 0x94 = some 0x28 := by decide +kernel

/-- P1 step 7: the gate byte alone is written; the freed slot keeps its other fields. -/
theorem test_noteOff_releases : (after (.noteOff 0 64 0) full).voice 1 = ⟨false, 0, 0, 100, 200, 1⟩ ∧
    (after (.noteOff 0 64 0) full).out = [.lock 0, .wr 0 0x5E 0, .unlock 0] := by decide

/-- P2 step 5 and P1 step 5: the pedal defers; an orphan does nothing. -/
theorem test_noteOff_holds_or_nothing : (after (.noteOff 0 61 0) pedal).voice 0 = half.voice 0 ∧
    ((after (.noteOff 0 61 0) pedal).chan 0).held = (1#128 <<< 60) ||| (1#128 <<< 61) ∧
    (after (.noteOff 0 61 0) full).out = [] := by decide

/-- The example of R222 on `half`: volume 100 × 127 × 10 × 255 / 127³ = 15. -/
theorem test_cc7_refreshes : (after (.cc 0 7 10) half).voice 0 = ⟨true, 60, 0, 100, 15, 0⟩ ∧
    ((after (.cc 0 7 10) half).chan 0).ctrl 7 = 10 := by decide +kernel

/-- P2 step 9: the release edge frees the held note and empties the list. -/
theorem test_cc64_release : (after (.cc 0 64 0) pedal).voice 0 = ⟨false, 0, 0, 100, 200, 0⟩ ∧
    ((after (.cc 0 64 0) pedal).chan 0).held = 0 := by decide +kernel

theorem test_prog : ((after (.prog 3 40) fresh).chan 3).prog = 40 ∧ ((after (.prog 3 40) fresh).chan 2).prog = 0 := by
  decide

/-- R232 on one voice: one bracket of two writes, no strobe. -/
theorem test_bend : ((after (.bend 0 4096) half).chan 0).bend = 4096 ∧ (after (.bend 0 4096) half).out.length = 4 := by
  decide

/-- V60: eleven silencing writes in one bracket; the slot is free, `TICK` stays. -/
theorem test_gmReset : (after .gmReset half).out.length = 13 ∧ (after .gmReset half).imgByte 0 0x1E = some 0 ∧
    (after .gmReset half).tick = 1 ∧ (after .gmReset half).voice 0 = ⟨false, 0, 0, 100, 200, 0⟩ := by decide

/-- V63. -/
theorem test_gsReset : (after .gsReset { fresh with drumset := 0x0600 }).drumset = 0x0200 := by decide

/-- V61 and V62. -/
theorem test_gsDrumPart : (after (.gsDrumPart 0x1A 1) fresh).drumset = 0x0600 ∧
    (after (.gsDrumPart 0x11 1) fresh).drumset = 0x0201 ∧ (after (.gsDrumPart 0x11 0) fresh).drumset = 0x0200 ∧
    (after (.gsDrumPart 0x20 1) fresh).drumset = 0x0200 ∧ (after (.gsDrumPart 0x0F 1) fresh).drumset = 0x0200 := by
  decide

/-- The example of R126: both operators of the pair. -/
theorem test_patchOverride :
    ((after (.patchOverride 5 0x18 0xA5) fresh).livePatch 0 5).map (fun q => (q.defined, q.op[0].wf, q.op[1].wf)) =
      some (true, 0xA, 0x5) ∧
    (after (.patchOverride 5 0x1D 0xA5) fresh).livePatch 0 5 = some Patch.blank := by decide

/-- V64. -/
theorem test_tickAdv : (after (.tickAdv 512) fresh).tick = 512 ∧
    (after (.tickAdv 0xFFFFFF) { fresh with tick := 512 }).tick = 16777727 := by decide

theorem test_bankClear :
    (after (.bankClear 0) { fresh with hp := some (0, 5) }).hp = none ∧
    (after (.bankClear 1) { fresh with hp := some (0, 5) }).hp = some (0, 5) := by decide

/-- P4 h2 and V89: an absent bank clears `HP`. -/
theorem test_patchDefine : (after (.patchDefine 0 5) fresh).livePatch 0 5 = some Patch.loadDefaults ∧
    (after (.patchDefine 0 5) fresh).hp = some (0, 5) ∧
    (after (.patchDefine 5 0) { fresh with hp := some (0, 5) }).hp = none := by decide

/-- P4 h3: both copies. -/
theorem test_patchField :
    ((after (.patchField 0x1C 2) { fresh with hp := some (1, 5) }).livePatch 1 5).map (fun q => q.mm) = some 2 ∧
    ((after (.patchField 0x1C 2) { fresh with hp := some (1, 5) }).po[1]?).map (fun k => k[5].mm) = some 2 := by decide

theorem test_patchRead : (after (.patchRead 0 5) fresh).replies = [.absent] := by decide

/-- The examples of R123, R124 and R125. -/
theorem test_encode_image : encodeByte oneScale scaledPatch 200 0x10 = 156 ∧ encodeByte oneScale scaledPatch 200 0x11 = 100 ∧
    encodeByte oneScale scaledPatch 200 0x18 = 0x05 ∧ encodeByte oneScale scaledPatch 200 0x1C = 2 ∧
    encodeByte oneScale scaledPatch 200 0x1F = 0x80 ∧ encodeByte oneScale scaledPatch 200 0x1E = 0 := by decide

/-- The examples of R130. -/
theorem test_pan_bytes : ([0, 4, 5, 32, 63, 64, 65, 96, 122, 123, 127].map
    (fun v => panNibble (127 - v) ++ panNibble v) : List Byte) =
      [0xF0, 0xF0, 0xE1, 0xB4, 0x87, 0x78, 0x78, 0x4B, 0x1E, 0x0F, 0x0F] := by decide

/-- The examples of R128 at full controllers. -/
theorem test_cvol : fresh.cvol 127 0 = 255 ∧ fresh.cvol 100 0 = 200 ∧ fresh.cvol 64 0 = 128 ∧ fresh.cvol 1 0 = 2 ∧
    fresh.cvol 0 0 = 0 := by decide

/-- The examples of R224. -/
theorem test_tunes : fineCents 96 = 50 ∧ fineCents 0 = -100 ∧ fineCents 127 = 98.4375 ∧ coarseCents 76 = 1200 := by
  decide +kernel

/-- The values of the reference instantiations in R133 and R135. -/
theorem test_reference : referenceFreqEnc 0 = 440 ∧ referenceFreqEnc (-9) = 262 ∧ referenceFreqEnc (-69) = 8 ∧
    referenceFreqEnc 58 = 12544 ∧ referenceFreqEnc 87 = 0xFFFF ∧ referenceDrumEnc 32000 0 = 32000 ∧
    referenceDrumEnc 32000 (-2) = 28509 := by decide +kernel

/-- The state a step leaves, or the state before where it gives none. -/
def afterStep (s : State) : State :=
  match step s with
  | .next t => t
  | .fault _ => s
  | .refused _ => s

/-- V80 through the step: `Warn(UNKNOWN_CMD, 0x7F000000)` and the word is taken. -/
theorem test_step_reserved :
    (afterStep { fresh with input := [⟨.realTime, 0x7F000000⟩] }).out = [.warn (.unknownCmd 0x7F000000)] ∧
    (afterStep { fresh with input := [⟨.realTime, 0x7F000000⟩] }).input = [] := by decide

/-- A word placed by withFetchWord is the one the next step runs. -/
theorem test_fetch_word : (afterStep (fresh.withFetchWord 32 0x14000200)).tick = 512 := by decide

/-- The consumer gets nothing while the lock is taken (R72). -/
theorem test_sample : fresh.sample 0 = some [] ∧ { fresh with lock := [true] }.sample 0 = none := by decide

/-- CC10 over two Held voices: the consumer may see the first pan byte before the second, and nothing inside a bracket
(R72, 92 D41). -/
theorem test_sample_between_brackets :
    full.sampleDuring (after (.cc 0 10 0) full) 2 0 = none ∧
    full.sampleDuring (after (.cc 0 10 0) full) 3 0 = some [(0x1D, 0xF0)] ∧
    full.sampleDuring (after (.cc 0 10 0) full) 6 0 = some [(0x1D, 0xF0), (0x5D, 0xF0)] := by decide +kernel

/-- R107, R108 and R243: a tuning pseudo-command, a LOAD with a shared waveform byte, a bank index no word can carry. -/
theorem test_expansions :
    expandLine (.fineTune 3 70) = [.cc 3 101 0, .cc 3 100 1, .cc 3 6 70] ∧
    expandLine (.load 1 [{ program := 5, operators := [{ frequency := some 0x123 }, { waveform := some 0x1A }] }]) =
      [.bankClear 1, .patchDefine 1 5, .patchField 0 1, .patchField 1 0x23, .patchField 0x18 0x0A] ∧
    hostLoad 128 (some [some { program := 5 }]) = [] := by decide

/-! ## Witnesses: a concrete state and operands that meet the hypotheses of each statement -/

theorem fresh_shaped : fresh.Shaped where
  legal := by decide
  voices := rfl
  drums := rfl
  live := rfl
  originals := rfl
  locks := rfl
  images := rfl
  canonical := by decide
  cursor := by decide
  pointer := by intro x h; cases h
  channelTen := by decide

theorem fresh_unlocked : fresh.Unlocked := by unfold State.Unlocked; decide
theorem half_shaped : half.Shaped := { fresh_shaped with voices := rfl }
theorem full_shaped : full.Shaped := { fresh_shaped with voices := rfl }
theorem pedal_shaped : pedal.Shaped := { half_shaped with }
theorem drums_shaped : drums.Shaped := { fresh_shaped with drums := rfl, cursor := by decide }

/-- A property of both slots of a pool of two. -/
theorem forall_two {P : Nat → Voice → Prop} {a b : Voice} (h0 : P 0 a) (h1 : P 1 b) :
    ∀ (j : Nat) (w : Voice), [a, b][j]? = some w → P j w := by
  intro j w h
  match j with
  | 0 => cases h; exact h0
  | 1 => cases h; exact h1
  | _ + 2 => cases h

/-- A property of the four slots of a drum pool. -/
theorem forall_four {P : Nat → Drum → Prop} {a b c d : Drum} (h0 : P 0 a) (h1 : P 1 b) (h2 : P 2 c) (h3 : P 3 d) :
    ∀ (j : Nat) (w : Drum), [a, b, c, d][j]? = some w → P j w := by
  intro j w h
  match j with
  | 0 => cases h; exact h0
  | 1 => cases h; exact h1
  | 2 => cases h; exact h2
  | 3 => cases h; exact h3
  | _ + 4 => cases h

/-- A NOTE_ON waits on the real-time port of `half`. -/
def waiting : State := { half with input := [⟨.realTime, 0x02004064⟩] }

theorem waiting_shaped : waiting.Shaped := { half_shaped with }

theorem waiting_steps : ∃ t, step waiting = .next t := ⟨_, rfl⟩

theorem witness_DecoderAcceptsExactlyTheOpcodeTable :
    decode .host 0x20000000 = .ok (.bankClear 0) ∧ wordWellFormed .host 0x20000000 = true ∧
    wordWellFormed .realTime 0x20000000 = false := by decide

theorem witness_ReservedWordOnlyWarns : ∃ (s : State) (x : PortWord) (rest : List PortWord),
    s.cfg.legal = true ∧ s.input = x :: rest ∧ wordWellFormed x.port x.word = false :=
  ⟨{ fresh with input := [⟨.host, 0x02003C64⟩] }, _, _, by decide, rfl, by decide⟩

theorem witness_StepRunsTheDecodedCommand : ∃ (s : State) (x : PortWord) (rest : List PortWord) (i : Instr),
    s.cfg.legal = true ∧ s.input = x :: rest ∧ decode x.port x.word = .ok i :=
  ⟨waiting, _, _, .noteOn 0 64 100, by decide, rfl, by decide⟩

theorem witness_StepWithoutACommandHoldsOrRefuses :
    (∃ s : State, s.cfg.legal = true ∧ s.input = []) ∧ (∃ s : State, s.cfg.legal = false) :=
  ⟨⟨fresh, by decide, rfl⟩, ⟨{ fresh with cfg := Params.reference 0 2 }, by decide⟩⟩

theorem witness_ResetMeetsTheInvariants :
    (Params.reference 2 1).legal = true ∧ ({ Params.reference 1 1 with nbanks := 128 } : Params).legal = true := by decide

theorem witness_EveryStepCompletesWellShaped : ∃ s : State, s.Shaped ∧ s.input ≠ [] :=
  ⟨waiting, waiting_shaped, by decide⟩

theorem witness_StepKeepsImagesTheFoldOfTheTrace : ∃ s t : State, s.ImagesFromTrace ∧ step s = .next t :=
  ⟨waiting, _, rfl, rfl⟩

theorem witness_StepKeepsBracketsClosedAndLocksFree :
    ∃ s t : State, bracketed s.out ∧ s.Unlocked ∧ 0 < s.lock.length ∧ step s = .next t :=
  ⟨waiting, _, rfl, fresh_unlocked, by decide, rfl⟩

theorem witness_StepAddressesOnlyWhatExists :
    ∃ s t : State, s.Shaped ∧ (∀ e ∈ s.out, Event.fits s.cfg e) ∧ step s = .next t :=
  ⟨waiting, _, waiting_shaped, (by intro e he; cases he), rfl⟩

/-- Only slot 0 of `half` is Held. -/
theorem half_held (i : Nat) (v : Voice) (hv : half.vs[i]? = some v) (h : v.inuse = true) : i = 0 :=
  forall_two (P := fun i v => v.inuse = true → i = 0) (fun _ => rfl) (fun h => absurd h (by decide)) i v hv h

theorem half_unique : half.UniqueVoices :=
  fun i j v w hv hw h1 h2 _ _ => (half_held i v hv h1).trans (half_held j w hw h2).symm

theorem witness_StepKeepsVoicesUnique :
    ∃ s t : State, s.cfg.fullReuseScan = true ∧ s.UniqueVoices ∧ step s = .next t :=
  ⟨waiting, _, rfl, half_unique, rfl⟩

theorem witness_StepKeepsStampsDistinct :
    ∃ s t : State, s.tick.toNat + 2 ^ 24 < 2 ^ 64 ∧ s.StampsDistinct ∧ step s = .next t := by
  refine ⟨waiting, _, by decide, ⟨?_, ?_⟩, rfl⟩
  · exact forall_two (P := fun _ v => v.inuse = true → v.last.toNat < waiting.tick.toNat) (fun _ => by decide)
      (fun h => absurd h (by decide))
  · exact fun i j v w hv hw h1 h2 _ => (half_held i v hv h1).trans (half_held j w hw h2).symm

theorem witness_StepKeepsHeldListForPedal : ∃ s t : State, s.HeldNeedsPedal ∧ step s = .next t :=
  ⟨waiting, _, by unfold State.HeldNeedsPedal; decide, rfl⟩

theorem witness_CommandBracketsAreBounded : ∃ (i : Instr) (s t : State), s.Shaped ∧ exec i s = .next t :=
  ⟨.cc 0 64 0, pedal, _, pedal_shaped, rfl⟩

theorem witness_OnlyNotesAndTickAdvMoveTheTick : ∃ (i : Instr) (s t : State), exec i s = .next t :=
  ⟨.gmReset, half, _, rfl⟩

theorem witness_RealTimeCommandsLeaveHostStateAlone :
    ∃ (i : Instr) (s t : State), i.port = .realTime ∧ exec i s = .next t := ⟨.gmReset, half, _, rfl, rfl⟩

theorem witness_HostCommandsLeaveTheImagesAlone : ∃ i : Instr, i.port = .host := ⟨.patchDefine 0 5, rfl⟩

theorem witness_ImageWriteReadsBack : Memory.wf [(0x10, 1), (0x20, 2)] := by decide

theorem witness_PatchWriteSetsExactlyItsByte :
    ([0x00, 0x0F, 0x10, 0x17, 0x18, 0x1B, 0x1C, 0x1F, 0x20, 0x3F, 0x40] : List Nat).all namesField = true ∧
    ([0x1D, 0x1E, 0x41, 0xFF] : List Nat).all (fun ra => !namesField ra) = true := by decide

theorem witness_EncodedImageScalesOnlyCarrierVolumes :
    (scaledPatch.mm.toNat = (2 : Fin 13).val ∧ (oneScale.get 2).get 0 = true) ∧
    (scaledPatch.mm.toNat = (2 : Fin 13).val ∧ (oneScale.get 2).get 1 = false) ∧
    (Patch.loadDefaults.mm.toNat = (4 : Fin 13).val ∧ (oneScale.get 4).get 7 = false) ∧
    13 ≤ ({ scaledPatch with mm := 13 } : Patch).mm.toNat := by decide

theorem witness_ScaledVolumeEndsAreExact :
    (scaledPatch.mm.toNat = (2 : Fin 13).val ∧ (oneScale.get 2).get 0 = true) ∧
    13 ≤ ({ scaledPatch with mm := 255 } : Patch).mm.toNat ∧
    (∃ mm : Fin 13, scaledPatch.mm.toNat = mm.val ∧ (oneScale.get mm).get 1 = false) :=
  ⟨by decide, by decide, 2, by decide, by decide⟩

/-- Bank 0 with program 5 defined. -/
def bankWithFive : Bank := (Vector.replicate 128 Patch.blank).set 5 Patch.loadDefaults

/-- Program 5 is defined in bank 0 alone. -/
def loaded : State :=
  { fresh with
    pb := [bankWithFive, Vector.replicate 128 Patch.blank]
    po := [bankWithFive, Vector.replicate 128 Patch.blank]
    hp := some (0, 5) }

theorem loaded_shaped : loaded.Shaped :=
  { fresh_shaped with
    live := rfl
    originals := rfl
    pointer := by intro x h; cases h; decide }

theorem witness_EffectivePatchFallsBackToBankZero :
    loaded.Shaped ∧ loaded.pb[0]? = some bankWithFive ∧ (bankWithFive.get 5).defined = true ∧
    (bankWithFive.get 0).defined = false ∧ (bankWithFive.get 127).defined = false ∧
    (∃ k : Bank, loaded.pb[(1 : Int).toNat]? = some k ∧ (k.get 5).defined = false) ∧
    ((loaded.cfg.nbanks : Int) ≤ 2 ∧ (1 : Int) < loaded.cfg.nbanks) :=
  ⟨loaded_shaped, rfl, by decide, by decide, by decide, ⟨_, rfl, by decide⟩, by decide, by decide⟩

theorem witness_NoteOffOnADrumChannelDoesNothing :
    isDrum fresh 9 ∧ isDrum { fresh with drumset := 0x8200 } 15 ∧ isDrum { fresh with drumset := 0x0201 } 0 := by
  unfold isDrum; decide

theorem witness_NoteOffWithPedalDownOnlyHolds : ∃ (s : State) (c : Chan), ¬ isDrum s c ∧ (s.chan c).sus = true :=
  ⟨pedal, 0, by unfold isDrum; decide, by decide⟩

theorem witness_NoteOffReleasesTheFirstMatchingVoice : ∃ (s : State) (c : Chan) (n : Data) (i : Nat) (v : Voice),
    s.Shaped ∧ s.Unlocked ∧ ¬ isDrum s c ∧ (s.chan c).sus = false ∧ s.vs[i]? = some v ∧
    Sounds v c (adjusted s c n) ∧
    (∀ (j : Nat) (w : Voice), j < i → s.vs[j]? = some w → ¬ Sounds w c (adjusted s c n)) := by
  refine ⟨full, 0, 64, 1, ⟨true, 64, 0, 100, 200, 1⟩, full_shaped, fresh_unlocked, by unfold isDrum; decide, by decide,
    rfl, by unfold Sounds; decide +kernel, ?_⟩
  intro j w hj h
  exact forall_two (P := fun j w => j < 1 → ¬ Sounds w 0 (adjusted full 0 64))
    (fun _ => by unfold Sounds; decide +kernel) (fun h => absurd h (by decide)) j w h hj

theorem witness_OrphanNoteOffDoesNothing : ∃ (s : State) (c : Chan) (n : Data), ¬ isDrum s c ∧ (s.chan c).sus = false ∧
    (∀ (j : Nat) (w : Voice), s.vs[j]? = some w → ¬ Sounds w c (adjusted s c n)) :=
  ⟨full, 0, 67, by unfold isDrum; decide, by decide,
    forall_two (by unfold Sounds; decide +kernel) (by unfold Sounds; decide +kernel)⟩

theorem witness_DrumNoteWithoutSampleDoesNothing : ∃ (s : State) (c : Chan) (n : Data), isDrum s c ∧
    (∀ e ∈ s.cfg.keymap, ¬ (e.chan = 9 ∧ e.note = n)) :=
  ⟨drums, 9, 41, by unfold isDrum; decide, by decide⟩

theorem witness_DrumNoteReusesItsSlot : ∃ (s : State) (c : Chan) (n : Data) (e : KeyEntry) (d : Nat) (v : Drum),
    s.Shaped ∧ s.Unlocked ∧ isDrum s c ∧ s.cfg.keymap.find? (fun e => e.chan == 9 && e.note == n) = some e ∧
    s.ds[d]? = some v ∧ (v.inuse = true ∧ v.chan = c ∧ v.note = n) ∧
    (∀ (j : Nat) (w : Drum), j < d → s.ds[j]? = some w → ¬ (w.inuse = true ∧ w.chan = c ∧ w.note = n)) := by
  refine ⟨drums, 9, 36, _, 1, _, drums_shaped, fresh_unlocked, by unfold isDrum; decide, rfl, rfl, by decide, ?_⟩
  intro j w hj h
  exact forall_four (P := fun j w => j < 1 → ¬ (w.inuse = true ∧ w.chan = 9 ∧ w.note = 36))
    (fun _ => by decide) (fun h => absurd h (by decide)) (fun h => absurd h (by decide))
    (fun h => absurd h (by decide)) j w h hj

theorem witness_DrumNoteTakesTheCursorSlot : ∃ (s : State) (c : Chan) (n : Data) (e : KeyEntry),
    s.Shaped ∧ s.Unlocked ∧ isDrum s c ∧ s.cfg.keymap.find? (fun e => e.chan == 9 && e.note == n) = some e ∧
    (∀ (j : Nat) (w : Drum), s.ds[j]? = some w → ¬ (w.inuse = true ∧ w.chan = c ∧ w.note = n)) :=
  ⟨drums, 9, 40, _, drums_shaped, fresh_unlocked, by unfold isDrum; decide, rfl,
    forall_four (by decide) (by decide) (by decide) (by decide)⟩

theorem witness_NoteOnReusesTheMatchingVoice : ∃ (s : State) (c : Chan) (n : Data) (i : Nat) (v : Voice),
    s.Shaped ∧ s.Unlocked ∧ ¬ isDrum s c ∧ (s.cfg.fullReuseScan = true ∨ i = 0) ∧ s.vs[i]? = some v ∧
    Sounds v c (adjusted s c n) ∧
    (∀ (j : Nat) (w : Voice), j < i → s.vs[j]? = some w → ¬ Sounds w c (adjusted s c n)) := by
  refine ⟨full, 0, 64, 1, ⟨true, 64, 0, 100, 200, 1⟩, full_shaped, fresh_unlocked, by unfold isDrum; decide, .inl rfl,
    rfl, by unfold Sounds; decide +kernel, ?_⟩
  intro j w hj h
  exact forall_two (P := fun j w => j < 1 → ¬ Sounds w 0 (adjusted full 0 64))
    (fun _ => by unfold Sounds; decide +kernel) (fun h => absurd h (by decide)) j w h hj

theorem witness_NoteOnTakesTheFirstFreeVoice : ∃ (s : State) (c : Chan) (n : Data) (i : Nat) (v : Voice),
    s.Shaped ∧ s.Unlocked ∧ ¬ isDrum s c ∧
    (∀ (j : Nat) (w : Voice), (s.cfg.fullReuseScan = true ∨ j = 0) → s.vs[j]? = some w →
      ¬ Sounds w c (adjusted s c n)) ∧
    s.vs[i]? = some v ∧ v.inuse = false ∧ (∀ (j : Nat) (w : Voice), j < i → s.vs[j]? = some w → w.inuse = true) := by
  refine ⟨half, 0, 64, 1, Voice.free, half_shaped, fresh_unlocked, by unfold isDrum; decide, ?_, rfl, rfl, ?_⟩
  · intro j w _
    exact forall_two (P := fun _ w => ¬ Sounds w 0 (adjusted half 0 64)) (by unfold Sounds; decide +kernel) (by unfold Sounds; decide +kernel) j w
  · intro j w hj h
    exact forall_two (P := fun j w => j < 1 → w.inuse = true) (fun _ => rfl) (fun h => absurd h (by decide)) j w h hj

theorem witness_NoteOnStealsTheOldestVoice : ∃ (s : State) (c : Chan) (n : Data) (i : Nat) (v : Voice),
    s.Shaped ∧ s.Unlocked ∧ ¬ isDrum s c ∧
    (∀ (j : Nat) (w : Voice), (s.cfg.fullReuseScan = true ∨ j = 0) → s.vs[j]? = some w →
      ¬ Sounds w c (adjusted s c n)) ∧
    (∀ w ∈ s.vs, w.inuse = true) ∧ s.vs[i]? = some v ∧
    (∀ (j : Nat) (w : Voice), s.vs[j]? = some w → v.last.toNat ≤ w.last.toNat ∧
      (j < i → v.last.toNat < w.last.toNat)) := by
  refine ⟨full, 1, 67, 0, ⟨true, 60, 0, 100, 200, 0⟩, full_shaped, fresh_unlocked, by unfold isDrum; decide, ?_,
    by decide, rfl, forall_two (by decide) (by decide)⟩
  intro j w _
  exact forall_two (P := fun _ w => ¬ Sounds w 1 (adjusted full 1 67)) (by unfold Sounds; decide +kernel) (by unfold Sounds; decide +kernel) j w

theorem witness_NoteOnAlwaysGetsAVoice : ∃ (s : State) (c : Chan), s.vs ≠ [] ∧ ¬ isDrum s c :=
  ⟨full, 8, by decide, by unfold isDrum; decide⟩

theorem witness_NoteOnClearsTheGateBeforeSettingIt : ∃ (s : State) (c : Chan), s.Shaped ∧ ¬ isDrum s c :=
  ⟨full, 10, full_shaped, by unfold isDrum; decide⟩

theorem witness_PlainControllerOnlyStores :
    (∀ ctrl ∈ ([1, 5, 8, 9, 12, 32, 63, 65, 99, 102, 119, 121, 122, 124, 127] : List Data),
      ctrl.toNat ∉ [0, 6, 7, 10, 11, 64, 100, 101, 120, 123]) ∧ (1 : Data) ≠ 0 ∧ (127 : Data) ≠ 0 := by decide

/-- A channel whose RPN latch is (m, l). -/
def latched (m l : Data) : State := { fresh with ch := fresh.ch.set 0 { Channel.atReset with rpnMsb := m, rpnLsb := l } }

theorem witness_DataEntrySetsTheLatchedParameter :
    (((latched 0 0).chan 0).rpnMsb = 0 ∧ ((latched 0 0).chan 0).rpnLsb = 0) ∧
    (((latched 0 1).chan 0).rpnMsb = 0 ∧ ((latched 0 1).chan 0).rpnLsb = 1) ∧
    (((latched 0 2).chan 0).rpnMsb = 0 ∧ ((latched 0 2).chan 0).rpnLsb = 2) ∧
    3 ≤ ((latched 0 3).chan 0).rpnLsb.toNat ∧ ((latched 1 0).chan 0).rpnMsb ≠ 0 := by decide

theorem witness_VolumeControllersRefreshVolumes : ∃ (s : State) (c : Chan) (ctrl : Data),
    s.Shaped ∧ s.Unlocked ∧ (ctrl = 7 ∨ ctrl = 11) ∧ ∃ v ∈ s.vs, v.inuse = true ∧ v.chan = c :=
  ⟨half, 0, 11, half_shaped, fresh_unlocked, .inr rfl, by decide⟩

theorem witness_PanControllerRewritesPanThenVolumes : ∃ (s : State) (c : Chan),
    s.Shaped ∧ s.Unlocked ∧ ∃ v ∈ s.vs, v.inuse = true ∧ v.chan = c :=
  ⟨full, 0, full_shaped, fresh_unlocked, by decide⟩

theorem witness_PedalWithoutReleaseEdgeOnlySetsTheFlag :
    (fresh.chan 0).sus = false ∧ ((pedal.chan 0).sus = true ∧ 64 ≤ (64 : Data).toNat) := by decide

theorem witness_PedalReleaseFreesExactlyTheHeldNotes : ∃ (s : State) (c : Chan) (v : Data),
    s.Shaped ∧ s.Unlocked ∧ s.UniqueVoices ∧ (s.chan c).sus = true ∧ v.toNat < 64 ∧
    (∃ (w : Voice) (n : Data), s.vs[0]? = some w ∧ (s.chan c).held.getLsbD n.toNat = true ∧
      Sounds w c (adjusted s c n)) :=
  ⟨pedal, 0, 63, pedal_shaped, fresh_unlocked, half_unique, by decide, by decide, _, 60, rfl, by decide,
    by unfold Sounds; decide +kernel⟩

theorem witness_SoundOffSilencesTheChannel : ∃ (s : State) (c : Chan) (ctrl : Data),
    s.Shaped ∧ s.Unlocked ∧ (ctrl = 120 ∨ ctrl = 123) ∧ ∃ v ∈ s.ds, v.inuse = true ∧ v.chan = c :=
  ⟨drums, 9, 123, drums_shaped, fresh_unlocked, .inr rfl, by decide⟩

theorem witness_BendRetunesBothPools : ∃ (s : State) (c : Chan),
    s.Shaped ∧ s.Unlocked ∧ ∃ v ∈ s.ds, v.inuse = true ∧ v.chan = c :=
  ⟨drums, 0, drums_shaped, fresh_unlocked, by decide⟩

theorem witness_GmResetSilencesAndRestores : ∃ s : State, s.Shaped ∧ s.Unlocked ∧ ∃ v ∈ s.vs, v.inuse = true :=
  ⟨half, half_shaped, fresh_unlocked, by decide⟩

theorem witness_DrumPartAddsTheMappedChannel : fresh.drumset.getLsbD 9 = true ∧
    ((0 : Data) = 0 ∧ (0x0F : Data).toNat < 0x10 ∧ 0x1F < (0x20 : Data).toNat) ∧
    (∀ part ∈ ([0x10, 0x11, 0x19, 0x1A, 0x1F] : List Data),
      (1 : Data) ≠ 0 ∧ 0x10 ≤ part.toNat ∧ part.toNat ≤ 0x1F) := by decide

theorem witness_PatchOverrideWritesOneLiveField : ∃ (s : State) (z : Bank), s.Shaped ∧ s.pb[0]? = some z ∧
    namesField (0x40 : Data).toNat = true ∧ namesField (0x41 : Data).toNat = false ∧
    namesField (0x1D : Data).toNat = false ∧ (z.get 5).defined = true ∧ (z.get 6).defined = false :=
  ⟨loaded, bankWithFive, loaded_shaped, rfl, by decide, by decide, by decide, by decide, by decide⟩

theorem witness_BankClearUndefinesTheBank : loaded.Shaped ∧ loaded.cfg.nbanks ≤ (2 : Data).toNat ∧
    (1 : Data).toNat < loaded.cfg.nbanks ∧ loaded.hp = some (0, 5) ∧ (∀ p, loaded.hp ≠ some (1, p)) :=
  ⟨loaded_shaped, by decide, by decide, rfl, by intro p h; cases h⟩

/-- The same store under the other reading of an absent bank (log 23). -/
def loadedQuiet : State := { loaded with cfg := { loaded.cfg with absentDefineClearsPointer := false } }

theorem loadedQuiet_shaped : loadedQuiet.Shaped := { loaded_shaped with legal := by decide }

theorem test_patchDefine_other_reading : (after (.patchDefine 5 0) loadedQuiet).hp = some (0, 5) := by decide

theorem witness_PatchDefineSetsLoadDefaults :
    (loaded.Shaped ∧ loaded.cfg.nbanks ≤ (2 : Data).toNat ∧ loaded.cfg.absentDefineClearsPointer = true) ∧
    (loadedQuiet.Shaped ∧ loadedQuiet.cfg.nbanks ≤ (2 : Data).toNat ∧
      loadedQuiet.cfg.absentDefineClearsPointer = false) ∧
    ∃ (k o : Bank), loaded.pb[(1 : Data).toNat]? = some k ∧ loaded.po[(1 : Data).toNat]? = some o :=
  ⟨⟨loaded_shaped, by decide, rfl⟩, ⟨loadedQuiet_shaped, by decide, rfl⟩, _, _, rfl, rfl⟩

theorem witness_PatchFieldWritesBothCopies :
    (fresh.Shaped ∧ fresh.hp = none ∧ namesField (0x1E : Byte).toNat = false) ∧
    ∃ (s : State) (b p : Data) (k o : Bank), s.Shaped ∧ s.hp = some (b, p) ∧ namesField (0x1F : Byte).toNat = true ∧
      s.pb[b.toNat]? = some k ∧ s.po[b.toNat]? = some o :=
  ⟨⟨fresh_shaped, rfl, by decide⟩, loaded, 0, 5, _, _, loaded_shaped, rfl, by decide, rfl, rfl⟩

theorem witness_PatchReadAnswersTheLivePatch : loaded.Shaped ∧ loaded.cfg.nbanks ≤ (2 : Data).toNat ∧
    loaded.pb[(0 : Data).toNat]? = some bankWithFive ∧ (bankWithFive.get (5 : Data).toFin).defined = true ∧
    (bankWithFive.get (127 : Data).toFin).defined = false :=
  ⟨loaded_shaped, by decide, rfl, by decide, by decide⟩

theorem witness_ScriptsAssembleToTheirExpansion :
    (assemble [.load 0 [{ program := 5, modmode := some 2, operators := [{ frequency := some 256 }] }],
      .bendRange 0 12, .noteOn 0 60 100]).isSome = true ∧
    ({ program := 127, keyShift := some (-128), operators := List.replicate 8 { waveform := some 255 } } :
      PatchEntry).wellFormed = true := by decide

end Sys2Proof.Tests
end

/-! # The decoder and the opcode map (30_encoding.md R100, R101) -/

namespace Sys2Proof

/-- The opcode byte, put back in its place, is what the upper eight mask bits leave of a word (R90). -/
theorem and_opMask (w : Word) : w &&& 0xFF000000#32 = opField w ++ 0#24 := by
  apply BitVec.eq_of_getLsbD_eq; intro i hi
  simp only [opField, BitVec.getLsbD_and, BitVec.getLsbD_append, BitVec.getLsbD_extractLsb']
  interval_cases i <;> simp

/-- What a row with these must-be-zero bits sees of a word in which they are zero is the opcode alone (R100, R101). -/
theorem and_rowMask {w zeros : Word} (hz : w &&& zeros = 0) : w &&& (0xFF000000#32 ||| zeros) = opField w ++ 0#24 := by
  rw [BitVec.and_or_distrib_left, and_opMask, hz, BitVec.ofNat_eq_ofNat, BitVec.or_zero]

/-- One arm of the decoder against its row of R100: where the row's mask is the arm's opcode byte and must-be-zero bits,
a word the arm accepts is admitted by the table. -/
theorem wordWellFormed_of_accept {p q : Port} {w zeros : Word} {i j : Instr} {op : Nat}
    (hop : (opField w).toNat = op)
    (hrow : ∃ r ∈ opcodeTable, r.port = q ∧ r.mask = 0xFF000000#32 ||| zeros ∧ r.bits = BitVec.ofNat 8 op ++ 0#24)
    (h : accept p q w zeros i = .ok j) : wordWellFormed p w = true := by
  obtain ⟨rfl, hz, -⟩ := accept_eq_ok_iff.mp h
  obtain ⟨r, hr, hport, hmask, hbits⟩ := hrow
  have hw : w &&& r.mask = r.bits := by
    rw [hmask, and_rowMask hz, hbits, ← hop, BitVec.ofNat_toNat, BitVec.setWidth_eq]
  exact List.any_eq_true.mpr ⟨r, hr, by simp [Row.admits, hport, hw]⟩

/-- What decodes is a row of the opcode map on its port (R100), arm by arm. -/
theorem wordWellFormed_of_decode {p : Port} {w : Word} {i : Instr} (h : decode p w = .ok i) :
    wordWellFormed p w = true := by
  unfold decode at h
  split at h
  case h_15 => cases h
  all_goals next hop => exact wordWellFormed_of_accept hop (by decide) h

/-- A word that no row of the opcode map admits is reserved (R101). -/
theorem decode_eq_error_of_not_wordWellFormed {p : Port} {w : Word} (h : wordWellFormed p w = false) :
    ∃ r, decode p w = .error r := by
  cases hd : decode p w with
  | error r => exact ⟨r, rfl⟩
  | ok i => rw [wordWellFormed_of_decode hd] at h; cases h

end Sys2Proof

namespace Sys2Proof.Machine

/-! ## The step on a presented word -/

/-- A step takes the next word and runs it (R24). -/
theorem step_eq_runWord {s : State} {x : PortWord} {rest : List PortWord} (hl : s.cfg.legal = true)
    (hi : s.input = x :: rest) : step s = runWord x { s with input := rest } := by
  simp [step, State.fetch, hl, hi]

/-- A reserved word runs as one warning (R101). -/
theorem runWord_of_error {x : PortWord} {r : Reserved} (h : decode x.port x.word = .error r) (s : State) :
    runWord x s = .next (s.unknownWord x.word) := by
  simp [runWord, h]

/-- A warning acts on no image and no lock: it is an event of the trace alone (R15). -/
theorem State.unknownWord_eq (s : State) (w : Word) :
    s.unknownWord w = { s with out := s.out ++ [.warn (.unknownCmd w)] } := rfl

/-- Settles O4: a word outside the table does not decode, and running it is the warning. -/
theorem reservedWordOnlyWarns : Obligations.ReservedWordOnlyWarns := by
  intro s x rest hl hi hw
  obtain ⟨r, hr⟩ := decode_eq_error_of_not_wordWellFormed hw
  rw [step_eq_runWord hl hi, runWord_of_error hr, State.unknownWord_eq]

/-! ## Controllers without a special meaning -/

/-- A controller that R223 to R229 do not name does nothing after its value is stored (R230). -/
theorem State.control_of_plain {ctrl : Data} (h : ctrl.toNat ∉ [0, 6, 7, 10, 11, 64, 100, 101, 120, 123]) (s : State)
    (c : Chan) (v : Data) : s.control c ctrl v = s := by
  unfold State.control
  split
  case h_11 => rfl
  all_goals next hc => simp [hc] at h

/-- CC120 and CC123 silence only with value 0 (R229). -/
theorem State.soundOff_of_ne_zero {v : Data} (h : v ≠ 0) (s : State) (c : Chan) : s.soundOff c v = s := if_neg h

/-- CC is the store and then the controller's own effect (R222). -/
theorem exec_cc (s : State) (c : Chan) (ctrl v : Data) :
    exec (.cc c ctrl v) s = .next ((Claims.stored s c ctrl v).control c ctrl v) := rfl

/-- Settles O41: of the two kinds of controller, the unnamed ones have no effect after the store, and 120 and 123 only
the sweep that a value other than 0 withholds. -/
theorem plainControllerOnlyStores : Obligations.PlainControllerOnlyStores := by
  intro s c ctrl v h
  rw [exec_cc]
  congr 1
  rcases h with hplain | ⟨rfl | rfl, hv⟩
  · exact State.control_of_plain hplain _ c v
  · exact State.soundOff_of_ne_zero hv _ c
  · exact State.soundOff_of_ne_zero hv _ c

end Sys2Proof.Machine

namespace Sys2Proof.Machine

/-! ## The bytes of the encoded image -/

/-- Operator `i` of the eight is the patch's own entry `i`. -/
@[simp] theorem Patch.opAt_val (P : Patch) (i : Fin 8) : Patch.opAt P i.val = P.op.get i := by
  simp [Patch.opAt]

/-- A modmode of the table is looked up in its row (R123). -/
theorem scales_of_row {mm : Byte} {row : Fin 13} (h : mm.toNat = row.val) (vsm : Vector (Vector Bool 8) 13)
    (i : Fin 8) : scales vsm mm i.val = (vsm.get row).get i := by
  have hlt : mm.toNat < 13 := h ▸ row.isLt
  have hrow : vsm[mm.toNat] = vsm.get row := by simp only [h]; rfl
  simp [scales, hlt, hrow]

/-- A modmode above the table scales no operator (R123). -/
theorem scales_of_noRow {mm : Byte} (h : 13 ≤ mm.toNat) (vsm : Vector (Vector Bool 8) 13) (i : Nat) :
    scales vsm mm i = false := dif_neg (Nat.not_lt.mpr h)

/-- The product of two bytes over 255 is a byte again, so `opvol` drops no bit. -/
theorem byte_mul_div_lt (v m : Byte) : v.toNat * m.toNat / 255 < 256 := by
  have hprod : v.toNat * m.toNat ≤ 255 * 255 :=
    Nat.mul_le_mul (Nat.le_of_lt_succ v.isLt) (Nat.le_of_lt_succ m.isLt)
  omega

/-- The volume of a scaled operator (R123). -/
theorem opVol_of_scales {vsm : Vector (Vector Bool 8) 13} {P : Patch} {i : Fin 8} (h : scales vsm P.mm i.val = true)
    (m : Byte) : (opVol vsm P m i.val).toNat = (P.op.get i).vol.toNat * m.toNat / 255 := by
  rw [opVol, if_pos h, Patch.opAt_val, BitVec.toNat_ofNat, Nat.mod_eq_of_lt (byte_mul_div_lt _ m)]

/-- The volume of an operator that is not scaled (R123). -/
theorem opVol_of_not_scales {vsm : Vector (Vector Bool 8) 13} {P : Patch} {i : Fin 8}
    (h : scales vsm P.mm i.val = false) (m : Byte) : opVol vsm P m i.val = (P.op.get i).vol := by
  simp [opVol, h]

/-- The eight volume bytes are `opvol` of their operators (R122). -/
theorem encodeByte_volume (vsm : Vector (Vector Bool 8) 13) (P : Patch) (m : Byte) (i : Fin 8) :
    encodeByte vsm P m (0x10 + i.val) = opVol vsm P m i.val := by
  rw [encodeByte, if_pos (by omega), Nat.add_sub_cancel_left]

/-- Every other byte is the patch's own (R122, R124, R125). -/
theorem encodeByte_of_not_volume {a : Nat} (h : a < 0x10 ∨ 0x17 < a) (vsm : Vector (Vector Bool 8) 13) (P : Patch)
    (m : Byte) : encodeByte vsm P m a = Patch.byteAt P a := if_neg (by omega)

/-- Settles O23: the volume bytes by the three outcomes of the table lookup, all others by the patch's own byte. -/
theorem encodedImageScalesOnlyCarrierVolumes : Obligations.EncodedImageScalesOnlyCarrierVolumes := by
  intro vsm P m
  refine ⟨rfl, fun a ha => encodeByte_of_not_volume ha vsm P m, encodeByte_of_not_volume (by decide) vsm P m,
    encodeByte_of_not_volume (by decide) vsm P m, ?scaled, ?unscaled, ?noRow⟩
  case scaled =>
    intro i mm hmm ht
    rw [encodeByte_volume, opVol_of_scales ((scales_of_row hmm vsm i).trans ht)]
  case unscaled =>
    intro i mm hmm hf
    rw [encodeByte_volume, opVol_of_not_scales ((scales_of_row hmm vsm i).trans hf)]
  case noRow =>
    intro i hmm
    rw [encodeByte_volume, opVol_of_not_scales (scales_of_noRow hmm vsm i.val)]

/-! ## Patch lookup -/

/-- The live patch of an existing bank is its entry for the program (R37). -/
theorem State.livePatch_of_bank {s : State} {b : Int} {k : Bank} (hs : s.Shaped) (hb : 0 ≤ b)
    (hk : s.pb[b.toNat]? = some k) (q : Fin 128) : s.livePatch b q.val = some (k.get q) := by
  have hlt : b.toNat < s.cfg.nbanks := hs.live ▸ (List.getElem?_eq_some_iff.mp hk).1
  have hrange : 0 ≤ b ∧ b < s.cfg.nbanks ∧ 0 ≤ (q.val : Int) ∧ (q.val : Int) ≤ 127 := by omega
  rw [State.livePatch, dif_pos hrange, hk]
  rfl

/-- A defined patch of an existing bank is found. -/
theorem State.definedPatch_of_defined {s : State} {b : Int} {k : Bank} {q : Fin 128} (hs : s.Shaped) (hb : 0 ≤ b)
    (hk : s.pb[b.toNat]? = some k) (hd : (k.get q).defined = true) : s.definedPatch b q.val = some (k.get q) := by
  simp [State.definedPatch, State.livePatch_of_bank hs hb hk, hd]

/-- An undefined patch of an existing bank is not found. -/
theorem State.definedPatch_of_undefined {s : State} {b : Int} {k : Bank} {q : Fin 128} (hs : s.Shaped) (hb : 0 ≤ b)
    (hk : s.pb[b.toNat]? = some k) (hd : (k.get q).defined = false) : s.definedPatch b q.val = none := by
  simp [State.definedPatch, State.livePatch_of_bank hs hb hk, hd]

/-- Outside the banks and programs nothing is defined (R37, R120). -/
theorem State.definedPatch_of_outside {s : State} {b p : Int} (h : b < 0 ∨ s.cfg.nbanks ≤ b ∨ p < 0 ∨ 127 < p) :
    s.definedPatch b p = none := by
  rw [State.definedPatch, State.livePatch, dif_neg (by omega)]
  rfl

/-- The first branch of `getEffective` (R120). -/
theorem State.getEffective_of_own {s : State} {b p : Int} {P : Patch} (h : s.definedPatch b p = some P) :
    s.getEffective b p = P := by
  simp [State.getEffective, h]

/-- The second branch of `getEffective`: the fallback to bank 0 (R120). -/
theorem State.getEffective_of_bankZero {s : State} {b p : Int} {P : Patch} (h : s.definedPatch b p = none)
    (hb : b ≠ 0) (hz : s.definedPatch 0 p = some P) : s.getEffective b p = P := by
  simp [State.getEffective, h, hb, hz]

/-- The last branch of `getEffective` (R120). -/
theorem State.getEffective_of_none {s : State} {b p : Int} (h : s.definedPatch b p = none)
    (hz : s.definedPatch 0 p = none) : s.getEffective b p = s.cfg.defaultPatch := by
  simp [State.getEffective, h, hz]

/-- Settles O25: each premise says what the lookups in the bank and in bank 0 find, which picks the branch. -/
theorem effectivePatchFallsBackToBankZero : Obligations.EffectivePatchFallsBackToBankZero := by
  intro s b p z hs hz
  refine ⟨?outside, ?program, fun _ => rfl⟩
  case outside =>
    intro hp
    exact State.getEffective_of_none (State.definedPatch_of_outside (by omega))
      (State.definedPatch_of_outside (by omega))
  case program =>
    rintro q rfl
    refine ⟨fun k hb hk hd => State.getEffective_of_own (State.definedPatch_of_defined hs hb hk hd),
      fun hmiss => ?_⟩
    have hown : s.definedPatch b q.val = none := by
      by_cases hb : b < 0
      · exact State.definedPatch_of_outside (.inl hb)
      · rcases hmiss with hneg | hbig | ⟨k, hk, hd⟩
        · exact absurd hneg hb
        · exact State.definedPatch_of_outside (.inr (.inl hbig))
        · exact State.definedPatch_of_undefined hs (by omega) hk hd
    constructor
    · intro hb hd
      exact State.getEffective_of_bankZero hown hb (State.definedPatch_of_defined hs le_rfl hz hd)
    · rintro (rfl | hd)
      · exact State.getEffective_of_none hown hown
      · exact State.getEffective_of_none hown (State.definedPatch_of_undefined hs le_rfl hz hd)

/-! ## Volume and pan -/

/-- The range law of the computed volume (R129). -/
theorem volume_quotient_le (v e w : Data) : v.toNat * e.toNat * w.toNat * 255 / (127 * 127 * 127) ≤ 255 := by
  have hprod : v.toNat * e.toNat * w.toNat ≤ 127 * 127 * 127 :=
    Nat.mul_le_mul (Nat.mul_le_mul (Nat.le_of_lt_succ v.isLt) (Nat.le_of_lt_succ e.isLt)) (Nat.le_of_lt_succ w.isLt)
  omega

/-- Settles O26: the range law makes both the clamp and the byte width idle. -/
theorem computedVolumeNeedsNoClamp : Obligations.ComputedVolumeNeedsNoClamp := by
  intro s vel c
  have hle := volume_quotient_le vel ((s.chan c).ctrl 11) ((s.chan c).ctrl 7)
  rw [State.cvol, BitVec.toNat_ofNat, Nat.min_eq_right hle, Nat.mod_eq_of_lt (Nat.lt_succ_of_le hle)]

/-- For a controller's value the rounded quotient fits the nibble, so no bit is dropped (R130). -/
theorem panNibble_toNat {x : Nat} (h : x ≤ 127) : (panNibble x).toNat = (2 * (x * 15) + 127) / (2 * 127) := by
  rw [panNibble, BitVec.toNat_ofNat, Nat.mod_eq_of_lt (by omega)]

/-- A pan nibble is strictly within one half of its quotient: `30 x + 127` is odd, so no tie occurs (R131). -/
theorem panNibble_nearest {x : Nat} (h : x ≤ 127) :
    (2 * ((panNibble x).toNat * 127 : Int) - 2 * (x * 15)).natAbs < 127 := by
  rw [panNibble_toNat h]
  omega

/-- The nibbles of a value and of its mirror image sum to 15 (R131). -/
theorem panNibble_add_mirror {x : Nat} (h : x ≤ 127) : (panNibble (127 - x)).toNat + (panNibble x).toNat = 15 := by
  rw [panNibble_toNat h, panNibble_toNat (Nat.sub_le 127 x)]
  omega

/-- The high nibble of the pan byte is the left one (R130). -/
theorem State.panByte_high (s : State) (c : Chan) :
    (s.panByte c).extractLsb' 4 4 = panNibble (127 - ((s.chan c).ctrl 10).toNat) :=
  BitVec.extractLsb'_append_eq_left

/-- The low nibble of the pan byte is the right one (R130). -/
theorem State.panByte_low (s : State) (c : Chan) :
    (s.panByte c).extractLsb' 0 4 = panNibble ((s.chan c).ctrl 10).toNat :=
  BitVec.extractLsb'_append_eq_right

/-- Settles O27: each nibble by the nearest-integer law, the right one at CC10 and the left one at its mirror image. -/
theorem panNibblesAreNearestAndSumToFifteen : Obligations.PanNibblesAreNearestAndSumToFifteen := by
  intro s c
  rw [State.panByte_high, State.panByte_low]
  have hle : ((s.chan c).ctrl 10).toNat ≤ 127 := Nat.le_of_lt_succ ((s.chan c).ctrl 10).isLt
  have hleft := panNibble_nearest (Nat.sub_le 127 ((s.chan c).ctrl 10).toNat)
  rw [Nat.cast_sub hle] at hleft
  exact ⟨panNibble_add_mirror hle, hleft, panNibble_nearest hle⟩

end Sys2Proof.Machine

namespace Sys2Proof.Machine

open Sys2Proof.Claims

/-! ## The bytes an operation leaves -/

/-- What an operation leaves in the images is what its events leave there. -/
theorem Acts.imgByte_eq {s t : State} {n : Nat} {es : List Event} (h : Acts s t n es) (k a : Nat) :
    t.imgByte k a = (s.emit es).imgByte k a := by
  simp [State.imgByte, h.img]

/-- A byte to which an operation writes one value only reads that value; its chip exists because the events are tidy. -/
theorem Acts.imgByte_of_wr {s t : State} {n k a : Nat} {v : Byte} {es : List Event} (h : Acts s t n es)
    (hs : s.Shaped) (hv : Event.wr k a v ∈ es) (honly : ∀ w, Event.wr k a w ∈ es → w = v) :
    t.imgByte k a = some v := by
  obtain ⟨hchip, -⟩ : k < s.cfg.nchips ∧ a < s.cfg.imgSize := h.tidy.fits hs _ hv
  rw [h.imgByte_eq, State.emit_imgByte s es k a (hs.images ▸ hchip), lastWrite_eq_of_unique hv honly, Option.some_or]

/-- A byte to which an operation writes nothing is unchanged. -/
theorem Acts.imgByte_of_not_wr {s t : State} {n k a : Nat} {es : List Event} (h : Acts s t n es)
    (hno : ∀ v, Event.wr k a v ∉ es) : t.imgByte k a = s.imgByte k a := by
  rw [h.imgByte_eq, State.emit_imgByte_of_none s es k a (lastWrite_eq_none_iff.mpr hno)]

/-- Over free locks an operation leaves the locks as they were (R46, R74). -/
theorem Acts.lock_of_unlocked {s t : State} {n : Nat} {es : List Event} (h : Acts s t n es) (hu : s.Unlocked) :
    t.lock = s.lock :=
  h.lock.trans (State.emit_lock_of_unlocked hu h.tidy.closed)

/-! ## Sweeps as the statements write them -/

/-- Skipping the elements that fail a test inside `flatMap` is filtering them out before it. -/
theorem flatMap_ite_eq_flatMap_filter {α β : Type} (p : α → Bool) (f : α → List β) (xs : List α) :
    xs.flatMap (fun x => if p x then f x else []) = (xs.filter p).flatMap f := by
  induction xs with
  | nil => rfl
  | cons x xs ih =>
    rw [List.flatMap_cons, ih, List.filter_cons]
    cases p x
    · rfl
    · rfl

/-- The model's sweep over the FM pool produces the events of the statements' sweep. -/
theorem voiceEvents_eq_sweep (vs : List Voice) (p : Voice → Bool) (ev : Nat → Voice → List Event) :
    voiceEvents vs p ev = sweep vs p ev :=
  flatMap_ite_eq_flatMap_filter _ _ vs.zipIdx

/-- The model's sweep over the drum pool produces the events of the statements' sweep. -/
theorem drumEvents_eq_sweep (ds : List Drum) (p : Drum → Bool) (ev : Nat → Drum → List Event) :
    drumEvents ds p ev = sweep ds p ev :=
  flatMap_ite_eq_flatMap_filter _ _ ds.zipIdx

/-! ## Silencing both pools (R159, R160, R197, R229, R233) -/

/-- The events of silencing an FM slot, as the statements write them out (R159). -/
theorem silenceEvents_eq (s : State) (i : Nat) : silenceEvents s.cfg i = silenceOf s i := rfl

/-- The events of silencing a drum slot, as the statements write them out (R197). -/
theorem silenceDrumEvents_eq (s : State) (d : Nat) : silenceDrumEvents s.cfg d = drumSilenceOf s d := rfl

/-- Silencing an FM slot writes 0, and to the slot's silenced bytes alone (R159). -/
theorem wr_mem_silenceOf {s : State} {i k x : Nat} {v : Byte} :
    Event.wr k x v ∈ silenceOf s i ↔ silencedAt s i k x ∧ v = 0 := by
  simp only [silenceOf, silencedAt, atVoice, atFreq, List.mem_append, List.mem_map, List.mem_range, List.mem_cons,
    List.not_mem_nil, or_false, Event.wr.injEq, reduceCtorEq, false_or, ← Nat.add_assoc]
  constructor
  · rintro (⟨j, hj, rfl, rfl, rfl⟩ | ⟨rfl, rfl, rfl⟩ | ⟨rfl, rfl, rfl⟩ | ⟨rfl, rfl, rfl⟩)
    · exact ⟨.inl ⟨j, hj, rfl, rfl⟩, rfl⟩
    · exact ⟨.inr (.inl ⟨rfl, .inl rfl⟩), rfl⟩
    · exact ⟨.inr (.inl ⟨rfl, .inr rfl⟩), rfl⟩
    · exact ⟨.inr (.inr ⟨rfl, rfl⟩), rfl⟩
  · rintro ⟨⟨j, hj, rfl, rfl⟩ | ⟨rfl, rfl | rfl⟩ | ⟨rfl, rfl⟩, rfl⟩
    · exact .inl ⟨j, hj, rfl, rfl, rfl⟩
    · exact .inr (.inl ⟨rfl, rfl, rfl⟩)
    · exact .inr (.inr (.inl ⟨rfl, rfl, rfl⟩))
    · exact .inr (.inr (.inr ⟨rfl, rfl, rfl⟩))

/-- Silencing a drum slot writes 0, and to the slot's three silenced bytes alone (R197). -/
theorem wr_mem_drumSilenceOf {s : State} {d k x : Nat} {v : Byte} :
    Event.wr k x v ∈ drumSilenceOf s d ↔ drumSilencedAt s d k x ∧ v = 0 := by
  simp only [drumSilenceOf, drumSilencedAt, atDrum, List.mem_cons, List.not_mem_nil, or_false, Event.wr.injEq,
    reduceCtorEq, false_or]
  constructor
  · rintro (⟨rfl, rfl, rfl⟩ | ⟨rfl, rfl, rfl⟩ | ⟨rfl, rfl, rfl⟩)
    · exact ⟨⟨2, by decide, rfl, rfl⟩, rfl⟩
    · exact ⟨⟨0, by decide, rfl, rfl⟩, rfl⟩
    · exact ⟨⟨1, by decide, rfl, rfl⟩, rfl⟩
  · rintro ⟨⟨a, ha, rfl, rfl⟩, rfl⟩
    interval_cases a
    · exact .inr (.inl ⟨rfl, rfl, rfl⟩)
    · exact .inr (.inr ⟨rfl, rfl, rfl⟩)
    · exact .inl ⟨rfl, rfl, rfl⟩

/-- The events of silencing every in-use slot of `p` and of `q`, FM first. -/
def silencings (s : State) (p : Voice → Bool) (q : Drum → Bool) : List Event :=
  sweep s.vs (fun v => v.inuse && p v) (fun i _ => silenceOf s i) ++
    sweep s.ds (fun x => x.inuse && q x) (fun d _ => drumSilenceOf s d)

/-- Silencing both pools does what its events say (R159, R197). -/
theorem acts_silencings (s : State) (p : Voice → Bool) (q : Drum → Bool) :
    Acts s ((s.silenceVoices p).silenceDrums q) (s.vs.length + s.ds.length) (silencings s p q) := by
  have hfm : Acts s (s.silenceVoices p) s.vs.length (voiceEvents s.vs (fun v => v.inuse && p v)
      (fun i _ => silenceEvents s.cfg i)) :=
    acts_sweepVoices (fun _ _ h => tidy_silenceEvents (fun hs => hs.voice_lt (lt_of_getElem?_some h)))
  have hdrum : Acts (s.silenceVoices p) ((s.silenceVoices p).silenceDrums q) s.ds.length
      (drumEvents s.ds (fun x => x.inuse && q x) (fun d _ => silenceDrumEvents s.cfg d)) :=
    acts_sweepDrums (s := s.silenceVoices p)
      (fun _ _ h => tidy_silenceDrumEvents (fun hs => hs.drum_lt (lt_of_getElem?_some h)))
  simp only [voiceEvents_eq_sweep, silenceEvents_eq] at hfm
  simp only [drumEvents_eq_sweep, silenceDrumEvents_eq] at hdrum
  exact hfm.trans hdrum

/-- A silenced byte is written with 0 alone, and no other byte is written. -/
theorem wr_mem_silencings {s : State} {p : Voice → Bool} {q : Drum → Bool} {k x : Nat} {b : Byte} :
    Event.wr k x b ∈ silencings s p q ↔ b = 0 ∧
      ((∃ (i : Nat) (v : Voice), s.vs[i]? = some v ∧ v.inuse = true ∧ p v = true ∧ silencedAt s i k x) ∨
        ∃ (d : Nat) (v : Drum), s.ds[d]? = some v ∧ v.inuse = true ∧ q v = true ∧ drumSilencedAt s d k x) := by
  rw [silencings, List.mem_append, ← voiceEvents_eq_sweep, ← drumEvents_eq_sweep, mem_voiceEvents, mem_drumEvents]
  simp only [wr_mem_silenceOf, wr_mem_drumSilenceOf, Bool.and_eq_true]
  constructor
  · rintro (⟨i, v, hv, ⟨huse, hp⟩, hat, rfl⟩ | ⟨d, v, hv, ⟨huse, hq⟩, hat, rfl⟩)
    · exact ⟨rfl, .inl ⟨i, v, hv, huse, hp, hat⟩⟩
    · exact ⟨rfl, .inr ⟨d, v, hv, huse, hq, hat⟩⟩
  · rintro ⟨rfl, ⟨i, v, hv, huse, hp, hat⟩ | ⟨d, v, hv, huse, hq, hat⟩⟩
    · exact .inl ⟨i, v, hv, ⟨huse, hp⟩, hat, rfl⟩
    · exact .inr ⟨d, v, hv, ⟨huse, hq⟩, hat, rfl⟩

/-- The bytes after silencing both pools: what is written is written with 0 alone, so the order of the slots does not
matter, and no disjointness of the regions is needed. -/
theorem silencedBytes_silenceDrums {s : State} (hs : s.Shaped) (p : Voice → Bool) (q : Drum → Bool) :
    SilencedBytes s ((s.silenceVoices p).silenceDrums q) p q := by
  have hacts := acts_silencings s p q
  have hzero : ∀ {k x : Nat}, Event.wr k x 0 ∈ silencings s p q →
      ((s.silenceVoices p).silenceDrums q).imgByte k x = some 0 :=
    fun hmem => hacts.imgByte_of_wr hs hmem (fun _ hw => (wr_mem_silencings.mp hw).1)
  refine ⟨?fm, ?drum, ?frame⟩
  case fm =>
    intro i v k x hv huse hp hat
    exact hzero (wr_mem_silencings.mpr ⟨rfl, .inl ⟨i, v, hv, huse, hp, hat⟩⟩)
  case drum =>
    intro d v k x hv huse hq hat
    exact hzero (wr_mem_silencings.mpr ⟨rfl, .inr ⟨d, v, hv, huse, hq, hat⟩⟩)
  case frame =>
    intro k x hfm hdrum
    refine hacts.imgByte_of_not_wr (fun b hb => ?_)
    rcases (wr_mem_silencings.mp hb).2 with ⟨i, v, hv, huse, hp, hat⟩ | ⟨d, v, hv, huse, hq, hat⟩
    · exact hfm i v hv huse hp hat
    · exact hdrum d v hv huse hq hat

/-- The state after silencing both pools: slots freed, trace and images by the events, every other field as it was. -/
theorem silenceVoices_silenceDrums_eq {s : State} (hu : s.Unlocked) (p : Voice → Bool) (q : Drum → Bool) :
    (s.silenceVoices p).silenceDrums q =
      { s with
        vs := s.vs.map (fun v => if v.inuse && p v then { v with inuse := false, note := 0 } else v)
        ds := s.ds.map (fun x => if x.inuse && q x then { x with inuse := false } else x)
        out := s.out ++ sweep s.vs (fun v => v.inuse && p v) (fun i _ => silenceOf s i) ++
          sweep s.ds (fun x => x.inuse && q x) (fun d _ => drumSilenceOf s d)
        img := ((s.silenceVoices p).silenceDrums q).img } := by
  have hacts := acts_silencings s p q
  have hout := hacts.out
  have hlock := hacts.lock_of_unlocked hu
  rw [silencings, ← List.append_assoc] at hout
  rw [← hout]
  conv_rhs => rw [← hlock]
  rfl

/-- CC120 and CC123 are the two sound-off controllers (R229). -/
theorem State.control_of_soundOff {ctrl : Data} (h : ctrl = 120 ∨ ctrl = 123) (s : State) (c : Chan) (v : Data) :
    s.control c ctrl v = s.soundOff c v := by
  rcases h with rfl | rfl <;> rfl

/-- With value 0 both pools are silenced on the channel, FM first (R160, R197, R229). -/
theorem State.soundOff_zero (s : State) (c : Chan) :
    s.soundOff c 0 = (s.silenceVoices (fun v => v.chan == c)).silenceDrums (fun x => x.chan == c) := if_pos rfl

/-- Settles O48: after the store the command is the silencing of both pools on the channel, and the store touches no
slot and no byte. -/
theorem soundOffSilencesTheChannel : Obligations.SoundOffSilencesTheChannel := by
  intro s c ctrl hs hu hctrl
  have hstored : (stored s c ctrl 0).Shaped := hs.modChan c _
  refine ⟨_, ?_, silenceVoices_silenceDrums_eq (s := stored s c ctrl 0) hu _ _, silencedBytes_silenceDrums hstored _ _⟩
  rw [exec_cc, State.control_of_soundOff hctrl, State.soundOff_zero]

end Sys2Proof.Machine

namespace Sys2Proof.Machine

open Sys2Proof.Claims

/-! ## NOTE_OFF on a drum channel (R199, R221) -/

/-- The model's test for a drum channel decides the predicate of the statements. -/
theorem State.isDrumChan_iff {s : State} {c : Chan} : s.isDrumChan c = true ↔ isDrum s c := by
  rw [State.isDrumChan, isDrum, Bool.or_eq_true, beq_iff_eq]

/-- NOTE_OFF is routed by the channel: nothing on a drum channel, else the FM pool's note-off (R199, R221). -/
theorem exec_noteOff (s : State) (c : Chan) (n b : Data) :
    exec (.noteOff c n b) s = .next (if s.isDrumChan c then s else s.noteOffFM c n) := rfl

/-- Settles O28: the routing takes the branch that leaves the state as it is. -/
theorem noteOffOnADrumChannelDoesNothing : Obligations.NoteOffOnADrumChannelDoesNothing := by
  intro s c n b hdrum
  rw [exec_noteOff, if_pos (State.isDrumChan_iff.mpr hdrum)]

end Sys2Proof.Machine

namespace Sys2Proof.Machine

open Sys2Proof.Claims

/-! ## Live refreshes of the channel's slots (R161, R162, R163, R196) -/

/-- The events of an operation are what its trace gained. -/
theorem Acts.of_out {s t : State} {n : Nat} {es fs : List Event} (h : Acts s t n es) (hout : t.out = s.out ++ fs) :
    Acts s t n fs := by
  rwa [List.append_cancel_left (hout.symm.trans h.out)]

/-- The events of a sweep, as the statements write it, are those of the slots that satisfy its test. -/
theorem mem_sweep {α : Type} {e : Event} {xs : List α} {p : α → Bool} {ev : Nat → α → List Event} :
    e ∈ sweep xs p ev ↔ ∃ (i : Nat) (x : α), xs[i]? = some x ∧ p x = true ∧ e ∈ ev i x := by
  simp only [sweep, List.mem_flatMap, List.mem_filter]
  constructor
  · rintro ⟨⟨x, i⟩, ⟨hx, hp⟩, he⟩
    exact ⟨i, x, List.mk_mem_zipIdx_iff_getElem?.mp hx, hp, he⟩
  · rintro ⟨i, x, hx, hp, he⟩
    exact ⟨(x, i), ⟨List.mk_mem_zipIdx_iff_getElem?.mpr hx, hp⟩, he⟩

/-- A bracket writes what its body writes. -/
theorem wr_mem_bracket {k x j : Nat} {v : Byte} {body : List Event} :
    Event.wr k x v ∈ bracket j body ↔ Event.wr k x v ∈ body := by
  simp [bracket]

/-- A 16-bit write is its high half at the address and its low half at the next (R13, R67). -/
theorem wr_mem_wr16 {k x j a : Nat} {v : Byte} {w : BitVec 16} :
    Event.wr k x v ∈ wr16 j a w ↔ ∃ h < 2, k = j ∧ x = a + h ∧ v = w.extractLsb' (8 - 8 * h) 8 := by
  simp only [wr16, List.mem_cons, List.not_mem_nil, or_false, Event.wr.injEq]
  constructor
  · rintro (⟨rfl, rfl, rfl⟩ | ⟨rfl, rfl, rfl⟩)
    · exact ⟨0, by decide, rfl, rfl, rfl⟩
    · exact ⟨1, by decide, rfl, rfl, rfl⟩
  · rintro ⟨h, hh, rfl, rfl, rfl⟩
    interval_cases h
    · exact .inl ⟨rfl, rfl, rfl⟩
    · exact .inr ⟨rfl, rfl, rfl⟩

theorem Voice.ownedBy_iff {c : Chan} {v : Voice} : Voice.ownedBy c v = true ↔ v.inuse = true ∧ v.chan = c := by
  rw [Voice.ownedBy, Bool.and_eq_true, beq_iff_eq]

theorem Drum.ownedBy_iff {c : Chan} {x : Drum} : Drum.ownedBy c x = true ↔ x.inuse = true ∧ x.chan = c := by
  rw [Drum.ownedBy, Bool.and_eq_true, beq_iff_eq]

/-- A sweep that updates no slot only produces its events. -/
theorem State.sweepVoices_id (s : State) (p : Voice → Bool) (ev : Nat → Voice → List Event) :
    s.sweepVoices p (fun v => v) ev = s.emit (sweep s.vs p ev) := by
  rw [← voiceEvents_eq_sweep]
  simp only [State.sweepVoices, ite_self, List.map_id']
  rfl

/-! ### Their events -/

/-- The events of `volumeRefreshFM(c)` (R161). -/
def volumeRefreshEvents (s : State) (c : Chan) : List Event :=
  sweep s.vs (Voice.ownedBy c) (fun i v => volumeEvents s.cfg (s.effective c) (s.cvol v.vel c) i)

/-- The events of `panRefreshFM(c)` (R162). -/
def panRefreshEvents (s : State) (c : Chan) : List Event :=
  sweep s.vs (Voice.ownedBy c)
    (fun i _ => bracket (chipOf s.cfg i) [.wr (chipOf s.cfg i) (vbase s.cfg i + 0x1D) (s.panByte c)])

/-- The events of `bendRefreshFM(c)` (R163). -/
def bendRefreshEvents (s : State) (c : Chan) : List Event :=
  sweep s.vs (Voice.ownedBy c)
    (fun i v => bracket (chipOf s.cfg i) (wr16 (chipOf s.cfg i) (nfaddr s.cfg i) (s.fword v.note c)))

/-- The events of `applyPitchBendDrum(c)` (R196). -/
def drumBendEvents (s : State) (c : Chan) : List Event :=
  sweep s.ds (Drum.ownedBy c)
    (fun d x => bracket (drumChip d) (wr16 (drumChip d) (dbase s.cfg d) (s.dword x.rate c)))

theorem acts_volumeRefreshEvents (s : State) (c : Chan) :
    Acts s (s.volumeRefreshFM c) s.vs.length (volumeRefreshEvents s c) := by
  obtain ⟨es, h⟩ := acts_volumeRefreshFM s c
  exact h.of_out (by rw [volumeRefreshEvents, ← voiceEvents_eq_sweep]; rfl)

theorem State.panRefreshFM_eq_emit (s : State) (c : Chan) : s.panRefreshFM c = s.emit (panRefreshEvents s c) :=
  State.sweepVoices_id s _ _

theorem acts_panRefreshEvents (s : State) (c : Chan) :
    Acts s (s.emit (panRefreshEvents s c)) s.vs.length (panRefreshEvents s c) := by
  obtain ⟨es, h⟩ := acts_panRefreshFM s c
  rw [State.panRefreshFM_eq_emit] at h
  exact h.of_out rfl

theorem State.bendRefreshFM_eq_emit (s : State) (c : Chan) : s.bendRefreshFM c = s.emit (bendRefreshEvents s c) :=
  State.sweepVoices_id s _ _

theorem acts_bendRefreshEvents (s : State) (c : Chan) :
    Acts s (s.emit (bendRefreshEvents s c)) s.vs.length (bendRefreshEvents s c) := by
  obtain ⟨es, h⟩ := acts_bendRefreshFM s c
  rw [State.bendRefreshFM_eq_emit] at h
  exact h.of_out rfl

theorem acts_drumBendEvents (s : State) (c : Chan) :
    Acts s (s.applyPitchBendDrum c) s.ds.length (drumBendEvents s c) := by
  obtain ⟨es, h⟩ := acts_applyPitchBendDrum s c
  exact h.of_out (by rw [drumBendEvents, ← drumEvents_eq_sweep]; rfl)

/-! ### The bytes they write -/

/-- A volume refresh writes the volume bytes of the Held slots of the channel, each from its stored velocity (R161). -/
theorem wr_mem_volumeRefreshEvents {s : State} {c : Chan} {k x : Nat} {b : Byte} :
    Event.wr k x b ∈ volumeRefreshEvents s c ↔ ∃ (i : Nat) (v : Voice) (j : Nat), s.vs[i]? = some v ∧
      v.inuse = true ∧ v.chan = c ∧ j < 8 ∧ atVoice s i (0x10 + j) k x ∧
      b = encodeByte s.cfg.vsm (s.effective c) (s.cvol v.vel c) (0x10 + j) := by
  simp only [volumeRefreshEvents, volumeEvents, mem_sweep, Voice.ownedBy_iff, wr_mem_bracket, List.mem_map,
    List.mem_range, Event.wr.injEq, atVoice, Nat.add_assoc]
  constructor
  · rintro ⟨i, v, hv, ⟨huse, hchan⟩, j, hj, rfl, rfl, rfl⟩
    exact ⟨i, v, j, hv, huse, hchan, hj, ⟨rfl, rfl⟩, rfl⟩
  · rintro ⟨i, v, j, hv, huse, hchan, hj, ⟨rfl, rfl⟩, rfl⟩
    exact ⟨i, v, hv, ⟨huse, hchan⟩, j, hj, rfl, rfl, rfl⟩

/-- A pan refresh writes the pan bytes of the Held slots of the channel, all with the channel's pan (R162). -/
theorem wr_mem_panRefreshEvents {s : State} {c : Chan} {k x : Nat} {b : Byte} :
    Event.wr k x b ∈ panRefreshEvents s c ↔ ∃ (i : Nat) (v : Voice), s.vs[i]? = some v ∧
      v.inuse = true ∧ v.chan = c ∧ atVoice s i 0x1D k x ∧ b = s.panByte c := by
  simp only [panRefreshEvents, mem_sweep, Voice.ownedBy_iff, wr_mem_bracket, List.mem_singleton, Event.wr.injEq,
    atVoice, and_assoc]

/-- A bend refresh writes the frequency words of the Held slots of the channel, each from its stored adjusted note
(R163). -/
theorem wr_mem_bendRefreshEvents {s : State} {c : Chan} {k x : Nat} {b : Byte} :
    Event.wr k x b ∈ bendRefreshEvents s c ↔ ∃ (i : Nat) (v : Voice), s.vs[i]? = some v ∧ v.inuse = true ∧
      v.chan = c ∧ ∃ h < 2, k = chipOf s.cfg i ∧ x = nfaddr s.cfg i + h ∧
        b = (s.fword v.note c).extractLsb' (8 - 8 * h) 8 := by
  simp only [bendRefreshEvents, mem_sweep, Voice.ownedBy_iff, wr_mem_bracket, wr_mem_wr16, and_assoc]

/-- A drum bend writes the frequency words of the in-use drum slots of the channel, each from its stored rate (R196). -/
theorem wr_mem_drumBendEvents {s : State} {c : Chan} {k x : Nat} {b : Byte} :
    Event.wr k x b ∈ drumBendEvents s c ↔ ∃ (d : Nat) (v : Drum), s.ds[d]? = some v ∧ v.inuse = true ∧
      v.chan = c ∧ ∃ h < 2, k = drumChip d ∧ x = dbase s.cfg d + h ∧
        b = (s.dword v.rate c).extractLsb' (8 - 8 * h) 8 := by
  simp only [drumBendEvents, mem_sweep, Drum.ownedBy_iff, wr_mem_bracket, wr_mem_wr16, and_assoc]

/-! ### The volume refresh (R161, R225) -/

/-- The fields a volume refresh may change over free locks. -/
theorem State.volumeRefreshFM_eq {s : State} (hu : s.Unlocked) (c : Chan) :
    s.volumeRefreshFM c = { s with
      vs := (s.volumeRefreshFM c).vs, out := (s.volumeRefreshFM c).out, img := (s.volumeRefreshFM c).img } := by
  conv_rhs => rw [← (acts_volumeRefreshEvents s c).lock_of_unlocked hu]
  rfl

/-- What a volume refresh leaves after the events `pre`: no two slots share a volume byte, so the last write of each is
that of its own slot. -/
theorem volumesRefreshed_volumeRefreshFM {s : State} (hs : s.Shaped) (c : Chan) (pre : List Event) :
    VolumesRefreshed s ((s.emit pre).volumeRefreshFM c) c pre := by
  refine ⟨rfl, (acts_volumeRefreshEvents (s.emit pre) c).out, fun i v j hv huse hchan hj => ?_⟩
  have hmem : Event.wr (chipOf s.cfg i) (vbase s.cfg i + 0x10 + j)
      (encodeByte s.cfg.vsm (s.effective c) (s.cvol v.vel c) (0x10 + j)) ∈ volumeRefreshEvents (s.emit pre) c :=
    wr_mem_volumeRefreshEvents.mpr ⟨i, v, j, hv, huse, hchan, hj, ⟨rfl, Nat.add_assoc _ _ _⟩, rfl⟩
  refine (acts_volumeRefreshEvents (s.emit pre) c).imgByte_of_wr (hs.emit pre) hmem (fun b hb => ?_)
  obtain ⟨i', v', j', hv', -, -, hj', ⟨hchip, haddr⟩, rfl⟩ := wr_mem_volumeRefreshEvents.mp hb
  obtain ⟨rfl, hoff⟩ := vbase_unique (by omega) (by omega) hchip ((Nat.add_assoc _ _ _).symm.trans haddr)
  obtain rfl : v = v' := Option.some.inj (hv.symm.trans hv')
  obtain rfl : j = j' := by omega
  rfl

/-- CC7 and CC11 refresh the volumes (R225). -/
theorem State.control_of_volume {ctrl : Data} (h : ctrl = 7 ∨ ctrl = 11) (s : State) (c : Chan) (v : Data) :
    s.control c ctrl v = s.volumeRefreshFM c := by
  rcases h with rfl | rfl <;> rfl

/-- Settles O44: the command is the volume refresh of the state with the value stored, and a byte outside the refreshed
windows is not written. -/
theorem volumeControllersRefreshVolumes : Obligations.VolumeControllersRefreshVolumes := by
  intro s c ctrl v hs hu hctrl
  have hstored : (stored s c ctrl v).Shaped := hs.modChan c _
  refine ⟨(stored s c ctrl v).volumeRefreshFM c, ?step, State.volumeRefreshFM_eq (s := stored s c ctrl v) hu c, ?refreshed,
    ?frame⟩
  case step => rw [exec_cc, State.control_of_volume hctrl]
  case refreshed => simpa using volumesRefreshed_volumeRefreshFM hstored c []
  case frame =>
    intro k x hno
    refine (acts_volumeRefreshEvents (stored s c ctrl v) c).imgByte_of_not_wr (fun b hb => ?_)
    obtain ⟨i, w, j, hw, huse, hchan, hj, hat, -⟩ := wr_mem_volumeRefreshEvents.mp hb
    exact hno i w j hw huse hchan hj hat

/-! ### The pan refresh (R162, R226) -/

/-- CC10 refreshes the pan bytes and then the volumes (R226). -/
theorem State.control_pan (s : State) (c : Chan) (v : Data) :
    s.control c 10 v = (s.emit (panRefreshEvents s c)).volumeRefreshFM c := by
  rw [← State.panRefreshFM_eq_emit]; rfl

/-- The pan pass and the volume pass, as one operation. -/
theorem acts_panThenVolume (s : State) (c : Chan) :
    Acts s ((s.emit (panRefreshEvents s c)).volumeRefreshFM c) (s.vs.length + s.vs.length)
      (panRefreshEvents s c ++ volumeRefreshEvents s c) :=
  (acts_panRefreshEvents s c).trans (acts_volumeRefreshEvents (s.emit (panRefreshEvents s c)) c)

/-- The fields the two passes may change over free locks. -/
theorem panThenVolume_eq {s : State} (hu : s.Unlocked) (c : Chan) :
    (s.emit (panRefreshEvents s c)).volumeRefreshFM c = { s with
      vs := ((s.emit (panRefreshEvents s c)).volumeRefreshFM c).vs
      out := ((s.emit (panRefreshEvents s c)).volumeRefreshFM c).out
      img := ((s.emit (panRefreshEvents s c)).volumeRefreshFM c).img } := by
  conv_rhs => rw [← (acts_panThenVolume s c).lock_of_unlocked hu]
  rfl

/-- Settles O45: the volume pass writes no pan byte, so a pan byte keeps what the pan pass gave it. -/
theorem panControllerRewritesPanThenVolumes : Obligations.PanControllerRewritesPanThenVolumes := by
  intro s c v hs hu
  have hstored : (stored s c 10 v).Shaped := hs.modChan c _
  have hacts := acts_panThenVolume (stored s c 10 v) c
  refine ⟨_, by rw [exec_cc, State.control_pan], panThenVolume_eq (s := stored s c 10 v) hu c,
    volumesRefreshed_volumeRefreshFM hstored c (panRefreshEvents (stored s c 10 v) c), ?pan, ?frame⟩
  case pan =>
    intro i w hw huse hchan
    refine hacts.imgByte_of_wr hstored (List.mem_append_left _ (wr_mem_panRefreshEvents.mpr
      ⟨i, w, hw, huse, hchan, ⟨rfl, rfl⟩, rfl⟩)) (fun b hb => ?_)
    rcases List.mem_append.mp hb with hpan | hvol
    · obtain ⟨_, _, -, -, -, -, rfl⟩ := wr_mem_panRefreshEvents.mp hpan
      rfl
    · obtain ⟨i', _, j, -, -, -, hj, ⟨hchip, haddr⟩, -⟩ := wr_mem_volumeRefreshEvents.mp hvol
      have hoff := (vbase_unique (by omega) (by omega) hchip haddr).2
      omega
  case frame =>
    intro k x hno
    refine hacts.imgByte_of_not_wr (fun b hb => ?_)
    rcases List.mem_append.mp hb with hpan | hvol
    · obtain ⟨i, w, hw, huse, hchan, hat, -⟩ := wr_mem_panRefreshEvents.mp hpan
      exact hno i w 0x1D hw huse hchan (.inr rfl) hat
    · obtain ⟨i, w, j, hw, huse, hchan, hj, hat, -⟩ := wr_mem_volumeRefreshEvents.mp hvol
      exact hno i w (0x10 + j) hw huse hchan (.inl (by omega)) hat

/-! ### The bend (R163, R196, R232) -/

/-- The bend in semitones is the quotient the statements write (R132, R135). -/
theorem State.drumSemis_eq (s : State) (c : Chan) : s.drumSemis c = semis s c := by
  simp [State.drumSemis, semis, bendValue]

/-- A drum slot's frequency word as the statements write it (R135). -/
theorem State.dword_eq (s : State) (rate : Nat) (c : Chan) : s.dword rate c = Config.drumEnc rate (semis s c) := by
  rw [State.dword, State.drumSemis_eq]

/-- An FM slot's frequency word as the statements write it (R133). -/
theorem State.fword_eq (s : State) (note : Int) (c : Chan) : s.fword note c = Config.freqEnc (pitchOf s note c) := by
  rw [State.fword, State.pitch, State.bendSemis, State.drumSemis_eq, pitchOf]

/-- The events of the FM pass as the statements write them out. -/
theorem bendRefreshEvents_eq (s : State) (c : Chan) :
    bendRefreshEvents s c = sweep s.vs (fun x => x.inuse && x.chan == c) (fun i x =>
      [.lock (chipOf s.cfg i),
       .wr (chipOf s.cfg i) (nfaddr s.cfg i) ((Config.freqEnc (pitchOf s x.note c)).extractLsb' 8 8),
       .wr (chipOf s.cfg i) (nfaddr s.cfg i + 1) ((Config.freqEnc (pitchOf s x.note c)).extractLsb' 0 8),
       .unlock (chipOf s.cfg i)]) := by
  simp only [bendRefreshEvents, State.fword_eq]
  rfl

/-- The events of the drum pass as the statements write them out. -/
theorem drumBendEvents_eq (s : State) (c : Chan) :
    drumBendEvents s c = sweep s.ds (fun x => x.inuse && x.chan == c) (fun d x =>
      [.lock (drumChip d),
       .wr (drumChip d) (dbase s.cfg d) ((Config.drumEnc x.rate (semis s c)).extractLsb' 8 8),
       .wr (drumChip d) (dbase s.cfg d + 1) ((Config.drumEnc x.rate (semis s c)).extractLsb' 0 8),
       .unlock (drumChip d)]) := by
  simp only [drumBendEvents, State.dword_eq]
  rfl

/-- The state with the bend stored, which BEND does first (R232). -/
abbrev withBend (s : State) (c : Chan) (bend : BitVec 14) : State := s.modChan c (fun x => { x with bend := bend })

theorem withBend_bend (s : State) (c : Chan) (bend : BitVec 14) : ((withBend s c bend).chan c).bend = bend := by
  rw [State.modChan_chan_same]

/-- BEND is the store, the FM pass and the drum pass (R232). -/
theorem exec_bend (s : State) (c : Chan) (bend : BitVec 14) :
    exec (.bend c bend) s = .next (((withBend s c bend).emit
      (bendRefreshEvents (withBend s c bend) c)).applyPitchBendDrum c) := by
  rw [← State.bendRefreshFM_eq_emit]; rfl

/-- The FM pass and the drum pass, as one operation. -/
theorem acts_retune (s : State) (c : Chan) :
    Acts s ((s.emit (bendRefreshEvents s c)).applyPitchBendDrum c) (s.vs.length + s.ds.length)
      (bendRefreshEvents s c ++ drumBendEvents s c) :=
  (acts_bendRefreshEvents s c).trans (acts_drumBendEvents (s.emit (bendRefreshEvents s c)) c)

/-- After both passes the frequency word of an FM slot is its own: the drum region is elsewhere (R68). -/
theorem imgByte_retune_voice {s : State} (hs : s.Shaped) {c : Chan} {i h : Nat} {w : Voice} (hw : s.vs[i]? = some w)
    (huse : w.inuse = true) (hchan : w.chan = c) (hh : h < 2) :
    ((s.emit (bendRefreshEvents s c)).applyPitchBendDrum c).imgByte (chipOf s.cfg i) (nfaddr s.cfg i + h) =
      some ((s.fword w.note c).extractLsb' (8 - 8 * h) 8) := by
  refine (acts_retune s c).imgByte_of_wr hs (List.mem_append_left _ (wr_mem_bendRefreshEvents.mpr
    ⟨i, w, hw, huse, hchan, h, hh, rfl, rfl, rfl⟩)) (fun b hb => ?_)
  rcases List.mem_append.mp hb with hfm | hdrum
  · obtain ⟨i', w', hw', -, -, h', hh', hchip, haddr, rfl⟩ := wr_mem_bendRefreshEvents.mp hfm
    obtain ⟨rfl, rfl⟩ := nfaddr_unique hh hh' hchip haddr
    obtain rfl : w = w' := Option.some.inj (hw.symm.trans hw')
    rfl
  · obtain ⟨d, _, -, -, -, h', hh', -, haddr, -⟩ := wr_mem_drumBendEvents.mp hdrum
    exact absurd haddr (nfaddr_ne_dbase (Params.legal_facts hs.legal) i d hh (by omega))

/-- After both passes the frequency word of a drum slot is its own: the FM frequency region is elsewhere (R68). -/
theorem imgByte_retune_drum {s : State} (hs : s.Shaped) {c : Chan} {d h : Nat} {w : Drum} (hw : s.ds[d]? = some w)
    (huse : w.inuse = true) (hchan : w.chan = c) (hh : h < 2) :
    ((s.emit (bendRefreshEvents s c)).applyPitchBendDrum c).imgByte (drumChip d) (dbase s.cfg d + h) =
      some ((s.dword w.rate c).extractLsb' (8 - 8 * h) 8) := by
  refine (acts_retune s c).imgByte_of_wr hs (List.mem_append_right _ (wr_mem_drumBendEvents.mpr
    ⟨d, w, hw, huse, hchan, h, hh, rfl, rfl, rfl⟩)) (fun b hb => ?_)
  rcases List.mem_append.mp hb with hfm | hdrum
  · obtain ⟨i, _, -, -, -, h', hh', -, haddr, -⟩ := wr_mem_bendRefreshEvents.mp hfm
    exact absurd haddr.symm (nfaddr_ne_dbase (Params.legal_facts hs.legal) i d hh' (by omega))
  · obtain ⟨d', w', hw', -, -, h', hh', hchip, haddr, rfl⟩ := wr_mem_drumBendEvents.mp hdrum
    obtain ⟨rfl, rfl⟩ := dbase_unique (by omega) (by omega) hchip haddr
    obtain rfl : w = w' := Option.some.inj (hw.symm.trans hw')
    rfl

/-- The state after both passes over free locks, from the channel's bend and the events of the passes in any form: the
drum slots note the bend, trace and images by the events, every other field as it was. -/
theorem retune_eq {s : State} (hu : s.Unlocked) {c : Chan} {bend : BitVec 14} {fm drum : List Event}
    (hbend : (s.chan c).bend = bend) (hfm : bendRefreshEvents s c = fm) (hdrum : drumBendEvents s c = drum) :
    (s.emit (bendRefreshEvents s c)).applyPitchBendDrum c = { s with
      ds := s.ds.map (fun x => if Drum.ownedBy c x then { x with bsnap := bend } else x)
      out := s.out ++ fm ++ drum
      img := ((s.emit (bendRefreshEvents s c)).applyPitchBendDrum c).img } := by
  subst hbend hfm hdrum
  have hacts := acts_retune s c
  rw [List.append_assoc, ← hacts.out]
  conv_rhs => rw [← hacts.lock_of_unlocked hu]
  rfl

/-- Settles O50: each pass writes the frequency words of its own pool, and the two regions do not meet. -/
theorem bendRetunesBothPools : Obligations.BendRetunesBothPools := by
  intro s c bend hs hu
  have hb : (withBend s c bend).Shaped := hs.modChan c _
  refine ⟨_, withBend s c bend, rfl, exec_bend s c bend, ?state, ?voices, ?drums, ?frame⟩
  case state =>
    exact retune_eq (s := withBend s c bend) hu (withBend_bend s c bend) (bendRefreshEvents_eq _ c)
      (drumBendEvents_eq _ c)
  case voices =>
    intro i w hw huse hchan
    rw [← State.fword_eq]
    exact ⟨imgByte_retune_voice hb (h := 0) hw huse hchan (by decide),
      imgByte_retune_voice hb (h := 1) hw huse hchan (by decide)⟩
  case drums =>
    intro d w hw huse hchan
    rw [← State.dword_eq]
    exact ⟨imgByte_retune_drum hb (h := 0) hw huse hchan (by decide),
      imgByte_retune_drum hb (h := 1) hw huse hchan (by decide)⟩
  case frame =>
    intro k x hfm hdrum
    refine (acts_retune (withBend s c bend) c).imgByte_of_not_wr (fun v hv => ?_)
    rcases List.mem_append.mp hv with hv | hv
    · obtain ⟨i, w, hw, huse, hchan, h, hh, hchip, haddr, -⟩ := wr_mem_bendRefreshEvents.mp hv
      refine hfm i w hw huse hchan ⟨hchip, ?_⟩
      interval_cases h
      · exact .inl haddr
      · exact .inr haddr
    · obtain ⟨d, w, hw, huse, hchan, h, hh, hchip, haddr, -⟩ := wr_mem_drumBendEvents.mp hv
      exact hdrum d w h hw huse hchan (by omega) ⟨hchip, haddr⟩

end Sys2Proof.Machine

namespace Sys2Proof.Machine

open Sys2Proof.Claims

/-! ## GS_DRUM_PART (R98, R236) -/

/-- The part table over numbers (R98). -/
theorem partChan_eq (part : Data) :
    partChan part = if part.toNat = 0x10 then some 9
      else if 0x11 ≤ part.toNat ∧ part.toNat ≤ 0x19 then some (BitVec.ofNat 4 (part.toNat - 0x11))
      else if 0x1A ≤ part.toNat ∧ part.toNat ≤ 0x1F then some (BitVec.ofNat 4 (part.toNat - 0x10))
      else none := by
  simp [partChan, BitVec.le_def, ← BitVec.toNat_inj]

/-- The channel index of a part of the table. -/
theorem partChan_of_part {part : Data} (hlow : 0x10 ≤ part.toNat) (hhigh : part.toNat ≤ 0x1F) :
    ∃ c : Chan, partChan part = some c ∧ c.toNat = if part.toNat = 0x10 then 9
      else if part.toNat ≤ 0x19 then part.toNat - 0x11 else part.toNat - 0x10 := by
  rw [partChan_eq]
  by_cases hten : part.toNat = 0x10
  · exact ⟨9, if_pos hten, (if_pos hten).symm⟩
  by_cases hmid : part.toNat ≤ 0x19
  · refine ⟨BitVec.ofNat 4 (part.toNat - 0x11), by rw [if_neg hten, if_pos (by omega)], ?_⟩
    rw [if_neg hten, if_pos hmid, BitVec.toNat_ofNat]; omega
  · refine ⟨BitVec.ofNat 4 (part.toNat - 0x10), by rw [if_neg hten, if_neg (by omega), if_pos (by omega)], ?_⟩
    rw [if_neg hten, if_neg hmid, BitVec.toNat_ofNat]; omega

/-- A part outside the table maps to nothing (R98). -/
theorem partChan_of_outside {part : Data} (h : part.toNat < 0x10 ∨ 0x1F < part.toNat) : partChan part = none := by
  rw [partChan_eq, if_neg (by omega), if_neg (by omega), if_neg (by omega)]

/-- Bit `j` of a one-bit mask. -/
theorem getLsbD_one_shiftLeft {i j : Nat} (hi : i < 16) : (1#16 <<< i).getLsbD j = (j == i) := by
  rw [← BitVec.twoPow_eq, BitVec.getLsbD_twoPow, Bool.eq_iff_iff]
  simp only [hi, decide_true, Bool.true_and, decide_eq_true_eq, beq_iff_eq]
  exact eq_comm

/-- Adding a channel to a drum set that has channel index 9 adds that channel alone (R33). -/
theorem State.addDrumChan_getLsbD {s : State} (h9 : s.drumset.getLsbD 9 = true) (c c' : Chan) :
    (s.addDrumChan c).drumset.getLsbD c'.toNat = (s.drumset.getLsbD c'.toNat || c'.toNat == c.toNat) := by
  have hmask : (0x0200 : BitVec 16) = 1#16 <<< 9 := by decide
  rw [State.addDrumChan_drumset, hmask, BitVec.getLsbD_or, BitVec.getLsbD_or, getLsbD_one_shiftLeft c.isLt,
    getLsbD_one_shiftLeft (by decide)]
  by_cases hc : c'.toNat = 9
  · simp [hc, h9]
  · simp [hc]

/-- Map 0 does nothing (R236). -/
theorem exec_gsDrumPart_zero (s : State) (part : Data) : exec (.gsDrumPart part 0) s = .next s := rfl

/-- A part that maps to no channel does nothing (R102, R236). -/
theorem exec_gsDrumPart_of_none {part : Data} (h : partChan part = none) (map : Data) (s : State) :
    exec (.gsDrumPart part map) s = .next s := by
  simp [exec, execGsDrumPart, h]

/-- With a map from 1 on the part's channel joins the drum set (R236). -/
theorem exec_gsDrumPart_of_some {part map : Data} {c : Chan} (h : partChan part = some c) (hmap : map ≠ 0) (s : State) :
    exec (.gsDrumPart part map) s = .next (s.addDrumChan c) := by
  simp only [exec, execGsDrumPart, h, if_neg hmap]

/-- Settles O53: by the cases of the part table, and the one bit that joins the set. -/
theorem drumPartAddsTheMappedChannel : Obligations.DrumPartAddsTheMappedChannel := by
  intro s part map h9
  constructor
  · rintro (rfl | houtside)
    · exact exec_gsDrumPart_zero s part
    · exact exec_gsDrumPart_of_none (partChan_of_outside houtside) map s
  · intro hmap hlow hhigh
    obtain ⟨c, hpart, hc⟩ := partChan_of_part hlow hhigh
    refine ⟨s.addDrumChan c, exec_gsDrumPart_of_some hpart hmap s, rfl, fun c' => ?_⟩
    rw [State.addDrumChan_getLsbD h9, hc]

/-! ## The patch store: one field of one patch -/

/-- A program just written reads what was written. -/
theorem Bank.get_set_same (k : Bank) (p : Data) (Q : Patch) : (k.set p.toNat Q p.isLt).get p.toFin = Q :=
  Vector.getElem_set_self p.isLt

/-- Every other program reads as before. -/
theorem Bank.get_set_ne (k : Bank) {p : Data} {q : Fin 128} (h : q ≠ p.toFin) (Q : Patch) :
    (k.set p.toNat Q p.isLt).get q = k.get q :=
  Vector.getElem_set_ne p.isLt q.isLt (fun e => h (Fin.ext e.symm))

/-- Modifying an entry that is there sets it. -/
theorem modify_eq_set_of_getElem? {α : Type} {xs : List α} {i : Nat} {x : α} (h : xs[i]? = some x) (f : α → α) :
    xs.modify i f = xs.set i (f x) := by
  rw [List.modify_eq_set_getElem?, h]; rfl

/-- A write to the live patch of an existing bank (R37). -/
theorem State.modLive_eq_set {s : State} {b : Nat} {k : Bank} (hk : s.pb[b]? = some k) (p : Data) (f : Patch → Patch) :
    s.modLive b p f = { s with pb := s.pb.set b (k.set p.toNat (f (k.get p.toFin)) p.isLt) } := by
  rw [State.modLive, modify_eq_set_of_getElem? hk]; rfl

/-- A write to the original copy of an existing bank (R37). -/
theorem State.modOriginal_eq_set {s : State} {b : Nat} {o : Bank} (ho : s.po[b]? = some o) (p : Data)
    (f : Patch → Patch) :
    s.modOriginal b p f = { s with po := s.po.set b (o.set p.toNat (f (o.get p.toFin)) p.isLt) } := by
  rw [State.modOriginal, modify_eq_set_of_getElem? ho]; rfl

/-- Operator `i` after a write to it. -/
theorem Patch.opAt_modOp_same (Q : Patch) (i : Nat) (f : Operator → Operator) :
    Patch.opAt (Patch.modOp Q i f) i = f (Patch.opAt Q i) :=
  Vector.getElem_set_self (Fin.ofNat 8 i).isLt

/-- Operator `j` after a write to another. -/
theorem Patch.opAt_modOp_ne (Q : Patch) {i j : Nat} (h : i % 8 ≠ j % 8) (f : Operator → Operator) :
    Patch.opAt (Patch.modOp Q i f) j = Patch.opAt Q j :=
  Vector.getElem_set_ne (Fin.ofNat 8 i).isLt (Fin.ofNat 8 j).isLt h

/-- An envelope byte just written reads what was written. -/
theorem Operator.envelope_setEnvelope (o : Operator) (j : Nat) (v : Byte) :
    Operator.envelope (Operator.setEnvelope o j v) j = v := by
  unfold Operator.envelope Operator.setEnvelope
  split_ifs <;> rfl

/-- No field write changes whether the patch is defined (R126). -/
theorem Patch.write_defined (Q : Patch) (ra : Nat) (v : Byte) : (Patch.write Q ra v).defined = Q.defined := by
  unfold Patch.write
  split_ifs <;> rfl

/-- The byte of a field just written reads what was written, range by range of the address map (R65, R126). -/
theorem Patch.byteAt_write_same {ra : Nat} (h : namesField ra = true) (Q : Patch) (v : Byte) :
    Patch.byteAt (Patch.write Q ra v) ra = v := by
  simp only [namesField, decide_eq_true_eq] at h
  unfold Patch.byteAt Patch.write
  by_cases hfreq : ra ≤ 0x0F
  · by_cases heven : ra % 2 = 0
    · simp only [hfreq, heven, if_true, Patch.opAt_modOp_same]
      exact BitVec.extractLsb'_append_eq_left
    · simp only [hfreq, heven, if_true, if_false, Patch.opAt_modOp_same]
      exact BitVec.extractLsb'_append_eq_right
  by_cases hvol : ra ≤ 0x17
  · simp [hfreq, hvol, Patch.opAt_modOp_same]
  by_cases hwave : ra ≤ 0x1B
  · have hpair : (2 * (ra - 0x18) + 1) % 8 ≠ 2 * (ra - 0x18) % 8 := by omega
    simp only [hfreq, hvol, hwave, if_true, if_false, Patch.opAt_modOp_same, Patch.opAt_modOp_ne _ hpair]
    exact (BitVec.extractLsb'_append_extractLsb'_eq_extractLsb' rfl).trans BitVec.extractLsb'_eq_self
  by_cases hmode : ra = 0x1C
  · simp [hmode]
  by_cases hfb : ra = 0x1F
  · simp [hfb]
  by_cases henv : 0x20 ≤ ra ∧ ra ≤ 0x3F
  · simp only [hfreq, hvol, hwave, hmode, hfb, henv, if_true, if_false, Patch.opAt_modOp_same,
      Operator.envelope_setEnvelope, and_self]
  · have hks : ra = 0x40 := by omega
    simp [hks]

/-- A created patch is defined (R127). -/
theorem Patch.created_defined (Q : Patch) : (Patch.created Q).defined = true := by
  unfold Patch.created
  split
  · assumption
  · rfl

/-! ## PATCH_OVERRIDE (R126, R127, R237) -/

/-- An address that names no field is a silent no-op (R126, R237). -/
theorem exec_patchOverride_of_noField {ra : Data} (h : namesField ra.toNat = false) (pg : Data) (v : Byte) (s : State) :
    exec (.patchOverride pg ra v) s = .next s := by
  simp [exec, execPatchOverride, State.setOverride, h]

/-- Any other address is written in the live patch of bank 0, created first (R126, R127, R237). -/
theorem exec_patchOverride_of_field {s : State} {ra : Data} (hbank : 0 < s.cfg.nbanks)
    (h : namesField ra.toNat = true) (pg : Data) (v : Byte) :
    exec (.patchOverride pg ra v) s =
      .next (s.modLive 0 pg (fun Q => Patch.write (Patch.created Q) ra.toNat v)) := by
  simp [exec, execPatchOverride, State.setOverride, h, hbank.ne']

/-- Settles O54: bank 0 has the one program set to its created patch with the field written. -/
theorem patchOverrideWritesOneLiveField : Obligations.PatchOverrideWritesOneLiveField := by
  intro s pg ra v z hs hz
  refine ⟨fun hno => exec_patchOverride_of_noField hno pg v s, fun hfield => ?_⟩
  have hbank : 0 < s.cfg.nbanks := (Params.legal_facts hs.legal).banks.1
  refine ⟨_, _, exec_patchOverride_of_field hbank hfield pg v, State.modLive_eq_set hz pg _, ?_⟩
  rw [Bank.get_set_same]
  exact ⟨rfl, (Patch.write_defined _ _ _).trans (Patch.created_defined _), Patch.byteAt_write_same hfield _ v,
    fun p hp => Bank.get_set_ne z hp _⟩

/-! ## Commands on one channel's fields -/

/-- Settles O42: each of the three controllers is its own arm of R223 and R228. -/
theorem bankAndRpnControllersSetTheirField : Obligations.BankAndRpnControllersSetTheirField :=
  fun s c v => ⟨exec_cc s c 0 v, exec_cc s c 100 v, exec_cc s c 101 v⟩

/-- Latch (0,0): the bend range (R224). -/
theorem Channel.dataEntry_bendRange {x : Channel} (h : x.rpnMsb = 0 ∧ x.rpnLsb = 0) (v : Data) :
    x.dataEntry v = { x with brange := v, rpnMsb := 127, rpnLsb := 127 } := if_pos h

/-- Latch (0,1): the fine tune (R224). -/
theorem Channel.dataEntry_fine {x : Channel} (h : x.rpnMsb = 0 ∧ x.rpnLsb = 1) (v : Data) :
    x.dataEntry v = { x with fine := fineCents v, rpnMsb := 127, rpnLsb := 127 } := by
  simp [Channel.dataEntry, h, Channel.nullRpn]

/-- Latch (0,2): the coarse tune (R224). -/
theorem Channel.dataEntry_coarse {x : Channel} (h : x.rpnMsb = 0 ∧ x.rpnLsb = 2) (v : Data) :
    x.dataEntry v = { x with coarse := coarseCents v, rpnMsb := 127, rpnLsb := 127 } := by
  simp [Channel.dataEntry, h, Channel.nullRpn]

/-- Any other latch: nothing (R224). -/
theorem Channel.dataEntry_other {x : Channel} (h : x.rpnMsb ≠ 0 ∨ 3 ≤ x.rpnLsb.toNat) (v : Data) :
    x.dataEntry v = x := by
  have hnot : ∀ lsb : Data, lsb.toNat < 3 → ¬ (x.rpnMsb = 0 ∧ x.rpnLsb = lsb) := by
    rintro lsb hlt ⟨hmsb, rfl⟩
    rcases h with h | h
    · exact h hmsb
    · omega
  rw [Channel.dataEntry, if_neg (hnot 0 (by decide)), if_neg (hnot 1 (by decide)), if_neg (hnot 2 (by decide))]

/-- Fine tune as the statements write it (R224). -/
theorem fineCents_eq (v : Data) : fineCents v = ((v.toNat : Rat) - 64) * 100 / 64 := by
  simp [fineCents]

/-- CC6 is a write to the channel alone: the store and then the data entry (R222, R224). -/
theorem exec_cc_dataEntry (s : State) (c : Chan) (v : Data) :
    exec (.cc c 6 v) s = .next (s.modChan c (fun x => (x.setCtrl 6 v).dataEntry v)) :=
   congrArg Host.Outcome.next (State.modChan_modChan s c (fun x => x.setCtrl 6 v) (fun x => x.dataEntry v))

/-- A write to one channel leaves the others. -/
theorem State.modChan_chan_ne {c c' : Chan} (h : c' ≠ c) (s : State) (f : Channel → Channel) :
    (s.modChan c f).chan c' = s.chan c' := by
  rw [State.modChan_chan, if_neg h]

/-- Settles O43: by the latch, which the store does not touch. -/
theorem dataEntrySetsTheLatchedParameter : Obligations.DataEntrySetsTheLatchedParameter := by
  intro s c v
  refine ⟨_, exec_cc_dataEntry s c v, rfl, fun c' hc => State.modChan_chan_ne hc s _, ?_⟩
  rw [State.modChan_chan_same, ← fineCents_eq]
  exact ⟨fun h => Channel.dataEntry_bendRange (x := (s.chan c).setCtrl 6 v) h v,
    fun h => Channel.dataEntry_fine (x := (s.chan c).setCtrl 6 v) h v,
    fun h => Channel.dataEntry_coarse (x := (s.chan c).setCtrl 6 v) h v,
    fun h => Channel.dataEntry_other (x := (s.chan c).setCtrl 6 v) h v⟩

/-- PROG is a write to the channel's program (R231). -/
theorem exec_prog (s : State) (c : Chan) (p : Data) :
    exec (.prog c p) s = .next (s.modChan c (fun x => { x with prog := p })) := rfl

/-- Settles O49: a channel write reads back on its channel and leaves the others. -/
theorem programChangeSetsOnlyTheProgram : Obligations.ProgramChangeSetsOnlyTheProgram := by
  intro s c p
  exact ⟨_, exec_prog s c p, rfl, State.modChan_chan_same s c _, fun c' hc => State.modChan_chan_ne hc s _⟩

/-! ## GS_RESET and TICK_ADV -/

/-- Clearing the drum set leaves channel index 9 alone in it (R33). -/
theorem State.clearDrumset_eq (s : State) : s.clearDrumset = { s with drumset := 0x0200 } := rfl

/-- Settles O52: GS_RESET clears the drum set of what GM_RESET answers. -/
theorem gsResetAlsoClearsTheDrumSet : Obligations.GsResetAlsoClearsTheDrumSet :=
  fun s => ⟨s.gmReset.clearDrumset, s.gmReset, rfl, rfl, State.clearDrumset_eq s.gmReset⟩

/-- The tick advances modulo 2^64 (R34). -/
theorem State.advanceTick_toNat (s : State) (n : BitVec 24) :
    (s.advanceTick (n.setWidth 64)).tick.toNat = (s.tick.toNat + n.toNat) % 2 ^ 64 := by
  rw [State.advanceTick_tick, BitVec.toNat_add, BitVec.toNat_setWidth_of_le (by decide)]

/-- Settles O55: a count of 24 bits enters the 64-bit sum unchanged. -/
theorem tickAdvAddsToTheTick : Obligations.TickAdvAddsToTheTick :=
  fun s n => ⟨s.advanceTick (n.setWidth 64), rfl, rfl, State.advanceTick_toNat s n⟩

/-! ## BANK_CLEAR and PATCH_FIELD (R239, R241) -/

/-- An absent bank is left alone (R102, R239). -/
theorem exec_bankClear_of_absent {s : State} {b : Data} (h : s.cfg.nbanks ≤ b.toNat) :
    exec (.bankClear b) s = .next s := by
  simp [exec, execBankClear, h]

/-- A present bank is cleared in both copies, and the pointer into it dropped (R239). -/
theorem exec_bankClear_of_present {s : State} {b : Data} (h : b.toNat < s.cfg.nbanks) :
    exec (.bankClear b) s = .next ((s.clearBank b.toNat).dropPointer b) := by
  simp [exec, execBankClear, h]

/-- A pointer into the bank is dropped (R239). -/
theorem State.dropPointer_of_inside {s : State} {b p : Data} (h : s.hp = some (b, p)) : (s.dropPointer b).hp = none := by
  simp [State.dropPointer, h]

/-- Any other pointer stays (R239). -/
theorem State.dropPointer_of_outside {s : State} {b : Data} (h : ∀ p, s.hp ≠ some (b, p)) :
    (s.dropPointer b).hp = s.hp := by
  cases hp : s.hp with
  | none => simp [State.dropPointer, hp]
  | some x =>
    obtain ⟨b', p⟩ := x
    have hne : b' ≠ b := by rintro rfl; exact h p hp
    simp [State.dropPointer, hp, hne]

/-- Settles O56: the two copies by the bank clear, the pointer by whether it is in the bank. -/
theorem bankClearUndefinesTheBank : Obligations.BankClearUndefinesTheBank := by
  intro s b _
  refine ⟨fun h => exec_bankClear_of_absent h, fun h => ⟨_, exec_bankClear_of_present h, rfl,
    (List.set_eq_modify _ _ s.pb).symm, (List.set_eq_modify _ _ s.po).symm, ?_, ?_⟩⟩
  · exact fun p hp => State.dropPointer_of_inside (s := s.clearBank b.toNat) hp
  · exact fun hp => State.dropPointer_of_outside (s := s.clearBank b.toNat) hp

/-- Without a pointer, or at an address that names no field, PATCH_FIELD does nothing (R102, R241). -/
theorem exec_patchField_of_nothing {s : State} {ra : Byte} (h : s.hp = none ∨ namesField ra.toNat = false) (v : Byte) :
    exec (.patchField ra v) s = .next s := by
  rcases h with hp | hno
  · simp [exec, execPatchField, hp]
  · cases hp : s.hp with
    | none => simp [exec, execPatchField, hp]
    | some x => simp [exec, execPatchField, hp, hno]

/-- Else the field is written in both copies of the patch pointed at (R241). -/
theorem exec_patchField_of_pointer {s : State} {ra : Byte} {b p : Data} (hp : s.hp = some (b, p))
    (h : namesField ra.toNat = true) (v : Byte) :
    exec (.patchField ra v) s = .next ((s.modLive b.toNat p (fun Q => Patch.write Q ra.toNat v)).modOriginal b.toNat p
      (fun Q => Patch.write Q ra.toNat v)) := by
  simp [exec, execPatchField, hp, h]

/-- Settles O58: the write to the original copy does not see the write to the live one. -/
theorem patchFieldWritesBothCopies : Obligations.PatchFieldWritesBothCopies := by
  intro s ra v _
  refine ⟨fun h => exec_patchField_of_nothing h v, fun b p k o hp hfield hk ho => ?_⟩
  have ho' : (s.modLive b.toNat p (fun Q => Patch.write Q ra.toNat v)).po[b.toNat]? = some o := ho
  rw [exec_patchField_of_pointer hp hfield, State.modOriginal_eq_set ho', State.modLive_eq_set hk]

end Sys2Proof.Machine

/-! # The encoder and the decoder undo each other (30_encoding.md R90 to R101, R109) -/

namespace Sys2Proof

/-! ## The fields of the words whose format has one command -/

/-- The must-be-zero bits of PROG (R91). -/
theorem zeros_prog (c : Chan) (p : Data) : encode (.prog c p) &&& 0x00F080FF = 0 := by
  apply BitVec.eq_of_getLsbD_eq; intro i hi
  simp only [encode, formC, BitVec.getLsbD_and, BitVec.getLsbD_append]
  interval_cases i <;> simp

/-- Format B, of BEND (R92). -/
theorem fields_bend (c : Chan) (b : BitVec 14) :
    opField (encode (.bend c b)) = 0x05 ∧ chField (encode (.bend c b)) = c ∧ bendField (encode (.bend c b)) = b ∧
      encode (.bend c b) &&& 0x00F0C000 = 0 := by
  refine ⟨?_, ?_, ?_, ?_⟩ <;> apply BitVec.eq_of_getLsbD_eq <;> intro i hi <;>
    simp only [encode, opField, chField, bendField, BitVec.getLsbD_extractLsb', BitVec.getLsbD_and,
      BitVec.getLsbD_append] <;> interval_cases i <;> simp

/-- Format O, of PATCH_OVERRIDE (R94). -/
theorem fields_patchOverride (pg ra : Data) (v : Byte) :
    opField (encode (.patchOverride pg ra v)) = 0x13 ∧ progField (encode (.patchOverride pg ra v)) = pg ∧
      aField (encode (.patchOverride pg ra v)) = ra ∧ valField (encode (.patchOverride pg ra v)) = v ∧
      encode (.patchOverride pg ra v) &&& 0x00808000 = 0 := by
  refine ⟨?_, ?_, ?_, ?_, ?_⟩ <;> apply BitVec.eq_of_getLsbD_eq <;> intro i hi <;>
    simp only [encode, opField, progField, aField, valField, BitVec.getLsbD_extractLsb', BitVec.getLsbD_and,
      BitVec.getLsbD_append] <;> interval_cases i <;> simp

/-- Format T, of TICK_ADV, which has no must-be-zero bit (R94). -/
theorem fields_tickAdv (n : BitVec 24) :
    opField (encode (.tickAdv n)) = 0x14 ∧ countField (encode (.tickAdv n)) = n := by
  refine ⟨?_, ?_⟩ <;> apply BitVec.eq_of_getLsbD_eq <;> intro i hi <;>
    simp only [encode, opField, countField, BitVec.getLsbD_extractLsb', BitVec.getLsbD_append] <;>
    interval_cases i <;> simp

/-- Format HB, of BANK_CLEAR (R95). -/
theorem fields_bankClear (b : Data) :
    opField (encode (.bankClear b)) = 0x20 ∧ bField (encode (.bankClear b)) = b ∧
      encode (.bankClear b) &&& 0x00FFFF80 = 0 := by
  refine ⟨?_, ?_, ?_⟩ <;> apply BitVec.eq_of_getLsbD_eq <;> intro i hi <;>
    simp only [encode, opField, bField, BitVec.getLsbD_extractLsb', BitVec.getLsbD_and, BitVec.getLsbD_append] <;>
    interval_cases i <;> simp

/-- Format HF, of PATCH_FIELD (R95). -/
theorem fields_patchField (ra v : Byte) :
    opField (encode (.patchField ra v)) = 0x22 ∧ raField (encode (.patchField ra v)) = ra ∧
      valField (encode (.patchField ra v)) = v ∧ encode (.patchField ra v) &&& 0x00FF0000 = 0 := by
  refine ⟨?_, ?_, ?_, ?_⟩ <;> apply BitVec.eq_of_getLsbD_eq <;> intro i hi <;>
    simp only [encode, opField, raField, valField, BitVec.getLsbD_extractLsb', BitVec.getLsbD_and,
      BitVec.getLsbD_append] <;> interval_cases i <;> simp

/-- Settles O2: on its port and with its must-be-zero bits zero, the word of each command is accepted, and each field
reads the operand put there. -/
theorem decodeEncodeRoundTrip : Obligations.DecodeEncodeRoundTrip := by
  intro i
  cases i with
  | noteOff c n b => simp [decode, accept, encode, Instr.port]
  | noteOn c n vel => simp [decode, accept, encode, Instr.port]
  | cc c ctrl v => simp [decode, accept, encode, Instr.port]
  | prog c p =>
    have hz := zeros_prog c p
    simpa [decode, accept, encode, Instr.port] using hz
  | bend c b =>
    obtain ⟨hop, hc, hb, hz⟩ := fields_bend c b
    simpa [decode, accept, Instr.port, hop, hc, hb] using hz
  | gmReset => rfl
  | gsReset => rfl
  | gsDrumPart part map => simp [decode, accept, encode, Instr.port]
  | patchOverride pg ra v =>
    obtain ⟨hop, hpg, hra, hv, hz⟩ := fields_patchOverride pg ra v
    simpa [decode, accept, Instr.port, hop, hpg, hra, hv] using hz
  | tickAdv n =>
    obtain ⟨hop, hn⟩ := fields_tickAdv n
    simp [decode, accept, Instr.port, hop, hn]
  | bankClear b =>
    obtain ⟨hop, hb, hz⟩ := fields_bankClear b
    simpa [decode, accept, Instr.port, hop, hb] using hz
  | patchDefine b p => simp [decode, accept, encode, Instr.port]
  | patchField ra v =>
    obtain ⟨hop, hra, hv, hz⟩ := fields_patchField ra v
    simpa [decode, accept, Instr.port, hop, hra, hv] using hz
  | patchRead b p => simp [decode, accept, encode, Instr.port]

/-! ## A word that decodes is the word of its command (R101) -/

/-- Clearing must-be-zero bits that are zero leaves the word. -/
theorem and_not_of_and_eq_zero {w zeros : Word} (h : w &&& zeros = 0) : w &&& ~~~zeros = w := by
  have hsplit : w &&& (zeros ||| ~~~zeros) = w := by
    rw [show zeros ||| ~~~zeros = BitVec.allOnes 32 by simp, BitVec.and_allOnes]
  rw [BitVec.and_or_distrib_left, h] at hsplit
  simpa using hsplit

/-- An accepted word is the word of what it is accepted as, where that word is the accepted one with its must-be-zero
bits cleared. -/
theorem encode_of_accept {p q : Port} {w zeros : Word} {i j : Instr} (h : accept p q w zeros i = .ok j)
    (hport : i.port = q) (hi : encode i = w &&& ~~~zeros) : encode j = w ∧ j.port = p := by
  obtain ⟨rfl, hz, rfl⟩ := accept_eq_ok_iff.mp h
  exact ⟨hi.trans (and_not_of_and_eq_zero hz), hport⟩

/-- Format C put together from the fields of a word (R91). -/
theorem formC_fields {w : Word} {op : Byte} (hop : (opField w).toNat = op.toNat) :
    formC op (chField w) (aField w) (bField w) = w &&& ~~~0x00F08080 := by
  rw [← BitVec.eq_of_toNat_eq hop]
  apply BitVec.eq_of_getLsbD_eq; intro i hi
  simp only [formC, opField, chField, aField, bField, BitVec.getLsbD_extractLsb', BitVec.getLsbD_and,
    BitVec.getLsbD_append]
  interval_cases i <;> simp

/-- Formats S and HD put together from the fields of a word (R93, R95). -/
theorem formS_fields {w : Word} {op : Byte} (hop : (opField w).toNat = op.toNat) :
    formS op (aField w) (bField w) = w &&& ~~~0x00FF8080 := by
  rw [← BitVec.eq_of_toNat_eq hop]
  apply BitVec.eq_of_getLsbD_eq; intro i hi
  simp only [formS, opField, aField, bField, BitVec.getLsbD_extractLsb', BitVec.getLsbD_and, BitVec.getLsbD_append]
  interval_cases i <;> simp

/-- PROG put together from the fields of a word (R91). -/
theorem encode_prog_fields {w : Word} (hop : (opField w).toNat = 0x04) :
    encode (.prog (chField w) (aField w)) = w &&& ~~~0x00F080FF := by
  rw [encode, ← show opField w = 0x04 from BitVec.eq_of_toNat_eq hop]
  apply BitVec.eq_of_getLsbD_eq; intro i hi
  simp only [formC, opField, chField, aField, BitVec.getLsbD_extractLsb', BitVec.getLsbD_and, BitVec.getLsbD_append]
  interval_cases i <;> simp

/-- Format B put together from the fields of a word (R92). -/
theorem encode_bend_fields {w : Word} (hop : (opField w).toNat = 0x05) :
    encode (.bend (chField w) (bendField w)) = w &&& ~~~0x00F0C000 := by
  rw [encode, ← show opField w = 0x05#8 from BitVec.eq_of_toNat_eq hop]
  apply BitVec.eq_of_getLsbD_eq; intro i hi
  simp only [opField, chField, bendField, BitVec.getLsbD_extractLsb', BitVec.getLsbD_and, BitVec.getLsbD_append]
  interval_cases i <;> simp

/-- The word of a command without operands, all of whose bits below the opcode are zero (R93). -/
theorem formS_zero_fields {w : Word} {op : Byte} (hop : (opField w).toNat = op.toNat) :
    formS op 0 0 = w &&& ~~~0x00FFFFFF := by
  rw [← BitVec.eq_of_toNat_eq hop]
  apply BitVec.eq_of_getLsbD_eq; intro i hi
  simp only [formS, opField, BitVec.getLsbD_extractLsb', BitVec.getLsbD_and, BitVec.getLsbD_append]
  interval_cases i <;> simp

/-- Format O put together from the fields of a word (R94). -/
theorem encode_patchOverride_fields {w : Word} (hop : (opField w).toNat = 0x13) :
    encode (.patchOverride (progField w) (aField w) (valField w)) = w &&& ~~~0x00808000 := by
  rw [encode, ← show opField w = 0x13#8 from BitVec.eq_of_toNat_eq hop]
  apply BitVec.eq_of_getLsbD_eq; intro i hi
  simp only [opField, progField, aField, valField, BitVec.getLsbD_extractLsb', BitVec.getLsbD_and,
    BitVec.getLsbD_append]
  interval_cases i <;> simp

/-- Format T put together from the fields of a word (R94). -/
theorem encode_tickAdv_fields {w : Word} (hop : (opField w).toNat = 0x14) :
    encode (.tickAdv (countField w)) = w &&& ~~~0x00000000 := by
  rw [encode, ← show opField w = 0x14#8 from BitVec.eq_of_toNat_eq hop]
  apply BitVec.eq_of_getLsbD_eq; intro i hi
  simp only [opField, countField, BitVec.getLsbD_extractLsb', BitVec.getLsbD_and, BitVec.getLsbD_append]
  interval_cases i <;> simp

/-- Format HB put together from the fields of a word (R95). -/
theorem encode_bankClear_fields {w : Word} (hop : (opField w).toNat = 0x20) :
    encode (.bankClear (bField w)) = w &&& ~~~0x00FFFF80 := by
  rw [encode, ← show opField w = 0x20#8 from BitVec.eq_of_toNat_eq hop]
  apply BitVec.eq_of_getLsbD_eq; intro i hi
  simp only [opField, bField, BitVec.getLsbD_extractLsb', BitVec.getLsbD_and, BitVec.getLsbD_append]
  interval_cases i <;> simp

/-- Format HF put together from the fields of a word (R95). -/
theorem encode_patchField_fields {w : Word} (hop : (opField w).toNat = 0x22) :
    encode (.patchField (raField w) (valField w)) = w &&& ~~~0x00FF0000 := by
  rw [encode, ← show opField w = 0x22#8 from BitVec.eq_of_toNat_eq hop]
  apply BitVec.eq_of_getLsbD_eq; intro i hi
  simp only [opField, raField, valField, BitVec.getLsbD_extractLsb', BitVec.getLsbD_and, BitVec.getLsbD_append]
  interval_cases i <;> simp

/-- No bit of a word that decodes is dropped, arm by arm of the decoder. -/
theorem encode_of_decode {p : Port} {w : Word} {i : Instr} (h : decode p w = .ok i) : encode i = w ∧ i.port = p := by
  unfold decode at h
  split at h
  case h_1 hop => exact encode_of_accept h rfl (formC_fields hop)
  case h_2 hop => exact encode_of_accept h rfl (formC_fields hop)
  case h_3 hop => exact encode_of_accept h rfl (formC_fields hop)
  case h_4 hop => exact encode_of_accept h rfl (encode_prog_fields hop)
  case h_5 hop => exact encode_of_accept h rfl (encode_bend_fields hop)
  case h_6 hop => exact encode_of_accept h rfl (formS_zero_fields hop)
  case h_7 hop => exact encode_of_accept h rfl (formS_zero_fields hop)
  case h_8 hop => exact encode_of_accept h rfl (formS_fields hop)
  case h_9 hop => exact encode_of_accept h rfl (encode_patchOverride_fields hop)
  case h_10 hop => exact encode_of_accept h rfl (encode_tickAdv_fields hop)
  case h_11 hop => exact encode_of_accept h rfl (encode_bankClear_fields hop)
  case h_12 hop => exact encode_of_accept h rfl (formS_fields hop)
  case h_13 hop => exact encode_of_accept h rfl (encode_patchField_fields hop)
  case h_14 hop => exact encode_of_accept h rfl (formS_fields hop)
  case h_15 => cases h

/-! ## The decoder accepts what the table admits (R100) -/

/-- A word that a row admits came on the row's port, has its opcode, and is zero where the mask reaches below the
opcode; for every row the mask covers the opcode and asks for zeros alone below it. -/
theorem fields_of_admits {r : Row} (hr : r ∈ opcodeTable) {p : Port} {w : Word} (h : r.admits p w = true) :
    p = r.port ∧ opField w = opField r.bits ∧ w &&& (r.mask &&& 0x00FFFFFF) = 0 := by
  have hrow : ∀ r ∈ opcodeTable, opField r.mask = BitVec.allOnes 8 ∧ r.bits &&& 0x00FFFFFF = 0 := by decide
  obtain ⟨hop, hlow⟩ := hrow r hr
  simp only [Row.admits, Bool.and_eq_true, beq_iff_eq] at h
  obtain ⟨hport, hw⟩ := h
  refine ⟨hport.symm, ?_, ?_⟩
  · rw [← hw, opField, opField, BitVec.extractLsb'_and]
    rw [opField] at hop
    rw [hop, BitVec.and_allOnes]
  · rw [← BitVec.and_assoc, hw, hlow]

/-- What the table admits decodes: the row's opcode selects the arm whose must-be-zero bits are those of the row. -/
theorem decode_of_wordWellFormed {p : Port} {w : Word} (h : wordWellFormed p w = true) : ∃ i, decode p w = .ok i := by
  obtain ⟨r, hr, hadmits⟩ := List.any_eq_true.mp h
  obtain ⟨rfl, hop, hz⟩ := fields_of_admits hr hadmits
  simp only [opcodeTable, List.cons_append, List.nil_append, List.mem_cons, List.not_mem_nil, or_false] at hr
  rcases hr with rfl | rfl | rfl | rfl | rfl | rfl | rfl | rfl | rfl | rfl | rfl | rfl | rfl | rfl
  all_goals exact ⟨_, by rw [decode, hop]; exact accept_eq_ok_iff.mpr ⟨rfl, hz, rfl⟩⟩

/-- Settles O3: the decoder's arms are the table's rows, and no arm drops a bit. -/
theorem decoderAcceptsExactlyTheOpcodeTable : Obligations.DecoderAcceptsExactlyTheOpcodeTable :=
  fun _ _ => ⟨⟨fun ⟨_, hi⟩ => wordWellFormed_of_decode hi, decode_of_wordWellFormed⟩, fun _ => encode_of_decode⟩

/-- Settles O1: the decoder evaluates on each word. -/
theorem writtenOutWordsDecode : Obligations.WrittenOutWordsDecode := by
  refine ⟨?_, ?_, ?_, ?_, ?_, ?_, ?_, ?_⟩ <;> decide

end Sys2Proof

namespace Sys2Proof.Machine

/-- A word that decodes runs as its command (R24). -/
theorem runWord_of_ok {x : PortWord} {i : Instr} (h : decode x.port x.word = .ok i) (s : State) :
    runWord x s = exec i s := by
  simp [runWord, h]

/-- An idle block holds its state (R275, R291). -/
theorem step_of_idle {s : State} (hl : s.cfg.legal = true) (hi : s.input = []) : step s = .next s := by
  simp [step, State.fetch, hl, hi]

/-- Settles O5: the step runs the next word, and the word runs as its command. -/
theorem stepRunsTheDecodedCommand : Obligations.StepRunsTheDecodedCommand := by
  intro s x rest i hl hi hd
  rw [step_eq_runWord hl hi, runWord_of_ok hd]

/-- Settles O6: the step tests the parameters before it looks for a word. -/
theorem stepWithoutACommandHoldsOrRefuses : Obligations.StepWithoutACommandHoldsOrRefuses :=
  fun _ => ⟨step_of_idle, fun hl => if_pos hl⟩

end Sys2Proof.Machine

/-! # What every step keeps -/

namespace Sys2Proof.Machine

/-! ## The step as one operation on the trace -/

/-- The word taken is no part of what an operation acts on (R24). -/
theorem Acts.of_taken {s t : State} {rest : List PortWord} {n : Nat} {es : List Event}
    (h : Acts { s with input := rest } t n es) : Acts s t n es where
  cfg := h.cfg
  out := h.out
  img := h.img
  lock := h.lock
  tidy := ⟨h.tidy.closed, h.tidy.bound, fun hs => h.tidy.fits { hs with }⟩
  shaped hs := h.shaped { hs with }

/-- A step acts on the state it starts from by a tidy list of events. -/
theorem step_acts_self {s t : State} (h : step s = .next t) :
    ∃ es, Acts s t (128 + 2 * s.vs.length + s.ds.length) es := by
  obtain ⟨s', es, hacts, rfl | ⟨w, rest, -, rfl⟩⟩ := step_acts h
  · exact ⟨es, hacts⟩
  · exact ⟨es, hacts.of_taken⟩

/-- A well-shaped state has a voice to allocate (R155, R294). -/
theorem State.Shaped.voices_ne_nil {s : State} (hs : s.Shaped) : s.vs ≠ [] := by
  have hf := Params.legal_facts hs.legal
  have hpos : 0 < s.cfg.nv := Nat.mul_pos hf.chips hf.voices
  exact List.ne_nil_of_length_pos (hs.voices ▸ hpos)

/-- Over a non-empty pool a note-on always gets a slot (R155). -/
theorem noteOnFM_completes {s : State} (h : s.vs ≠ []) (c : Chan) (n vel : Data) :
    ∃ t, s.noteOnFM c n vel = some t := by
  obtain ⟨x, hx⟩ := Option.isSome_iff_exists.mp (selectVoice_isSome h c (s.adjNote c n (s.effective c)))
  exact ⟨_, by rw [State.noteOnFM, hx]; rfl⟩

/-- Over a non-empty pool every command completes: NOTE_ON is the only one that can be refused (R155, R260). -/
theorem exec_completes {s : State} (h : s.vs ≠ []) (i : Instr) : ∃ t, exec i s = .next t := by
  cases i with
  | noteOn c n vel =>
    obtain ⟨t, ht⟩ := noteOnFM_completes h c n vel
    simp only [exec, execNoteOn, ht]
    split
    · exact ⟨_, rfl⟩
    · exact ⟨t, rfl⟩
  | _ => exact ⟨_, rfl⟩

/-- From a well-shaped state a step completes (R260, R294). -/
theorem step_completes {s : State} (hs : s.Shaped) : ∃ t, step s = .next t := by
  cases hi : s.input with
  | nil => exact ⟨s, step_of_idle hs.legal hi⟩
  | cons x rest =>
    rw [step_eq_runWord hs.legal hi]
    cases hd : decode x.port x.word with
    | ok i => rw [runWord_of_ok hd]; exact exec_completes (s := { s with input := rest }) hs.voices_ne_nil i
    | error r => exact ⟨_, runWord_of_error hd _⟩

/-- Settles O9: the step completes, and what it does as one operation keeps parameters and shape. -/
theorem everyStepCompletesWellShaped : Obligations.EveryStepCompletesWellShaped := by
  intro s hs
  obtain ⟨t, ht⟩ := step_completes hs
  obtain ⟨es, hacts⟩ := step_acts_self ht
  exact ⟨t, ht, hacts.shaped hs, hacts.cfg⟩

/-- Settles O10: trace and images grow by the same events. -/
theorem stepKeepsImagesTheFoldOfTheTrace : Obligations.StepKeepsImagesTheFoldOfTheTrace := by
  intro s t himg hstep
  obtain ⟨es, hacts⟩ := step_acts_self hstep
  unfold State.ImagesFromTrace at himg ⊢
  rw [hacts.img, hacts.out, hacts.cfg, List.foldl_append, ← himg]

/-- The sample after an operation is that after its events (R72). -/
theorem Acts.sample_eq {s t : State} {n : Nat} {es : List Event} (h : Acts s t n es) (k : Nat) :
    (s.emit es).sample k = t.sample k := by
  simp only [State.sample, State.emit_lock, State.emit_img, ← h.lock, ← h.img]

/-- Settles O11: the step's events are closed brackets and warnings, and along such a list a lock is taken exactly
inside a bracket of its chip. -/
theorem stepKeepsBracketsClosedAndLocksFree : Obligations.StepKeepsBracketsClosedAndLocksFree := by
  intro s t hb hu hstep
  obtain ⟨es, hacts⟩ := step_acts_self hstep
  have hclosed := hacts.tidy.closed
  have hevents : s.eventsUntil t = es := by rw [State.eventsUntil, hacts.out, List.drop_left]
  have hlast : ∀ k, s.sampleDuring t es.length k = t.sample k := fun k => by
    rw [State.sampleDuring_of_out hacts.out, State.sampleWithin_all, hacts.sample_eq]
  have hunlocked : t.Unlocked := by
    rw [State.Unlocked, hacts.lock_of_unlocked hu]; exact hu
  rw [hevents]
  refine ⟨?_, hunlocked, hacts.out, fun n k hk => ?_, fun k => ?_, hlast⟩
  · rw [hacts.out]; exact bracketed_append hb hclosed
  · rw [State.sampleDuring_of_out hacts.out, State.sampleWithin_eq hu hclosed n hk]
  · rw [State.sampleDuring_of_out hacts.out, State.sampleWithin_zero]

/-- Settles O12: the events of the step address what exists, and the parameters stay. -/
theorem stepAddressesOnlyWhatExists : Obligations.StepAddressesOnlyWhatExists := by
  intro s t hs hfits hstep e he
  obtain ⟨es, hacts⟩ := step_acts_self hstep
  rw [hacts.cfg]
  rw [hacts.out] at he
  rcases List.mem_append.mp he with hold | hnew
  · exact hfits e hold
  · exact hacts.tidy.fits hs e hnew

/-- Settles O16: the bound of the tidy list, with the pool sizes of a well-shaped state. -/
theorem commandBracketsAreBounded : Obligations.CommandBracketsAreBounded := by
  intro i s t hs hexec
  obtain ⟨es, hacts⟩ := exec_acts hexec
  refine ⟨es, hacts.out, ?_⟩
  have hbound := hacts.tidy.bound
  rwa [hs.voices, hs.drums] at hbound

/-! ## Host commands (R77, R271) -/

/-- Settles O19: each of the four commands writes only the patch store, the pointer and the answers. -/
theorem hostCommandsLeaveTheImagesAlone : Obligations.HostCommandsLeaveTheImagesAlone := by
  intro i s hport
  cases i with
  | bankClear b =>
    refine ⟨_, rfl, ?_⟩
    split
    · rfl
    · rfl
  | patchDefine b p =>
    refine ⟨_, rfl, ?_⟩
    unfold State.defineAbsent
    split
    · split
      · rfl
      · rfl
    · rfl
  | patchField ra v =>
    refine ⟨_, rfl, ?_⟩
    split
    · rfl
    · split
      · rfl
      · rfl
  | patchRead b p => exact ⟨_, rfl, rfl⟩
  | _ => cases hport

/-! ## Real-time commands: the tick, the host's state and the Held slots -/

/-- Every Held slot of `ws` is a Held slot of `vs` at the same index, with its channel, note and stamp. -/
def HeldFrom (vs ws : List Voice) : Prop :=
  ∀ (i : Nat) (w : Voice), ws[i]? = some w → w.inuse = true →
    ∃ v, vs[i]? = some v ∧ v.inuse = true ∧ v.chan = w.chan ∧ v.note = w.note ∧ v.last = w.last

theorem heldFrom_refl (vs : List Voice) : HeldFrom vs vs := fun _ w hw huse => ⟨w, hw, huse, rfl, rfl, rfl⟩

theorem HeldFrom.trans {us vs ws : List Voice} (h : HeldFrom us vs) (h' : HeldFrom vs ws) : HeldFrom us ws := by
  intro i w hw huse
  obtain ⟨v, hv, hvuse, hvchan, hvnote, hvlast⟩ := h' i w hw huse
  obtain ⟨u, hu, huuse, huchan, hunote, hulast⟩ := h i v hv hvuse
  exact ⟨u, hu, huuse, huchan.trans hvchan, hunote.trans hvnote, hulast.trans hvlast⟩

/-- An update that frees a slot, or keeps its channel, note and stamp. -/
def KeepsHeld (g : Voice → Voice) : Prop :=
  ∀ v, (g v).inuse = true → v.inuse = true ∧ v.chan = (g v).chan ∧ v.note = (g v).note ∧ v.last = (g v).last

theorem keepsHeld_freed : KeepsHeld Voice.freed := fun _ h => nomatch h

theorem HeldFrom.map {vs : List Voice} {g : Voice → Voice} (hg : KeepsHeld g) (p : Voice → Bool) :
    HeldFrom vs (vs.map (fun v => if p v then g v else v)) := by
  intro i w hw huse
  rw [List.getElem?_map, Option.map_eq_some_iff] at hw
  obtain ⟨v, hv, rfl⟩ := hw
  refine ⟨v, hv, ?_⟩
  split at huse
  · next hp => rw [if_pos hp]; exact hg v huse
  · next hp => rw [if_neg hp]; exact ⟨huse, rfl, rfl, rfl⟩

theorem HeldFrom.modify {vs : List Voice} {g : Voice → Voice} (hg : KeepsHeld g) (i : Nat) :
    HeldFrom vs (vs.modify i g) := by
  intro j w hw huse
  rw [List.getElem?_modify, Option.map_eq_map, Option.map_eq_some_iff] at hw
  obtain ⟨v, hv, rfl⟩ := hw
  refine ⟨v, hv, ?_⟩
  split at huse
  · next hij => rw [if_pos hij]; exact hg v huse
  · next hij => rw [if_neg hij]; exact ⟨huse, rfl, rfl, rfl⟩

/-- From `s` to `t` the tick and what the host alone writes are the same, and no slot became Held. -/
structure Calm (s t : State) : Prop where
  tick : t.tick = s.tick
  originals : t.po = s.po
  pointer : t.hp = s.hp
  replies : t.replies = s.replies
  held : HeldFrom s.vs t.vs

theorem calm_of_eq {s t : State} (htick : t.tick = s.tick) (hpo : t.po = s.po) (hhp : t.hp = s.hp)
    (hre : t.replies = s.replies) (hvs : t.vs = s.vs) : Calm s t :=
  ⟨htick, hpo, hhp, hre, hvs ▸ heldFrom_refl s.vs⟩

theorem calm_refl (s : State) : Calm s s := calm_of_eq rfl rfl rfl rfl rfl

theorem Calm.trans {s t u : State} (h : Calm s t) (h' : Calm t u) : Calm s u where
  tick := h'.tick.trans h.tick
  originals := h'.originals.trans h.originals
  pointer := h'.pointer.trans h.pointer
  replies := h'.replies.trans h.replies
  held := h.held.trans h'.held

theorem calm_modChan (s : State) (c : Chan) (f : Channel → Channel) : Calm s (s.modChan c f) :=
  calm_of_eq rfl rfl rfl rfl rfl

theorem calm_sweepVoices (s : State) (p : Voice → Bool) {g : Voice → Voice} (hg : KeepsHeld g)
    (ev : Nat → Voice → List Event) : Calm s (s.sweepVoices p g ev) :=
  ⟨rfl, rfl, rfl, rfl, HeldFrom.map hg p⟩

theorem calm_sweepDrums (s : State) (p : Drum → Bool) (g : Drum → Drum) (ev : Nat → Drum → List Event) :
    Calm s (s.sweepDrums p g ev) := calm_of_eq rfl rfl rfl rfl rfl

theorem calm_silenceVoices (s : State) (p : Voice → Bool) : Calm s (s.silenceVoices p) :=
  calm_sweepVoices s _ keepsHeld_freed _

theorem calm_silenceDrums (s : State) (p : Drum → Bool) : Calm s (s.silenceDrums p) := calm_sweepDrums s _ _ _

theorem calm_volumeRefreshFM (s : State) (c : Chan) : Calm s (s.volumeRefreshFM c) :=
  calm_sweepVoices s _ (g := fun v => { v with vol := s.cvol v.vel c }) (fun _ h => ⟨h, rfl, rfl, rfl⟩) _

theorem calm_panRefreshFM (s : State) (c : Chan) : Calm s (s.panRefreshFM c) :=
  calm_sweepVoices s _ (g := fun v => v) (fun _ h => ⟨h, rfl, rfl, rfl⟩) _

theorem calm_bendRefreshFM (s : State) (c : Chan) : Calm s (s.bendRefreshFM c) :=
  calm_sweepVoices s _ (g := fun v => v) (fun _ h => ⟨h, rfl, rfl, rfl⟩) _

theorem calm_releaseVoice (s : State) (c : Chan) (n : Data) : Calm s (s.releaseVoice c n) := by
  unfold State.releaseVoice
  split
  · next i _ => exact ⟨rfl, rfl, rfl, rfl, HeldFrom.modify keepsHeld_freed i⟩
  · exact calm_refl s

theorem calm_noteOffFM (s : State) (c : Chan) (n : Data) : Calm s (s.noteOffFM c n) := by
  unfold State.noteOffFM
  split
  · exact calm_modChan s c _
  · exact calm_releaseVoice s c n

theorem calm_releaseHeld (c : Chan) (s : State) (n : Nat) : Calm s (State.releaseHeld c s n) := by
  unfold State.releaseHeld
  split
  · exact calm_noteOffFM s c _
  · exact calm_refl s

theorem calm_releaseLoop (c : Chan) (ns : List Nat) (s : State) : Calm s (ns.foldl (State.releaseHeld c) s) := by
  induction ns generalizing s with
  | nil => exact calm_refl s
  | cons n ns ih => exact (calm_releaseHeld c s n).trans (ih _)

theorem calm_sustainPedal (s : State) (c : Chan) (v : Data) : Calm s (s.sustainPedal c v) := by
  unfold State.sustainPedal
  split
  · exact ((calm_modChan s c _).trans (calm_releaseLoop c _ _)).trans (calm_modChan _ c _)
  · exact calm_modChan s c _

theorem calm_soundOff (s : State) (c : Chan) (v : Data) : Calm s (s.soundOff c v) := by
  unfold State.soundOff
  split
  · exact (calm_silenceVoices s _).trans (calm_silenceDrums _ _)
  · exact calm_refl s

theorem calm_control (s : State) (c : Chan) (ctrl v : Data) : Calm s (s.control c ctrl v) := by
  unfold State.control
  split
  · exact calm_modChan s c _
  · exact calm_modChan s c _
  · exact calm_volumeRefreshFM s c
  · exact (calm_panRefreshFM s c).trans (calm_volumeRefreshFM _ c)
  · exact calm_volumeRefreshFM s c
  · exact calm_sustainPedal s c v
  · exact calm_modChan s c _
  · exact calm_modChan s c _
  · exact calm_soundOff s c v
  · exact calm_soundOff s c v
  · exact calm_refl s

theorem calm_gmReset (s : State) : Calm s s.gmReset := by
  refine ((calm_silenceVoices s (fun _ => true)).trans (calm_silenceDrums _ (fun _ => true))).trans ?_
  unfold State.gmReset
  dsimp only
  split
  · exact calm_of_eq rfl rfl rfl rfl rfl
  · exact calm_of_eq rfl rfl rfl rfl rfl

theorem calm_startDrum (s : State) (d : Nat) (e : KeyEntry) (c : Chan) (n vel : Data) :
    Calm (s.advanceTick 1) (s.startDrum d e c n vel) := calm_of_eq rfl rfl rfl rfl rfl

/-- A drum note-on moves the tick by one, or does nothing at all (R191, R192). -/
theorem calm_triggerDrum (s : State) (c : Chan) (n vel : Data) :
    Calm s (s.triggerDrum c n vel) ∨ Calm (s.advanceTick 1) (s.triggerDrum c n vel) := by
  unfold State.triggerDrum
  split
  · exact .inl (calm_refl s)
  · split
    · exact .inr (calm_startDrum s _ _ c n vel)
    · exact .inr (calm_of_eq rfl rfl rfl rfl rfl)

/-- What a note-on on an FM channel answers: the start of the slot it selects (R151). -/
theorem noteOnFM_eq_some {s t : State} {c : Chan} {n vel : Data} (h : s.noteOnFM c n vel = some t) :
    ∃ x, s.selectVoice c (s.adjNote c n (s.effective c)) = some x ∧
      t = (s.emit (s.retriggerEvents c n x)).startVoice x.slot (s.effective c) c (s.adjNote c n (s.effective c)) vel := by
  obtain ⟨x, hx, rfl⟩ := Option.map_eq_some_iff.mp h
  exact ⟨x, hx, rfl⟩

/-- What a real-time command can do to the tick, the host's state and the Held slots, said once: nothing; a tick
advance; a drum note-on, which advances the tick by one; or an FM note-on. -/
theorem exec_realTime_cases {i : Instr} {s t : State} (hport : i.port = .realTime) (h : exec i s = .next t) :
    Calm s t ∨ (∃ n, i = .tickAdv n ∧ Calm (s.advanceTick (n.setWidth 64)) t) ∨
      ∃ c n vel, i = .noteOn c n vel ∧ (Calm (s.advanceTick 1) t ∨ s.noteOnFM c n vel = some t) := by
  cases i with
  | noteOff c n b =>
    obtain rfl := Host.Outcome.next.inj h
    refine .inl ?_
    split
    · exact calm_refl s
    · exact calm_noteOffFM s c n
  | noteOn c n vel =>
    simp only [exec, execNoteOn] at h
    split at h
    · obtain rfl := Host.Outcome.next.inj h
      rcases calm_triggerDrum s c n vel with hcalm | hcalm
      · exact .inl hcalm
      · exact .inr (.inr ⟨c, n, vel, rfl, .inl hcalm⟩)
    · split at h
      · next u hu =>
        obtain rfl := Host.Outcome.next.inj h
        exact .inr (.inr ⟨c, n, vel, rfl, .inr hu⟩)
      · cases h
  | cc c ctrl v =>
    obtain rfl := Host.Outcome.next.inj h
    exact .inl ((calm_modChan s c _).trans (calm_control _ c ctrl v))
  | prog c p =>
    obtain rfl := Host.Outcome.next.inj h
    exact .inl (calm_modChan s c _)
  | bend c b =>
    obtain rfl := Host.Outcome.next.inj h
    exact .inl (((calm_modChan s c _).trans (calm_bendRefreshFM _ c)).trans (calm_sweepDrums _ _ _ _))
  | gmReset =>
    obtain rfl := Host.Outcome.next.inj h
    exact .inl (calm_gmReset s)
  | gsReset =>
    obtain rfl := Host.Outcome.next.inj h
    exact .inl ((calm_gmReset s).trans (calm_of_eq rfl rfl rfl rfl rfl))
  | gsDrumPart part map =>
    obtain rfl := Host.Outcome.next.inj h
    refine .inl ?_
    split
    · exact calm_refl s
    · split
      · exact calm_of_eq rfl rfl rfl rfl rfl
      · exact calm_refl s
  | patchOverride pg ra v =>
    obtain rfl := Host.Outcome.next.inj h
    refine .inl ?_
    unfold State.setOverride
    split
    · exact calm_refl s
    · split
      · exact calm_refl s
      · exact calm_of_eq rfl rfl rfl rfl rfl
  | tickAdv n =>
    obtain rfl := Host.Outcome.next.inj h
    exact .inr (.inl ⟨n, rfl, calm_refl _⟩)
  | _ => cases hport

/-- A host command leaves the tick and the slots (R77). -/
theorem exec_host_kept {i : Instr} {s t : State} (hport : i.port = .host) (h : exec i s = .next t) :
    t.tick = s.tick ∧ t.vs = s.vs ∧ t.ch = s.ch := by
  obtain ⟨u, hu, hframe⟩ := hostCommandsLeaveTheImagesAlone i s hport
  obtain rfl := Host.Outcome.next.inj (hu.symm.trans h)
  rw [hframe]
  exact ⟨rfl, rfl, rfl⟩

/-- A note-on on an FM channel moves the tick by one and leaves the host's state. -/
theorem noteOnFM_kept {s t : State} {c : Chan} {n vel : Data} (h : s.noteOnFM c n vel = some t) :
    t.tick = s.tick + 1 ∧ t.po = s.po ∧ t.hp = s.hp ∧ t.replies = s.replies ∧ t.ch = s.ch := by
  obtain ⟨x, -, rfl⟩ := noteOnFM_eq_some h
  exact ⟨rfl, rfl, rfl, rfl, rfl⟩

/-- A command belongs to one of the two ports (R90). -/
theorem port_cases (i : Instr) : i.port = .realTime ∨ i.port = .host := by
  cases i.port with
  | realTime => exact .inl rfl
  | host => exact .inr rfl

/-- Settles O17: a host command leaves the tick, and a real-time one moves it only in the two cases named. -/
theorem onlyNotesAndTickAdvMoveTheTick : Obligations.OnlyNotesAndTickAdvMoveTheTick := by
  intro i s t h
  rcases port_cases i with hport | hport
  · rcases exec_realTime_cases hport h with hcalm | ⟨n, hi, hcalm⟩ | ⟨c, n, vel, hi, hcalm | hfm⟩
    · exact .inl hcalm.tick
    · exact .inr (.inl ⟨n, hi, hcalm.tick⟩)
    · exact .inr (.inr ⟨c, n, vel, hi, hcalm.tick⟩)
    · obtain ⟨htick, -⟩ := noteOnFM_kept hfm
      exact .inr (.inr ⟨c, n, vel, hi, htick⟩)
  · exact .inl (exec_host_kept hport h).1

/-- Settles O18: in each case a real-time command can be, the host's state is as before. -/
theorem realTimeCommandsLeaveHostStateAlone : Obligations.RealTimeCommandsLeaveHostStateAlone := by
  intro i s t hport h
  rcases exec_realTime_cases hport h with hcalm | ⟨n, -, hcalm⟩ | ⟨c, n, vel, -, hcalm | hfm⟩
  · exact ⟨hcalm.originals, hcalm.pointer, hcalm.replies⟩
  · exact ⟨hcalm.originals, hcalm.pointer, hcalm.replies⟩
  · exact ⟨hcalm.originals, hcalm.pointer, hcalm.replies⟩
  · obtain ⟨-, hpo, hhp, hre, -⟩ := noteOnFM_kept hfm
    exact ⟨hpo, hhp, hre⟩

/-! ## Invariants of the pools and channels -/

/-- What a step does: it runs one command in the state with its word taken, or it touches neither slots nor tick nor
channels, being idle or given a reserved word (R24, R101, R291). -/
theorem step_cases {s t : State} (h : step s = .next t) :
    (t.vs = s.vs ∧ t.tick = s.tick ∧ t.ch = s.ch) ∨ ∃ i rest, exec i { s with input := rest } = .next t := by
  unfold step at h
  split at h
  · cases h
  cases hi : s.input with
  | nil =>
    simp only [State.fetch, hi, Host.Outcome.next.injEq] at h
    subst h
    exact .inl ⟨rfl, rfl, rfl⟩
  | cons x rest =>
    simp only [State.fetch, hi] at h
    cases hd : decode x.port x.word with
    | ok i => rw [runWord_of_ok hd] at h; exact .inr ⟨i, rest, h⟩
    | error r =>
      rw [runWord_of_error hd] at h
      obtain rfl := Host.Outcome.next.inj h
      exact .inl ⟨rfl, rfl, rfl⟩

/-- Slots that come from unique Held slots are unique. -/
theorem State.UniqueVoices.heldFrom {s t : State} (h : s.UniqueVoices) (hvs : HeldFrom s.vs t.vs) : t.UniqueVoices := by
  intro i j v w hv hw hvuse hwuse hchan hnote
  obtain ⟨v', hv', hvuse', hvchan, hvnote, -⟩ := hvs i v hv hvuse
  obtain ⟨w', hw', hwuse', hwchan, hwnote, -⟩ := hvs j w hw hwuse
  exact h i j v' w' hv' hw' hvuse' hwuse' (hvchan.trans (hchan.trans hwchan.symm))
    (hvnote.trans (hnote.trans hwnote.symm))

theorem Voice.sounds_iff {c : Chan} {an : Int} {v : Voice} :
    Voice.sounds c an v = true ↔ v.inuse = true ∧ v.chan = c ∧ v.note = an := by
  simp only [Voice.sounds, Bool.and_eq_true, beq_iff_eq, and_assoc]

/-- Among unique Held slots and with the full reuse scan, no slot but the selected one sounds the note (R151, R152). -/
theorem selectVoice_only {s : State} {c : Chan} {an : Int} {x : Choice} (hscan : s.cfg.fullReuseScan = true)
    (hu : s.UniqueVoices) (h : s.selectVoice c an = some x) {j : Nat} {w : Voice} (hw : s.vs[j]? = some w)
    (hsounds : Voice.sounds c an w = true) : j = x.slot := by
  have hreuse : s.reuseVoice c an = s.vs.findIdx? (Voice.sounds c an) := by rw [State.reuseVoice, if_pos hscan]
  rw [State.selectVoice, hreuse] at h
  cases hfind : s.vs.findIdx? (Voice.sounds c an) with
  | some i =>
    rw [hfind] at h
    obtain rfl := Option.some.inj h
    obtain ⟨hi, hsi, -⟩ := List.findIdx?_eq_some_iff_getElem.mp hfind
    obtain ⟨hiuse, hichan, hinote⟩ := Voice.sounds_iff.mp hsi
    obtain ⟨hwuse, hwchan, hwnote⟩ := Voice.sounds_iff.mp hsounds
    exact hu j i w _ hw (List.getElem?_eq_getElem hi) hwuse hiuse (hwchan.trans hichan.symm) (hwnote.trans hinote.symm)
  | none =>
    rw [List.findIdx?_eq_none_iff] at hfind
    rw [hfind w (List.mem_of_getElem? hw)] at hsounds
    cases hsounds

/-- The slots after an FM note-on: the selected one is the new note's with the tick as its stamp, the others are as they
were (R151, R154). -/
theorem noteOnFM_voices {s t : State} {c : Chan} {n vel : Data} (h : s.noteOnFM c n vel = some t) :
    ∃ x, s.selectVoice c (s.adjNote c n (s.effective c)) = some x ∧ x.slot < s.vs.length ∧
      t.vs = s.vs.set x.slot ⟨true, s.adjNote c n (s.effective c), c, vel, s.cvol vel c, s.tick⟩ := by
  obtain ⟨x, hx, rfl⟩ := noteOnFM_eq_some h
  have hlt := selectVoice_lt hx
  exact ⟨x, hx, hlt, modify_eq_set_of_getElem? (List.getElem?_eq_getElem hlt) _⟩

/-- Setting one slot to a Held one keeps the others' uniqueness where none of them sounds its note. -/
theorem uniqueVoices_set {s t : State} {i : Nat} {x : Voice} (hu : s.UniqueVoices) (hvs : t.vs = s.vs.set i x)
    (hother : ∀ (j : Nat) (w : Voice), s.vs[j]? = some w → Voice.sounds x.chan x.note w = true → j = i) :
    t.UniqueVoices := by
  intro j k v w hv hw hvuse hwuse hchan hnote
  rw [hvs, List.getElem?_set] at hv hw
  split at hv
  · next hj =>
    split at hv
    · obtain rfl := Option.some.inj hv
      split at hw
      · next hk => exact hj.symm.trans hk
      · exact hj.symm.trans (hother k w hw (Voice.sounds_iff.mpr ⟨hwuse, hchan.symm, hnote.symm⟩)).symm
    · cases hv
  · split at hw
    · next hk =>
      split at hw
      · obtain rfl := Option.some.inj hw
        exact (hother j v hv (Voice.sounds_iff.mpr ⟨hvuse, hchan, hnote⟩)).trans hk
      · cases hw
    · exact hu j k v w hv hw hvuse hwuse hchan hnote

/-- With the full reuse scan every command keeps the Held slots unique: only an FM note-on makes one Held, and no other
sounds its note. -/
theorem exec_keeps_unique {i : Instr} {s t : State} (hscan : s.cfg.fullReuseScan = true) (hu : s.UniqueVoices)
    (h : exec i s = .next t) : t.UniqueVoices := by
  rcases port_cases i with hport | hport
  · rcases exec_realTime_cases hport h with hcalm | ⟨n, -, hcalm⟩ | ⟨c, n, vel, -, hcalm | hfm⟩
    · exact hu.heldFrom hcalm.held
    · exact hu.heldFrom hcalm.held
    · exact hu.heldFrom hcalm.held
    · obtain ⟨x, hx, -, hvs⟩ := noteOnFM_voices hfm
      exact uniqueVoices_set hu hvs (fun j w hw hsounds => selectVoice_only hscan hu hx hw hsounds)
  · obtain ⟨-, hvs, -⟩ := exec_host_kept hport h
    exact hu.heldFrom (hvs ▸ heldFrom_refl s.vs)

/-- Settles O13: a step runs one command or leaves the slots. -/
theorem stepKeepsVoicesUnique : Obligations.StepKeepsVoicesUnique := by
  intro s t hscan hu hstep
  rcases step_cases hstep with ⟨hvs, -, -⟩ | ⟨i, rest, hexec⟩
  · exact hu.heldFrom (hvs ▸ heldFrom_refl s.vs)
  · exact exec_keeps_unique (s := { s with input := rest }) hscan hu hexec

/-- Slots that come from Held slots with distinct stamps keep them distinct, and below a tick that did not fall. -/
theorem State.StampsDistinct.heldFrom {s t : State} (h : s.StampsDistinct) (hvs : HeldFrom s.vs t.vs)
    (htick : s.tick.toNat ≤ t.tick.toNat) : t.StampsDistinct := by
  obtain ⟨hbelow, hdistinct⟩ := h
  refine ⟨fun i v hv huse => ?_, fun i j v w hv hw hvuse hwuse hlast => ?_⟩
  · obtain ⟨u, hu, huuse, -, -, hulast⟩ := hvs i v hv huse
    exact hulast ▸ (hbelow i u hu huuse).trans_le htick
  · obtain ⟨v', hv', hvuse', -, -, hvlast⟩ := hvs i v hv hvuse
    obtain ⟨w', hw', hwuse', -, -, hwlast⟩ := hvs j w hw hwuse
    exact hdistinct i j v' w' hv' hw' hvuse' hwuse' (hvlast.trans (hlast.trans hwlast.symm))

/-- Setting one slot to one stamped with the tick keeps stamps distinct, and below a tick that rose. -/
theorem stampsDistinct_set {s t : State} {i : Nat} {x : Voice} (h : s.StampsDistinct) (hvs : t.vs = s.vs.set i x)
    (hlast : x.last = s.tick) (htick : s.tick.toNat < t.tick.toNat) : t.StampsDistinct := by
  obtain ⟨hbelow, hdistinct⟩ := h
  have hcases : ∀ (j : Nat) (v : Voice), t.vs[j]? = some v → v.inuse = true →
      (j = i ∧ v.last = s.tick) ∨ (s.vs[j]? = some v ∧ v.last.toNat < s.tick.toNat) := by
    intro j v hv huse
    rw [hvs, List.getElem?_set] at hv
    split at hv
    · next hj =>
      split at hv
      · obtain rfl := Option.some.inj hv
        exact .inl ⟨hj.symm, hlast⟩
      · cases hv
    · exact .inr ⟨hv, hbelow j v hv huse⟩
  refine ⟨fun j v hv huse => ?_, fun j k v w hv hw hvuse hwuse hvw => ?_⟩
  · rcases hcases j v hv huse with ⟨-, hv⟩ | ⟨-, hv⟩
    · rwa [hv]
    · exact hv.trans htick
  · rcases hcases j v hv hvuse with ⟨hj, hvlast⟩ | ⟨hv', hvlt⟩
    · rcases hcases k w hw hwuse with ⟨hk, -⟩ | ⟨-, hwlt⟩
      · rw [hj, hk]
      · rw [← hvw, hvlast] at hwlt; exact absurd hwlt (lt_irrefl _)
    · rcases hcases k w hw hwuse with ⟨-, hwlast⟩ | ⟨hw', -⟩
      · rw [hvw, hwlast] at hvlt; exact absurd hvlt (lt_irrefl _)
      · exact hdistinct j k v w hv' hw' hvuse hwuse hvw

/-- Short of a wrap the tick rises by what is added to it. -/
theorem tick_add_toNat {s : State} (hwrap : s.tick.toNat + 2 ^ 24 < 2 ^ 64) {n : BitVec 64} (hn : n.toNat ≤ 2 ^ 24) :
    (s.tick + n).toNat = s.tick.toNat + n.toNat := by
  rw [BitVec.toNat_add, Nat.mod_eq_of_lt (by omega)]

/-- Short of a wrap every command keeps stamps distinct and below the tick: only an FM note-on stamps a slot, with a
tick that no stamp has reached. -/
theorem exec_keeps_stamps {i : Instr} {s t : State} (hwrap : s.tick.toNat + 2 ^ 24 < 2 ^ 64) (hd : s.StampsDistinct)
    (h : exec i s = .next t) : t.StampsDistinct := by
  have hone : (s.tick + 1).toNat = s.tick.toNat + 1 := tick_add_toNat hwrap (by decide)
  rcases port_cases i with hport | hport
  · rcases exec_realTime_cases hport h with hcalm | ⟨n, -, hcalm⟩ | ⟨c, n, vel, -, hcalm | hfm⟩
    · exact hd.heldFrom hcalm.held (congrArg BitVec.toNat hcalm.tick).ge
    · refine hd.heldFrom hcalm.held ?_
      have hn : (n.setWidth 64).toNat ≤ 2 ^ 24 := by
        rw [BitVec.toNat_setWidth_of_le (by decide)]; exact n.isLt.le
      rw [hcalm.tick, State.advanceTick_tick, tick_add_toNat hwrap hn]
      exact Nat.le_add_right _ _
    · refine hd.heldFrom hcalm.held ?_
      rw [hcalm.tick, State.advanceTick_tick, hone]
      exact Nat.le_succ _
    · obtain ⟨x, -, -, hvs⟩ := noteOnFM_voices hfm
      obtain ⟨htick, -⟩ := noteOnFM_kept hfm
      refine stampsDistinct_set hd hvs rfl ?_
      rw [htick, hone]
      exact Nat.lt_succ_self _
  · obtain ⟨htick, hvs, -⟩ := exec_host_kept hport h
    exact hd.heldFrom (hvs ▸ heldFrom_refl s.vs) (congrArg BitVec.toNat htick).ge

/-- Settles O14: a step runs one command or leaves slots and tick. -/
theorem stepKeepsStampsDistinct : Obligations.StepKeepsStampsDistinct := by
  intro s t hwrap hd hstep
  rcases step_cases hstep with ⟨hvs, htick, -⟩ | ⟨i, rest, hexec⟩
  · exact hd.heldFrom (hvs ▸ heldFrom_refl s.vs) (congrArg BitVec.toNat htick).ge
  · exact exec_keeps_stamps (s := { s with input := rest }) hwrap hd hexec

/-! ### The held lists -/

theorem State.chan_eq_of_ch {s t : State} (h : t.ch = s.ch) (c : Chan) : t.chan c = s.chan c := by
  unfold State.chan
  congr 1

/-- A channel's held list needs its pedal (R164). -/
def Channel.HeldOk (x : Channel) : Prop := x.sus = false → x.held = 0

theorem State.HeldNeedsPedal.of_ch {s t : State} (h : s.HeldNeedsPedal) (hch : t.ch = s.ch) : t.HeldNeedsPedal :=
  fun c => by rw [State.chan_eq_of_ch hch]; exact h c

/-- A channel write keeps the held lists in order where it does so on its channel. -/
theorem State.HeldNeedsPedal.modChan {s : State} (h : s.HeldNeedsPedal) {c : Chan} {f : Channel → Channel}
    (hf : (f (s.chan c)).HeldOk) : (s.modChan c f).HeldNeedsPedal := by
  intro c'
  by_cases hc : c' = c
  · subst hc; rw [State.modChan_chan_same]; exact hf
  · rw [State.modChan_chan_ne hc]; exact h c'

/-- Releasing a slot touches no channel. -/
theorem State.releaseVoice_ch (s : State) (c : Chan) (n : Data) : (s.releaseVoice c n).ch = s.ch := by
  unfold State.releaseVoice
  split
  · rfl
  · rfl

/-- With the pedal up the held notes are released, which touches no channel (R156, R158). -/
theorem releaseLoop_ch {c : Chan} (ns : List Nat) {s : State} (hup : (s.chan c).sus = false) :
    (ns.foldl (State.releaseHeld c) s).ch = s.ch := by
  induction ns generalizing s with
  | nil => rfl
  | cons n ns ih =>
    have hstep : (State.releaseHeld c s n).ch = s.ch := by
      unfold State.releaseHeld State.noteOffFM
      rw [hup]
      split
      · exact State.releaseVoice_ch s c _
      · rfl
    rw [List.foldl_cons, ih (by rw [State.chan_eq_of_ch hstep]; exact hup), hstep]

/-- CC64 keeps the held lists in order: the release edge empties the channel's list, and else its flag is set or was 0
with the list empty (R227). -/
theorem State.HeldNeedsPedal.sustainPedal {s : State} (h : s.HeldNeedsPedal) (c : Chan) (v : Data) :
    (s.sustainPedal c v).HeldNeedsPedal := by
  unfold State.sustainPedal
  split
  · next hedge =>
    obtain ⟨-, hup⟩ : (s.chan c).sus = true ∧ pressed v = false := by simpa using hedge
    have hch : ((List.range 128).foldl (State.releaseHeld c) (s.modChan c (fun x => { x with sus := pressed v }))).ch =
        (s.modChan c (fun x => { x with sus := pressed v })).ch :=
      releaseLoop_ch _ (by rw [State.modChan_chan_same]; exact hup)
    intro c'
    unfold State.sustainRelease
    by_cases hc : c' = c
    · subst hc; rw [State.modChan_chan_same]; exact fun _ => rfl
    · rw [State.modChan_chan_ne hc, State.chan_eq_of_ch hch, State.modChan_chan_ne hc]; exact h c'
  · next hedge =>
    refine h.modChan (fun hup => h c ?_)
    replace hup : pressed v = false := hup
    simpa [hup] using hedge

theorem Channel.dataEntry_sus_held (x : Channel) (v : Data) :
    (x.dataEntry v).sus = x.sus ∧ (x.dataEntry v).held = x.held := by
  unfold Channel.dataEntry
  split_ifs <;> exact ⟨rfl, rfl⟩

/-- What a controller does keeps the held lists in order: CC64 by the edge rule, and no other touches flag or list. -/
theorem State.HeldNeedsPedal.control {s : State} (h : s.HeldNeedsPedal) (c : Chan) (ctrl v : Data) :
    (s.control c ctrl v).HeldNeedsPedal := by
  unfold State.control
  split
  · exact h.modChan (h c)
  · refine h.modChan ?_
    obtain ⟨hsus, hheld⟩ := (s.chan c).dataEntry_sus_held v
    rw [Channel.HeldOk, hsus, hheld]
    exact h c
  · exact h.of_ch rfl
  · exact h.of_ch rfl
  · exact h.of_ch rfl
  · exact h.sustainPedal c v
  · exact h.modChan (h c)
  · exact h.modChan (h c)
  · unfold State.soundOff; split <;> exact h.of_ch rfl
  · unfold State.soundOff; split <;> exact h.of_ch rfl
  · exact h

/-- NOTE_OFF keeps the held lists in order: it adds a note only with the pedal down (R156, R157). -/
theorem State.HeldNeedsPedal.noteOffFM {s : State} (h : s.HeldNeedsPedal) (c : Chan) (n : Data) :
    (s.noteOffFM c n).HeldNeedsPedal := by
  unfold State.noteOffFM
  split
  · next hdown => exact h.modChan (fun hup => absurd (hdown.symm.trans hup) Bool.true_eq_false_eq_False)
  · exact h.of_ch (State.releaseVoice_ch s c n)

/-- A drum note-on touches no channel. -/
theorem State.triggerDrum_ch (s : State) (c : Chan) (n vel : Data) : (s.triggerDrum c n vel).ch = s.ch := by
  unfold State.triggerDrum
  split
  · rfl
  · split
    · rfl
    · rfl

/-- After a GM reset every channel has its defaults (R233). -/
theorem State.gmReset_chan (s : State) (c : Chan) : s.gmReset.chan c = Channel.atReset := by
  have hreset := State.resetChannels_chan ((s.silenceVoices (fun _ => true)).silenceDrums (fun _ => true)) c
  unfold State.gmReset
  dsimp only
  split
  · exact hreset
  · exact hreset

/-- Every command keeps the held lists in order. -/
theorem exec_keeps_heldLists {i : Instr} {s t : State} (hh : s.HeldNeedsPedal) (h : exec i s = .next t) :
    t.HeldNeedsPedal := by
  rcases port_cases i with hport | hport
  · cases i with
    | noteOff c n b =>
      obtain rfl := Host.Outcome.next.inj h
      split
      · exact hh
      · exact hh.noteOffFM c n
    | noteOn c n vel =>
      simp only [exec, execNoteOn] at h
      split at h
      · obtain rfl := Host.Outcome.next.inj h
        exact hh.of_ch (State.triggerDrum_ch s c n vel)
      · split at h
        · next u hu =>
          obtain rfl := Host.Outcome.next.inj h
          obtain ⟨-, -, -, -, hch⟩ := noteOnFM_kept hu
          exact hh.of_ch hch
        · cases h
    | cc c ctrl v =>
      obtain rfl := Host.Outcome.next.inj h
      exact State.HeldNeedsPedal.control (hh.modChan (c := c) (f := fun x => x.setCtrl ctrl v) (hh c)) c ctrl v
    | prog c p =>
      obtain rfl := Host.Outcome.next.inj h
      exact hh.modChan (hh c)
    | bend c b =>
      obtain rfl := Host.Outcome.next.inj h
      exact State.HeldNeedsPedal.of_ch (hh.modChan (c := c) (f := fun x => { x with bend := b }) (hh c)) rfl
    | gmReset =>
      obtain rfl := Host.Outcome.next.inj h
      intro c
      rw [State.gmReset_chan]
      exact fun _ => rfl
    | gsReset =>
      obtain rfl := Host.Outcome.next.inj h
      intro c
      rw [State.clearDrumset_chan, State.gmReset_chan]
      exact fun _ => rfl
    | gsDrumPart part map =>
      obtain rfl := Host.Outcome.next.inj h
      refine hh.of_ch ?_
      split
      · rfl
      · split
        · rfl
        · rfl
    | patchOverride pg ra v =>
      obtain rfl := Host.Outcome.next.inj h
      refine hh.of_ch ?_
      unfold State.setOverride
      split
      · rfl
      · split
        · rfl
        · rfl
    | tickAdv n =>
      obtain rfl := Host.Outcome.next.inj h
      exact hh.of_ch rfl
    | _ => cases hport
  · obtain ⟨-, -, hch⟩ := exec_host_kept hport h
    exact hh.of_ch hch

/-- Settles O15: a step runs one command or leaves the channels. -/
theorem stepKeepsHeldListForPedal : Obligations.StepKeepsHeldListForPedal := by
  intro s t hh hstep
  rcases step_cases hstep with ⟨-, -, hch⟩ | ⟨i, rest, hexec⟩
  · exact hh.of_ch hch
  · exact exec_keeps_heldLists (s := { s with input := rest }) hh hexec

end Sys2Proof.Machine

/-! # Images, patch bytes, reset, and the host's patch commands -/

namespace Sys2Proof.Machine

/-- Settles O20: by the laws of one image. -/
theorem imageWriteReadsBack : Obligations.ImageWriteReadsBack :=
  fun m a v => ⟨fun b => Memory.read_write m a b v, Memory.wf_write a v⟩

/-! ## The byte of a patch, range by range of the address map (R65) -/

theorem Patch.byteAt_freq {ra : Nat} (h : ra ≤ 0x0F) (Q : Patch) :
    Patch.byteAt Q ra = if ra % 2 = 0 then (Patch.opAt Q (ra / 2)).freq.extractLsb' 8 8
      else (Patch.opAt Q (ra / 2)).freq.extractLsb' 0 8 := if_pos h

theorem Patch.byteAt_vol {ra : Nat} (h : 0x10 ≤ ra ∧ ra ≤ 0x17) (Q : Patch) :
    Patch.byteAt Q ra = (Patch.opAt Q (ra - 0x10)).vol := by
  rw [Patch.byteAt, if_neg (by omega), if_pos h.2]

theorem Patch.byteAt_wave {ra : Nat} (h : 0x18 ≤ ra ∧ ra ≤ 0x1B) (Q : Patch) :
    Patch.byteAt Q ra = (Patch.opAt Q (2 * (ra - 0x18))).wf ++ (Patch.opAt Q (2 * (ra - 0x18) + 1)).wf := by
  rw [Patch.byteAt, if_neg (by omega), if_neg (by omega), if_pos h.2]

theorem Patch.byteAt_envelope {ra : Nat} (h : 0x20 ≤ ra ∧ ra ≤ 0x3F) (Q : Patch) :
    Patch.byteAt Q ra = Operator.envelope (Patch.opAt Q ((ra - 0x20) / 4)) ((ra - 0x20) % 4) := by
  rw [Patch.byteAt, if_neg (by omega), if_neg (by omega), if_neg (by omega), if_neg (by omega), if_neg (by omega),
    if_pos h]

/-- Outside the operators' ranges the byte is one of the patch's own fields, or 0x00. -/
theorem Patch.byteAt_own {ra : Nat} (h : 0x1C ≤ ra ∧ ra ≤ 0x1F ∨ 0x40 ≤ ra) (Q : Patch) :
    Patch.byteAt Q ra = if ra = 0x1C then Q.mm else if ra = 0x1F then Q.fb else if ra = 0x40 then Q.ks else 0x00 := by
  have henv : ¬ (0x20 ≤ ra ∧ ra ≤ 0x3F) := by omega
  simp only [Patch.byteAt, henv, if_neg (show ¬ ra ≤ 0x0F by omega), if_neg (show ¬ ra ≤ 0x17 by omega),
    if_neg (show ¬ ra ≤ 0x1B by omega), if_false]

/-- Settles O21: each address is in the range of its field, and the operator of the range is the one meant. -/
theorem patchBytesFollowTheRelativeAddressMap : Obligations.PatchBytesFollowTheRelativeAddressMap := by
  intro Q
  refine ⟨fun i => ?_, rfl, rfl, rfl, rfl, rfl, rfl, rfl, rfl, rfl⟩
  have hop : ∀ j : Nat, j = i.val → Patch.opAt Q j = Q.op.get i := fun j hj => by rw [hj, Patch.opAt_val]
  have henv : ∀ j < 4, Patch.byteAt Q (0x20 + j + 4 * i.val) = Operator.envelope (Q.op.get i) j := by
    intro j hj
    rw [Patch.byteAt_envelope (by omega), hop _ (by omega)]
    congr 1
    omega
  refine ⟨?_, ?_, ?_, henv 0 (by decide), henv 1 (by decide), henv 2 (by decide), henv 3 (by decide)⟩
  · rw [Patch.byteAt_freq (by omega), if_pos (by omega), hop _ (by omega)]
  · rw [Patch.byteAt_freq (by omega), if_neg (by omega), hop _ (by omega)]
  · rw [Patch.byteAt_vol (by omega), hop _ (by omega)]

/-! ## What a field write leaves (R126) -/

/-- A write to operator `i` keeps a reading of operator `j` where that is another operator or the write keeps the
reading. -/
theorem Patch.opAt_modOp_keeps {α : Type} {i j : Nat} {f : Operator → Operator} (g : Operator → α)
    (h : i % 8 ≠ j % 8 ∨ ∀ o, g (f o) = g o) (Q : Patch) :
    g (Patch.opAt (Patch.modOp Q i f) j) = g (Patch.opAt Q j) := by
  by_cases hij : i % 8 = j % 8
  · have hop : ∀ P : Patch, Patch.opAt P j = Patch.opAt P i := fun P => by
      rw [Patch.opAt, Patch.opAt, show Fin.ofNat 8 j = Fin.ofNat 8 i from Fin.ext hij.symm]
    rw [hop, hop, Patch.opAt_modOp_same]
    exact (h.resolve_left (not_not.mpr hij)) _
  · rw [Patch.opAt_modOp_ne Q hij]

/-- What the byte at `rb` reads of an operator's fields is kept by `f`, in each range of operator `i`. -/
structure KeepsByte (i rb : Nat) (f : Operator → Operator) : Prop where
  high : rb ≤ 0x0F → rb % 2 = 0 → i ≠ rb / 2 ∨ ∀ o, (f o).freq.extractLsb' 8 8 = o.freq.extractLsb' 8 8
  low : rb ≤ 0x0F → rb % 2 ≠ 0 → i ≠ rb / 2 ∨ ∀ o, (f o).freq.extractLsb' 0 8 = o.freq.extractLsb' 0 8
  vol : 0x10 ≤ rb → rb ≤ 0x17 → i ≠ rb - 0x10 ∨ ∀ o, (f o).vol = o.vol
  wave : 0x18 ≤ rb → rb ≤ 0x1B → i / 2 ≠ rb - 0x18 ∨ ∀ o, (f o).wf = o.wf
  envelope : 0x20 ≤ rb → rb ≤ 0x3F → i ≠ (rb - 0x20) / 4 ∨
    ∀ o, Operator.envelope (f o) ((rb - 0x20) % 4) = Operator.envelope o ((rb - 0x20) % 4)

/-- A write to one operator leaves every byte whose reading it keeps. -/
theorem Patch.byteAt_modOp {i rb : Nat} {f : Operator → Operator} (hi : i < 8) (h : KeepsByte i rb f) (Q : Patch) :
    Patch.byteAt (Patch.modOp Q i f) rb = Patch.byteAt Q rb := by
  by_cases hfreq : rb ≤ 0x0F
  · rw [Patch.byteAt_freq hfreq, Patch.byteAt_freq hfreq]
    split
    · next heven =>
      exact Patch.opAt_modOp_keeps (fun o => o.freq.extractLsb' 8 8) ((h.high hfreq heven).imp_left (by omega)) Q
    · next hodd =>
      exact Patch.opAt_modOp_keeps (fun o => o.freq.extractLsb' 0 8) ((h.low hfreq hodd).imp_left (by omega)) Q
  by_cases hvol : rb ≤ 0x17
  · rw [Patch.byteAt_vol (by omega), Patch.byteAt_vol (by omega)]
    exact Patch.opAt_modOp_keeps Operator.vol ((h.vol (by omega) hvol).imp_left (by omega)) Q
  by_cases hwave : rb ≤ 0x1B
  · have hwf := h.wave (by omega) hwave
    rw [Patch.byteAt_wave (by omega), Patch.byteAt_wave (by omega),
      Patch.opAt_modOp_keeps Operator.wf (hwf.imp_left (by omega)) Q,
      Patch.opAt_modOp_keeps Operator.wf (hwf.imp_left (by omega)) Q]
  by_cases henv : 0x20 ≤ rb ∧ rb ≤ 0x3F
  · rw [Patch.byteAt_envelope henv, Patch.byteAt_envelope henv]
    exact Patch.opAt_modOp_keeps (fun o => Operator.envelope o ((rb - 0x20) % 4))
      ((h.envelope henv.1 henv.2).imp_left (by omega)) Q
  · rw [Patch.byteAt_own (by omega), Patch.byteAt_own (by omega)]
    rfl

/-- A patch with the same operators reads the same wherever its own fields do. -/
theorem Patch.byteAt_of_op_eq {P Q : Patch} {rb : Nat} (hop : P.op = Q.op) (hmm : rb = 0x1C → P.mm = Q.mm)
    (hfb : rb = 0x1F → P.fb = Q.fb) (hks : rb = 0x40 → P.ks = Q.ks) : Patch.byteAt P rb = Patch.byteAt Q rb := by
  have hopAt : ∀ i, Patch.opAt P i = Patch.opAt Q i := fun i => by rw [Patch.opAt, Patch.opAt, hop]
  unfold Patch.byteAt
  simp only [hopAt]
  split_ifs <;> simp_all

/-- An envelope byte is no other. -/
theorem Operator.envelope_setEnvelope_ne {j k : Nat} (hj : j < 4) (hk : k < 4) (h : j ≠ k) (o : Operator) (v : Byte) :
    Operator.envelope (Operator.setEnvelope o j v) k = Operator.envelope o k := by
  unfold Operator.setEnvelope Operator.envelope
  split_ifs <;> grind

theorem Operator.setEnvelope_kept (o : Operator) (j : Nat) (v : Byte) :
    (Operator.setEnvelope o j v).freq = o.freq ∧ (Operator.setEnvelope o j v).vol = o.vol ∧
      (Operator.setEnvelope o j v).wf = o.wf := by
  unfold Operator.setEnvelope
  split_ifs <;> exact ⟨rfl, rfl, rfl⟩

/-- A field write leaves the byte at every other address, range by range of the written one (R126). -/
theorem Patch.byteAt_write_other {ra rb : Nat} (h : rb ≠ ra) (Q : Patch) (v : Byte) :
    Patch.byteAt (Patch.write Q ra v) rb = Patch.byteAt Q rb := by
  unfold Patch.write
  by_cases hfreq : ra ≤ 0x0F
  · rw [if_pos hfreq]
    refine Patch.byteAt_modOp (by omega) ⟨fun _ heven => ?_, fun _ hodd => ?_, fun _ _ => .inr fun o => ?_,
      fun _ _ => .inr fun o => ?_, fun _ _ => .inr fun o => ?_⟩ Q
    · by_cases hop : ra / 2 = rb / 2
      · refine .inr fun o => ?_
        rw [if_neg (by omega)]
        exact BitVec.extractLsb'_append_eq_left
      · exact .inl hop
    · by_cases hop : ra / 2 = rb / 2
      · refine .inr fun o => ?_
        rw [if_pos (by omega)]
        exact BitVec.extractLsb'_append_eq_right
      · exact .inl hop
    · split <;> rfl
    · split <;> rfl
    · split <;> rfl
  rw [if_neg hfreq]
  by_cases hvol : ra ≤ 0x17
  · rw [if_pos hvol]
    have hkeeps : KeepsByte (ra - 0x10) rb (fun o => { o with vol := v }) :=
      ⟨fun _ _ => .inr fun _ => rfl, fun _ _ => .inr fun _ => rfl, fun _ _ => .inl (by omega),
        fun _ _ => .inr fun _ => rfl, fun _ _ => .inr fun _ => rfl⟩
    exact Patch.byteAt_modOp (by omega) hkeeps Q
  rw [if_neg hvol]
  by_cases hwave : ra ≤ 0x1B
  · rw [if_pos hwave]
    have hkeeps : ∀ (i : Nat) (w : BitVec 4), i / 2 = ra - 0x18 → KeepsByte i rb (fun o => { o with wf := w }) :=
      fun i w hi => ⟨fun _ _ => .inr fun _ => rfl, fun _ _ => .inr fun _ => rfl, fun _ _ => .inr fun _ => rfl,
        fun _ _ => .inl (by omega), fun _ _ => .inr fun _ => rfl⟩
    rw [Patch.byteAt_modOp (by omega) (hkeeps _ _ (by omega)), Patch.byteAt_modOp (by omega) (hkeeps _ _ (by omega))]
  rw [if_neg hwave]
  by_cases hmode : ra = 0x1C
  · rw [if_pos hmode]
    exact Patch.byteAt_of_op_eq rfl (fun hrb => absurd (hrb.trans hmode.symm) h) (fun _ => rfl) (fun _ => rfl)
  rw [if_neg hmode]
  by_cases hfb : ra = 0x1F
  · rw [if_pos hfb]
    exact Patch.byteAt_of_op_eq rfl (fun _ => rfl) (fun hrb => absurd (hrb.trans hfb.symm) h) (fun _ => rfl)
  rw [if_neg hfb]
  by_cases henv : 0x20 ≤ ra ∧ ra ≤ 0x3F
  · rw [if_pos henv]
    have hkeeps : KeepsByte ((ra - 0x20) / 4) rb (fun o => Operator.setEnvelope o ((ra - 0x20) % 4) v) := by
      have hkept := fun o => Operator.setEnvelope_kept o ((ra - 0x20) % 4) v
      refine ⟨fun _ _ => .inr fun o => ?_, fun _ _ => .inr fun o => ?_, fun _ _ => .inr fun o => ?_,
        fun _ _ => .inr fun o => ?_, fun hlow hhigh => ?_⟩
      · rw [(hkept o).1]
      · rw [(hkept o).1]
      · exact (hkept o).2.1
      · exact (hkept o).2.2
      · by_cases hop : (ra - 0x20) / 4 = (rb - 0x20) / 4
        · exact .inr fun o => Operator.envelope_setEnvelope_ne (by omega) (by omega) (by omega) o v
        · exact .inl hop
    exact Patch.byteAt_modOp (by omega) hkeeps Q
  rw [if_neg henv]
  split
  · next hks =>
    exact Patch.byteAt_of_op_eq rfl (fun _ => rfl) (fun _ => rfl) (fun hrb => absurd (hrb.trans hks.symm) h)
  · rfl

/-- An address that names no field changes nothing (R126). -/
theorem Patch.write_of_noField {ra : Nat} (h : namesField ra = false) (Q : Patch) (v : Byte) :
    Patch.write Q ra v = Q := by
  simp only [namesField, decide_eq_false_iff_not] at h
  rw [Patch.write, if_neg (by omega), if_neg (by omega), if_neg (by omega), if_neg (by omega), if_neg (by omega),
    if_neg (by omega), if_neg (by omega)]

/-- Settles O22: the written byte, the others, the flag, and an address without a field. -/
theorem patchWriteSetsExactlyItsByte : Obligations.PatchWriteSetsExactlyItsByte :=
  fun Q ra v => ⟨Patch.write_defined Q ra v, fun h => Patch.byteAt_write_same h Q v,
    fun _ hrb => Patch.byteAt_write_other hrb Q v, fun h => Patch.write_of_noField h Q v⟩

/-! ## The ends of the volume range (R123) -/

/-- Settles O24: the scaled volume is `vol × m / 255`, which is 0 for 0 and `vol` for 255; the unscaled one names no
`m`. -/
theorem scaledVolumeEndsAreExact : Obligations.ScaledVolumeEndsAreExact := by
  intro vsm P i
  refine ⟨fun mm hmm hscaled => ?scaled, fun hplain m m' => ?plain⟩
  case scaled =>
    have hvol := fun m => opVol_of_scales ((scales_of_row hmm vsm i).trans hscaled) m
    rw [encodeByte_volume, encodeByte_volume]
    constructor
    · apply BitVec.eq_of_toNat_eq
      rw [hvol]
      simp
    · apply BitVec.eq_of_toNat_eq
      rw [hvol]
      exact Nat.mul_div_cancel _ (by decide)
  case plain =>
    have hscales : scales vsm P.mm i.val = false := by
      rcases hplain with hrow | ⟨mm, hmm, hfalse⟩
      · exact scales_of_noRow hrow vsm i.val
      · exact (scales_of_row hmm vsm i).trans hfalse
    rw [encodeByte_volume, encodeByte_volume, opVol_of_not_scales hscales, opVol_of_not_scales hscales]

/-! ## Reset (R48, R290) -/

theorem State.resetOf_chan (p : Params) (c : Chan) : (State.resetOf p).chan c = Channel.atReset := by
  simp [State.chan, State.resetOf]

/-- The controller table at reset (R30). -/
theorem Channel.atReset_ctrl (i : Data) :
    Channel.atReset.ctrl i = if i = 7 ∨ i = 11 then 127 else if i = 10 then 64 else 0 := by
  revert i
  decide

/-- Nothing is written at reset (R292). -/
theorem State.resetOf_imgByte (p : Params) (k a : Nat) : (State.resetOf p).imgByte k a = none := by
  simp only [State.imgByte, State.resetOf, List.getElem?_replicate]
  split
  · rfl
  · rfl

/-- Settles O7: every list of the reset state repeats one value, and the rest is read off. -/
theorem resetHoldsTheStatedValues : Obligations.ResetHoldsTheStatedValues := by
  intro p
  refine ⟨⟨List.length_replicate, fun v hv => ?voice⟩, ⟨List.length_replicate, fun v hv => ?drum⟩, fun c => ?chan,
    rfl, rfl, rfl, ⟨List.length_replicate, rfl, fun b hb q => ?patch⟩, rfl,
    ⟨List.length_replicate, fun b hb => List.eq_of_mem_replicate hb⟩, State.resetOf_imgByte p, rfl⟩
  case voice =>
    obtain rfl := List.eq_of_mem_replicate hv
    exact ⟨rfl, rfl, rfl, rfl, rfl, rfl⟩
  case drum =>
    obtain rfl := List.eq_of_mem_replicate hv
    exact ⟨rfl, rfl, rfl, rfl, rfl, rfl, rfl, rfl, rfl⟩
  case chan =>
    rw [State.resetOf_chan]
    exact ⟨rfl, rfl, rfl, rfl, rfl, rfl, rfl, rfl, rfl, rfl, rfl, Channel.atReset_ctrl⟩
  case patch =>
    obtain rfl := List.eq_of_mem_replicate hb
    have hq : (Vector.replicate 128 Patch.blank).get q = Patch.blank := Vector.getElem_replicate q.isLt
    rw [hq]
    exact ⟨rfl, rfl, rfl, rfl, fun i => Vector.getElem_replicate i.isLt⟩

/-- The reset state is well shaped (R48). -/
theorem State.resetOf_shaped {p : Params} (h : p.legal = true) : (State.resetOf p).Shaped where
  legal := h
  voices := List.length_replicate
  drums := List.length_replicate
  live := List.length_replicate
  originals := List.length_replicate
  locks := List.length_replicate
  images := List.length_replicate
  canonical m hm := by
    obtain rfl := List.eq_of_mem_replicate hm
    exact List.Pairwise.nil
  cursor := Nat.mul_pos (Params.legal_facts h).chips (by decide)
  pointer _ hx := nomatch hx
  channelTen := by simp [State.resetOf]

/-- No slot is Held at reset (R48). -/
theorem State.resetOf_free {p : Params} {i : Nat} {v : Voice} (hv : (State.resetOf p).vs[i]? = some v) :
    v.inuse = false := by
  obtain rfl := List.eq_of_mem_replicate (List.mem_of_getElem? hv)
  rfl

/-- Settles O8: the trace is empty, no lock is taken, no slot is Held and no pedal is down. -/
theorem resetMeetsTheInvariants : Obligations.ResetMeetsTheInvariants := by
  refine ⟨by decide, rfl, fun p hp => ⟨State.resetOf_shaped hp, fun b hb => List.eq_of_mem_replicate hb, rfl, rfl,
    fun e he => absurd he List.not_mem_nil, ?unique, ⟨?below, ?distinct⟩, fun c _ => ?held⟩⟩
  case unique =>
    intro i j v w hv _ huse
    exact absurd ((State.resetOf_free hv).symm.trans huse) Bool.false_ne_true
  case below =>
    intro i v hv huse
    exact absurd ((State.resetOf_free hv).symm.trans huse) Bool.false_ne_true
  case distinct =>
    intro i j v w hv _ huse
    exact absurd ((State.resetOf_free hv).symm.trans huse) Bool.false_ne_true
  case held =>
    rw [State.resetOf_chan]
    rfl

/-! ## PATCH_DEFINE and PATCH_READ (R240, R242) -/

/-- PATCH_DEFINE of an absent bank follows the switch (log 23). -/
theorem exec_patchDefine_of_absent {s : State} {b : Data} (h : s.cfg.nbanks ≤ b.toNat) (p : Data) :
    exec (.patchDefine b p) s = .next s.defineAbsent := by
  simp [exec, execPatchDefine, h]

/-- PATCH_DEFINE of a present bank writes both copies and the pointer (R240). -/
theorem exec_patchDefine_of_present {s : State} {b : Data} (h : b.toNat < s.cfg.nbanks) (p : Data) :
    exec (.patchDefine b p) s =
      .next (((s.modLive b.toNat p (fun _ => Patch.loadDefaults)).modOriginal b.toNat p
        (fun _ => Patch.loadDefaults)).setPointer (some (b, p))) := by
  simp [exec, execPatchDefine, h]

/-- Settles O57: an absent bank by the switch, a present one by the two sets, of which neither sees the other. -/
theorem patchDefineSetsLoadDefaults : Obligations.PatchDefineSetsLoadDefaults := by
  intro s b p hs
  refine ⟨fun habsent hclear => ?clears, fun habsent hkeep => ?keeps, fun k o hk ho => ?present⟩
  case clears => rw [exec_patchDefine_of_absent habsent, State.defineAbsent, if_pos hclear]; rfl
  case keeps => rw [exec_patchDefine_of_absent habsent, State.defineAbsent, if_neg (by simp [hkeep])]
  case present =>
    have hlt : b.toNat < s.cfg.nbanks := hs.live ▸ lt_of_getElem?_some hk
    have ho' : (s.modLive b.toNat p (fun _ => Patch.loadDefaults)).po[b.toNat]? = some o := ho
    rw [exec_patchDefine_of_present hlt, State.modOriginal_eq_set ho', State.modLive_eq_set hk]
    rfl

/-- The answer of PATCH_READ is the lookup's (R242). -/
theorem exec_patchRead (s : State) (b p : Data) :
    exec (.patchRead b p) s = .next { s with replies := s.replies ++ [s.readPatch b p] } := rfl

theorem State.readPatch_of_none {s : State} {b p : Data} (h : s.definedPatch b.toNat p.toNat = none) :
    s.readPatch b p = .absent := by
  simp [State.readPatch, h]

theorem State.readPatch_of_some {s : State} {b p : Data} {Q : Patch} (h : s.definedPatch b.toNat p.toNat = some Q) :
    s.readPatch b p = .present (Patch.bytes Q) := by
  simp [State.readPatch, h]

/-- Settles O59: the lookup finds nothing in an absent bank, and in a present one the patch if it is defined. -/
theorem patchReadAnswersTheLivePatch : Obligations.PatchReadAnswersTheLivePatch := by
  intro s b p hs
  refine ⟨_, exec_patchRead s b p, fun habsent => ?absent, fun k hk => ⟨fun hd => ?undefined, fun hd => ?defined⟩⟩
  case absent =>
    exact State.readPatch_of_none (State.definedPatch_of_outside (.inr (.inl (Int.ofNat_le.mpr habsent))))
  case undefined =>
    exact State.readPatch_of_none (State.definedPatch_of_undefined (q := p.toFin) hs (Int.natCast_nonneg _) hk hd)
  case defined =>
    refine ⟨_, State.readPatch_of_some (State.definedPatch_of_defined (q := p.toFin) hs (Int.natCast_nonneg _) hk hd),
      by simp [Patch.bytes], fun a ha => ?_⟩
    simp [Patch.bytes, ha]

end Sys2Proof.Machine

/-! # NOTE_OFF, the pedal without an edge, and the controller table -/

namespace Sys2Proof.Machine

open Sys2Proof.Claims

/-! ## The selection of a slot, as the statements say it -/

/-- The model's adjusted note is that of the statements (R134). -/
theorem State.adjNote_eq (s : State) (c : Chan) (n : Data) : s.adjNote c n (s.effective c) = adjusted s c n := rfl

/-- The model's test for a sounding slot decides the predicate of the statements. -/
theorem Voice.sounds_iff_Sounds {c : Chan} {an : Int} {v : Voice} : Voice.sounds c an v = true ↔ Sounds v c an :=
  Voice.sounds_iff

/-- The first element that passes a test is the one that passes it with none before it passing. -/
theorem findIdx?_eq_some_of_first {α : Type} {xs : List α} {p : α → Bool} {i : Nat} {x : α} (hx : xs[i]? = some x)
    (hp : p x = true) (hfirst : ∀ (j : Nat) (y : α), j < i → xs[j]? = some y → ¬ p y = true) :
    xs.findIdx? p = some i := by
  obtain ⟨hi, rfl⟩ := List.getElem?_eq_some_iff.mp hx
  exact List.findIdx?_eq_some_iff_getElem.mpr ⟨hi, hp, fun j hj =>
    hfirst j _ hj (List.getElem?_eq_getElem (hj.trans hi))⟩

/-- No element passes a test that each one fails. -/
theorem findIdx?_eq_none_of_forall {α : Type} {xs : List α} {p : α → Bool}
    (h : ∀ (j : Nat) (y : α), xs[j]? = some y → ¬ p y = true) : xs.findIdx? p = none := by
  rw [List.findIdx?_eq_none_iff]
  intro y hy
  obtain ⟨j, hj⟩ := List.mem_iff_getElem?.mp hy
  exact Bool.eq_false_iff.mpr (h j y hj)

/-! ## NOTE_OFF on an FM channel (R156, R157) -/

/-- On an FM channel NOTE_OFF is the FM pool's note-off (R221). -/
theorem exec_noteOff_fm {s : State} {c : Chan} (h : ¬ isDrum s c) (n b : Data) :
    exec (.noteOff c n b) s = .next (s.noteOffFM c n) := by
  rw [exec_noteOff, if_neg (mt State.isDrumChan_iff.mp h)]

/-- With the pedal down the note is held (R157). -/
theorem State.noteOffFM_of_down {s : State} {c : Chan} (h : (s.chan c).sus = true) (n : Data) :
    s.noteOffFM c n = s.modChan c (fun x => x.hold n) := if_pos h

/-- With the pedal up the slot is released (R156). -/
theorem State.noteOffFM_of_up {s : State} {c : Chan} (h : (s.chan c).sus = false) (n : Data) :
    s.noteOffFM c n = s.releaseVoice c n := if_neg (by simp [h])

/-- The held list gains exactly the raw note (R157). -/
theorem Channel.hold_getLsbD (x : Channel) (n m : Data) :
    (x.hold n).held.getLsbD m.toNat = (x.held.getLsbD m.toNat || m == n) := by
  have hbit : (1#128 <<< n.toNat).getLsbD m.toNat = (m == n) := by
    rw [← BitVec.twoPow_eq, BitVec.getLsbD_twoPow, Bool.eq_iff_iff]
    have hn : n.toNat < 128 := n.isLt
    simp only [hn, decide_true, Bool.true_and, decide_eq_true_eq, beq_iff_eq, BitVec.toNat_inj]
    exact eq_comm
  rw [Channel.hold_held, BitVec.getLsbD_or, hbit]

/-- Settles O29: the command is the one channel write of R157. -/
theorem noteOffWithPedalDownOnlyHolds : Obligations.NoteOffWithPedalDownOnlyHolds := by
  intro s c n b hfm hdown
  refine ⟨_, exec_noteOff_fm hfm n b, ?_⟩
  rw [State.noteOffFM_of_down hdown]
  refine ⟨rfl, fun c' hc => State.modChan_chan_ne hc s _, ?_, fun m => ?_⟩
  · rw [State.modChan_chan_same]; rfl
  · rw [State.modChan_chan_same]; exact Channel.hold_getLsbD _ n m

/-- An orphan release does nothing (R156). -/
theorem State.releaseVoice_of_none {s : State} {c : Chan} {n : Data}
    (h : s.matchVoice c (adjusted s c n) = none) : s.releaseVoice c n = s := by
  rw [State.releaseVoice, State.adjNote_eq, h]

/-- Settles O31: no slot matches, so the release does nothing. -/
theorem orphanNoteOffDoesNothing : Obligations.OrphanNoteOffDoesNothing := by
  intro s c n b hfm hup hno
  have hmatch : s.matchVoice c (adjusted s c n) = none :=
    findIdx?_eq_none_of_forall (fun j w hw hsounds => hno j w hw (Voice.sounds_iff_Sounds.mp hsounds))
  rw [exec_noteOff_fm hfm, State.noteOffFM_of_up hup, State.releaseVoice_of_none hmatch]

/-- A release frees the first matching slot and clears its gate byte (R156). -/
theorem State.releaseVoice_of_some {s : State} {c : Chan} {n : Data} {i : Nat}
    (h : s.matchVoice c (adjusted s c n) = some i) :
    s.releaseVoice c n = (s.modVoice i Voice.freed).emit (gateOffEvents s.cfg i) := by
  rw [State.releaseVoice, State.adjNote_eq, h]

/-- A release does what its one bracket says. -/
theorem acts_releaseVoice_of_some {s : State} {c : Chan} {n : Data} {i : Nat}
    (h : s.matchVoice c (adjusted s c n) = some i) :
    Acts s ((s.modVoice i Voice.freed).emit (gateOffEvents s.cfg i)) 1 (gateOffEvents s.cfg i) := by
  obtain ⟨es, hacts⟩ := acts_releaseVoice s c n
  rw [State.releaseVoice_of_some h] at hacts
  exact hacts.of_out rfl

/-- A release writes the gate byte of its slot alone, with 0 (R156). -/
theorem wr_mem_gateOffEvents {s : State} {i k x : Nat} {b : Byte} :
    Event.wr k x b ∈ gateOffEvents s.cfg i ↔ atVoice s i 0x1E k x ∧ b = 0 := by
  rw [gateOffEvents, wr_mem_bracket, List.mem_singleton, Event.wr.injEq, atVoice, and_assoc]

/-- Settles O30: the first matching slot is the one released. -/
theorem noteOffReleasesTheFirstMatchingVoice : Obligations.NoteOffReleasesTheFirstMatchingVoice := by
  intro s c n b i v hs hu hfm hup hv hsounds hfirst
  have hmatch : s.matchVoice c (adjusted s c n) = some i :=
    findIdx?_eq_some_of_first hv (Voice.sounds_iff_Sounds.mpr hsounds)
      (fun j w hj hw hp => hfirst j w hj hw (Voice.sounds_iff_Sounds.mp hp))
  have hacts := acts_releaseVoice_of_some hmatch
  refine ⟨(s.modVoice i Voice.freed).emit (gateOffEvents s.cfg i), ?step, ?state, ?gate, fun k x hno => ?frame⟩
  case step => rw [exec_noteOff_fm hfm, State.noteOffFM_of_up hup, State.releaseVoice_of_some hmatch]
  case state =>
    have hset : s.vs.set i { v with inuse := false, note := 0 } = s.vs.modify i Voice.freed :=
      (modify_eq_set_of_getElem? hv Voice.freed).symm
    rw [hset]
    conv_rhs => rw [← hacts.lock_of_unlocked hu]
    rfl
  case gate =>
    exact hacts.imgByte_of_wr hs (wr_mem_gateOffEvents.mpr ⟨⟨rfl, rfl⟩, rfl⟩)
      (fun _ hw => (wr_mem_gateOffEvents.mp hw).2)
  case frame => exact hacts.imgByte_of_not_wr (fun _ hw => hno (wr_mem_gateOffEvents.mp hw).1)

/-! ## The controller table (R222) -/

/-- A channel write that keeps the controller table keeps every table. -/
theorem State.modChan_chan_cc {f : Channel → Channel} (hf : ∀ x, (f x).cc = x.cc) (s : State) (c c' : Chan) :
    ((s.modChan c f).chan c').cc = (s.chan c').cc := by
  rw [State.modChan_chan]
  split
  · next hc => rw [hf, hc]
  · rfl

theorem Channel.dataEntry_cc (x : Channel) (v : Data) : (x.dataEntry v).cc = x.cc := by
  unfold Channel.dataEntry
  split_ifs <;> rfl

/-- CC64 keeps every controller table. -/
theorem State.sustainPedal_chan_cc (s : State) (c : Chan) (v : Data) (c' : Chan) :
    ((s.sustainPedal c v).chan c').cc = (s.chan c').cc := by
  unfold State.sustainPedal
  split
  · next hedge =>
    obtain ⟨-, hup⟩ : (s.chan c).sus = true ∧ pressed v = false := by simpa using hedge
    have hloop := releaseLoop_ch (c := c) (List.range 128) (s := s.modChan c (fun x => { x with sus := pressed v }))
      (by rw [State.modChan_chan_same]; exact hup)
    refine (State.modChan_chan_cc (by intro x; rfl) _ c c').trans ?_
    rw [State.chan_eq_of_ch hloop]
    exact State.modChan_chan_cc (by intro x; rfl) s c c'
  · exact State.modChan_chan_cc (by intro x; rfl) s c c'

/-- What a controller does after its value is stored keeps every controller table (R222). -/
theorem State.control_chan_cc (s : State) (c : Chan) (ctrl v : Data) (c' : Chan) :
    ((s.control c ctrl v).chan c').cc = (s.chan c').cc := by
  unfold State.control
  split
  · exact State.modChan_chan_cc (by intro x; rfl) s c c'
  · exact State.modChan_chan_cc (fun x => x.dataEntry_cc v) s c c'
  · rfl
  · rfl
  · rfl
  · exact State.sustainPedal_chan_cc s c v c'
  · exact State.modChan_chan_cc (by intro x; rfl) s c c'
  · exact State.modChan_chan_cc (by intro x; rfl) s c c'
  · unfold State.soundOff; split <;> rfl
  · unfold State.soundOff; split <;> rfl
  · rfl

/-- Settles O40: the store writes the one entry, and what the controller does keeps the tables. -/
theorem controllerValueIsAlwaysStored : Obligations.ControllerValueIsAlwaysStored := by
  intro s c ctrl v
  refine ⟨_, exec_cc s c ctrl v, fun c' j => ?_⟩
  have hctrl : (((stored s c ctrl v).control c ctrl v).chan c').ctrl j = ((stored s c ctrl v).chan c').ctrl j := by
    unfold Channel.ctrl
    simp only [State.control_chan_cc]
  rw [hctrl, stored]
  by_cases hc : c' = c
  · subst hc
    rw [State.modChan_chan_same, Channel.setCtrl_ctrl]
    simp
  · rw [State.modChan_chan_ne hc, if_neg (fun h => hc h.1)]

/-- Settles O46: without the edge CC64 is the write of the flag (R227). -/
theorem pedalWithoutReleaseEdgeOnlySetsTheFlag : Obligations.PedalWithoutReleaseEdgeOnlySetsTheFlag := by
  intro s c v h
  have hnoEdge : ¬ (((stored s c 64 v).chan c).sus && !pressed v) = true := by
    rw [stored, State.modChan_chan_same, Channel.setCtrl_sus]
    rcases h with hup | hpressed
    · simp [hup]
    · simp [pressed, hpressed]
  rw [exec_cc, show (stored s c 64 v).control c 64 v = (stored s c 64 v).sustainPedal c v from rfl,
    State.sustainPedal, if_neg hnoEdge]
  rfl

end Sys2Proof.Machine

/-! # NOTE_ON (41_voice_alloc.md, 42_drum_alloc.md) -/

namespace Sys2Proof.Machine

open Sys2Proof.Claims

/-! ## Drum notes (R191 to R195) -/

/-- On a drum channel NOTE_ON is the drum pool's trigger (R220). -/
theorem exec_noteOn_drum {s : State} {c : Chan} (h : isDrum s c) (n vel : Data) :
    exec (.noteOn c n vel) s = .next (s.triggerDrum c n vel) := by
  rw [exec, execNoteOn, if_pos (State.isDrumChan_iff.mpr h)]

/-- The keymap lookup under channel index 9, as the statements write it (R191). -/
theorem keyLookup_eq (p : Params) (n : Data) : keyLookup p n = p.keymap.find? (fun e => e.chan == 9 && e.note == n) :=
  rfl

/-- Settles O32: the lookup finds no entry, and a miss does nothing. -/
theorem drumNoteWithoutSampleDoesNothing : Obligations.DrumNoteWithoutSampleDoesNothing := by
  intro s c n vel hdrum hmiss
  have hnone : keyLookup s.cfg n = none := by
    rw [keyLookup_eq, List.find?_eq_none]
    intro e he hkey
    rw [Bool.and_eq_true, beq_iff_eq, beq_iff_eq] at hkey
    exact hmiss e he hkey
  rw [exec_noteOn_drum hdrum, State.triggerDrum, hnone]

/-- The offsets and bytes of a trigger's twelve writes, in order (R193). -/
def triggerBytes (s : State) (e : KeyEntry) (c : Chan) (vel : Data) : List (Nat × Byte) :=
  [(0x00, (s.dword e.rate c).extractLsb' 8 8), (0x01, (s.dword e.rate c).extractLsb' 0 8),
   (0x10, e.addr.extractLsb' 16 8), (0x11, e.addr.extractLsb' 8 8), (0x12, e.addr.extractLsb' 0 8),
   (0x13, (e.addr + e.len).extractLsb' 16 8), (0x14, (e.addr + e.len).extractLsb' 8 8),
   (0x15, (e.addr + e.len).extractLsb' 0 8), (0x16, s.cfg.loopDisable[0]), (0x17, s.cfg.loopDisable[1]),
   (0x18, s.cfg.loopDisable[2]), (0x02, s.cvol vel c)]

/-- The events of a trigger write these bytes into the slot's window, and then strobe (R193). -/
theorem triggerEvents_eq (s : State) (d : Nat) (e : KeyEntry) (c : Chan) (vel : Data) :
    s.triggerEvents d e c (s.cvol vel c) = bracket (drumChip d)
      ((triggerBytes s e c vel).map (fun x => .wr (drumChip d) (dbase s.cfg d + x.1) x.2) ++
        [.strobe (drumChip d) .sampleTrig (localDrum d)]) := rfl

/-- No two of the twelve writes have one offset. -/
theorem triggerBytes_nodup (s : State) (e : KeyEntry) (c : Chan) (vel : Data) :
    ((triggerBytes s e c vel).map Prod.fst).Nodup := by
  show [0x00, 0x01, 0x10, 0x11, 0x12, 0x13, 0x14, 0x15, 0x16, 0x17, 0x18, 0x02].Nodup
  decide

/-- The offsets of a trigger are the frequency, volume, address and loop bytes of the window. -/
theorem triggerBytes_offset {s : State} {e : KeyEntry} {c : Chan} {vel : Data} {x : Nat × Byte}
    (h : x ∈ triggerBytes s e c vel) : x.1 ≤ 2 ∨ (0x10 ≤ x.1 ∧ x.1 ≤ 0x18) := by
  have hoffsets : ∀ a ∈ [0x00, 0x01, 0x10, 0x11, 0x12, 0x13, 0x14, 0x15, 0x16, 0x17, 0x18, 0x02],
      a ≤ 2 ∨ (0x10 ≤ a ∧ a ≤ 0x18) := by decide
  exact hoffsets x.1 (List.mem_map_of_mem (f := Prod.fst) h)

theorem wr_mem_triggerEvents {s : State} {d k a : Nat} {b : Byte} {e : KeyEntry} {c : Chan} {vel : Data} :
    Event.wr k a b ∈ s.triggerEvents d e c (s.cvol vel c) ↔
      ∃ x ∈ triggerBytes s e c vel, atDrum s d x.1 k a ∧ b = x.2 := by
  rw [triggerEvents_eq, wr_mem_bracket, List.mem_append, List.mem_map]
  simp only [List.mem_singleton, reduceCtorEq, or_false, Event.wr.injEq, atDrum]
  constructor
  · rintro ⟨x, hx, rfl, rfl, rfl⟩
    exact ⟨x, hx, ⟨rfl, rfl⟩, rfl⟩
  · rintro ⟨x, hx, ⟨rfl, rfl⟩, rfl⟩
    exact ⟨x, hx, rfl, rfl, rfl⟩

/-- A trigger does what its one bracket says. -/
theorem acts_startDrum_triggerEvents {s : State} {d : Nat} (hd : s.Shaped → d < s.cfg.nd) (e : KeyEntry) (c : Chan)
    (n vel : Data) : Acts s (s.startDrum d e c n vel) 1 (s.triggerEvents d e c (s.cvol vel c)) := by
  obtain ⟨es, hacts⟩ := acts_startDrum s d e c n vel hd
  exact hacts.of_out rfl

/-- Each byte of the trigger is what its offset reads afterwards. -/
theorem imgByte_startDrum {s : State} (hs : s.Shaped) {d : Nat} (hd : d < s.cfg.nd) {e : KeyEntry} {c : Chan}
    (n : Data) {vel : Data} {x : Nat × Byte} (hx : x ∈ triggerBytes s e c vel) :
    (s.startDrum d e c n vel).imgByte (drumChip d) (dbase s.cfg d + x.1) = some x.2 := by
  refine (acts_startDrum_triggerEvents (fun _ => hd) e c n vel).imgByte_of_wr hs
    (wr_mem_triggerEvents.mpr ⟨x, hx, ⟨rfl, rfl⟩, rfl⟩) (fun b hb => ?_)
  obtain ⟨y, hy, ⟨-, haddr⟩, rfl⟩ := wr_mem_triggerEvents.mp hb
  have hfst : x.1 = y.1 := Nat.add_left_cancel haddr
  exact congrArg Prod.snd (List.inj_on_of_nodup_map (triggerBytes_nodup s e c vel) hy hx hfst.symm)

/-- Modifying an existing entry to a value is setting it. -/
theorem modify_const_eq_set {α : Type} {xs : List α} {i : Nat} (h : i < xs.length) (y : α) :
    xs.modify i (fun _ => y) = xs.set i y :=
  modify_eq_set_of_getElem? (List.getElem?_eq_getElem h) (fun _ => y)

/-- A byte outside the twelve is not written. -/
theorem imgByte_startDrum_frame {s : State} {d : Nat} (hd : d < s.cfg.nd) (e : KeyEntry) (c : Chan) (n vel : Data)
    {k x : Nat} (h : ∀ a, a ≤ 2 ∨ (0x10 ≤ a ∧ a ≤ 0x18) → ¬ atDrum s d a k x) :
    (s.startDrum d e c n vel).imgByte k x = s.imgByte k x := by
  refine (acts_startDrum_triggerEvents (fun _ => hd) e c n vel).imgByte_of_not_wr (fun b hb => ?_)
  obtain ⟨y, hy, hat, -⟩ := wr_mem_triggerEvents.mp hb
  exact h y.1 (triggerBytes_offset hy) hat

/-- The fields of a trigger over free locks (R192, R193). -/
theorem startDrum_eq {s : State} (hu : s.Unlocked) {d : Nat} (hd : s.Shaped → d < s.cfg.nd) (hlt : d < s.ds.length)
    (e : KeyEntry) (c : Chan) (n vel : Data) :
    s.startDrum d e c n vel = { s with
      ds := s.ds.set d ⟨true, n, c, vel, s.cvol vel c, s.tick, e.addr, e.rate, (s.chan c).bend⟩
      tick := s.tick + 1
      out := s.out ++ s.triggerEvents d e c (s.cvol vel c)
      img := (s.startDrum d e c n vel).img } := by
  rw [← modify_const_eq_set hlt]
  conv_rhs => rw [← (acts_startDrum_triggerEvents hd e c n vel).lock_of_unlocked hu]
  rfl

/-- A trigger into slot `d` leaves what the statements say, whatever becomes of the cursor (R192, R193, R195). -/
theorem drumStarted_startDrum {s : State} (hs : s.Shaped) (hu : s.Unlocked) {d : Nat} (hd : d < s.cfg.nd)
    (e : KeyEntry) (c : Chan) (n vel : Data) (cur : Nat) :
    DrumStarted s { s.startDrum d e c n vel with cur := cur } d e c n vel cur := by
  have hbyte : ∀ (i : Nat) (x : Nat × Byte), (triggerBytes s e c vel)[i]? = some x →
      (s.startDrum d e c n vel).imgByte (drumChip d) (dbase s.cfg d + x.1) = some x.2 :=
    fun i x hx => imgByte_startDrum hs hd n (List.mem_of_getElem? hx)
  unfold DrumStarted
  rw [← State.dword_eq]
  refine ⟨?state, hbyte 0 _ rfl, hbyte 1 _ rfl, hbyte 11 _ rfl, fun j hj => ?start, fun j hj => ?stop, fun j => ?loop,
    fun k x h => imgByte_startDrum_frame hd e c n vel h⟩
  case state =>
    conv_lhs => rw [startDrum_eq hu (fun _ => hd) (hs.drums ▸ hd)]
    rfl
  case start =>
    interval_cases j
    · exact hbyte 2 _ rfl
    · exact hbyte 3 _ rfl
    · exact hbyte 4 _ rfl
  case stop =>
    interval_cases j
    · exact hbyte 5 _ rfl
    · exact hbyte 6 _ rfl
    · exact hbyte 7 _ rfl
  case loop =>
    fin_cases j
    · exact hbyte 8 _ rfl
    · exact hbyte 9 _ rfl
    · exact hbyte 10 _ rfl

/-- The reuse test of a trigger decides what the statements say (R192). -/
theorem Drum.plays_iff {c : Chan} {n : Data} {x : Drum} :
    Drum.plays c n x = true ↔ x.inuse = true ∧ x.chan = c ∧ x.note = n := by
  simp only [Drum.plays, Bool.and_eq_true, beq_iff_eq, and_assoc]

/-- Settles O33: the first slot that plays the note is started, and the cursor is that of the state. -/
theorem drumNoteReusesItsSlot : Obligations.DrumNoteReusesItsSlot := by
  intro s c n vel e d v hs hu hdrum hkey hv hplays hfirst
  have hmatch : s.matchDrum c n = some d :=
    findIdx?_eq_some_of_first hv (Drum.plays_iff.mpr hplays)
      (fun j w hj hw hp => hfirst j w hj hw (Drum.plays_iff.mp hp))
  refine ⟨s.startDrum d e c n vel, ?_, drumStarted_startDrum hs hu (hs.drum_lt (lt_of_getElem?_some hv)) e c n vel s.cur⟩
  rw [exec_noteOn_drum hdrum, State.triggerDrum, keyLookup_eq, hkey]
  simp only [hmatch]

/-- Settles O34: no slot plays the note, so the one at the cursor is started and the cursor advances. -/
theorem drumNoteTakesTheCursorSlot : Obligations.DrumNoteTakesTheCursorSlot := by
  intro s c n vel e hs hu hdrum hkey hno
  have hmatch : s.matchDrum c n = none :=
    findIdx?_eq_none_of_forall (fun j w hw hp => hno j w hw (Drum.plays_iff.mp hp))
  refine ⟨{ s.startDrum s.cur e c n vel with cur := (s.cur + 1) % (s.cfg.nchips * 4) }, ?_,
    drumStarted_startDrum hs hu hs.cursor e c n vel _⟩
  rw [exec_noteOn_drum hdrum, State.triggerDrum, keyLookup_eq, hkey]
  simp only [hmatch]
  rfl

end Sys2Proof.Machine

/-! # NOTE_ON on an FM channel (R151 to R155) -/

namespace Sys2Proof.Machine

open Sys2Proof.Claims

/-- On an FM channel NOTE_ON starts the slot it selects (R151, R220). -/
theorem exec_noteOn_fm {s : State} {c : Chan} {n : Data} {x : Choice} (h : ¬ isDrum s c)
    (hx : s.selectVoice c (adjusted s c n) = some x) (vel : Data) :
    exec (.noteOn c n vel) s = .next
      ((s.emit (s.retriggerEvents c n x)).startVoice x.slot (s.effective c) c (adjusted s c n) vel) := by
  have hfm : s.noteOnFM c n vel =
      some ((s.emit (s.retriggerEvents c n x)).startVoice x.slot (s.effective c) c (adjusted s c n) vel) := by
    rw [State.noteOnFM, State.adjNote_eq, hx]; rfl
  rw [exec, execNoteOn, if_neg (mt State.isDrumChan_iff.mp h), hfm]

/-! ## The selection (R151, R152) -/

/-- The reuse scan finds the first sounding slot of the pool, or looks at slot 0 alone (R152, log 7). -/
theorem reuseVoice_of_first {s : State} {c : Chan} {an : Int} {i : Nat} {v : Voice}
    (hscan : s.cfg.fullReuseScan = true ∨ i = 0) (hv : s.vs[i]? = some v) (hsounds : Sounds v c an)
    (hfirst : ∀ (j : Nat) (w : Voice), j < i → s.vs[j]? = some w → ¬ Sounds w c an) :
    s.reuseVoice c an = some i := by
  rw [State.reuseVoice]
  split
  · exact findIdx?_eq_some_of_first hv (Voice.sounds_iff_Sounds.mpr hsounds)
      (fun j w hj hw hp => hfirst j w hj hw (Voice.sounds_iff_Sounds.mp hp))
  · next hslot0 =>
    obtain rfl := hscan.resolve_left hslot0
    have htake : (s.vs.take 1)[0]? = some v := (List.getElem?_take_of_lt (by decide)).trans hv
    exact findIdx?_eq_some_of_first htake (Voice.sounds_iff_Sounds.mpr hsounds)
      (fun j w hj => absurd hj (Nat.not_lt_zero j))

/-- The reuse scan finds nothing where no slot it looks at sounds the note (R152, log 7). -/
theorem reuseVoice_of_none {s : State} {c : Chan} {an : Int}
    (hno : ∀ (j : Nat) (w : Voice), (s.cfg.fullReuseScan = true ∨ j = 0) → s.vs[j]? = some w → ¬ Sounds w c an) :
    s.reuseVoice c an = none := by
  rw [State.reuseVoice]
  refine findIdx?_eq_none_of_forall (fun j w hw hp => ?_)
  split at hw
  · next hscan => exact hno j w (.inl hscan) hw (Voice.sounds_iff_Sounds.mp hp)
  · rw [List.getElem?_take] at hw
    split at hw
    · next hj => exact hno j w (.inr (by omega)) hw (Voice.sounds_iff_Sounds.mp hp)
    · cases hw

/-- Step (a) (R151). -/
theorem selectVoice_of_reuse {s : State} {c : Chan} {an : Int} {i : Nat} (h : s.reuseVoice c an = some i) :
    s.selectVoice c an = some (.reuse i) := by
  simp only [State.selectVoice, h]

/-- Step (b) (R151). -/
theorem selectVoice_of_free {s : State} {c : Chan} {an : Int} {i : Nat} (h : s.reuseVoice c an = none)
    (hfree : s.freeVoice = some i) : s.selectVoice c an = some (.free i) := by
  simp only [State.selectVoice, h, hfree]

/-- Step (c) (R151). -/
theorem selectVoice_of_oldest {s : State} {c : Chan} {an : Int} {x : Nat × BitVec 64} (h : s.reuseVoice c an = none)
    (hfree : s.freeVoice = none) (hold : oldestVoice s.vs = some x) : s.selectVoice c an = some (.steal x.1) := by
  simp only [State.selectVoice, h, hfree, hold, Option.map_some]

/-- The oldest slot is a slot with the stamp answered (R152). -/
theorem oldestVoice_mem {vs : List Voice} {x : Nat × BitVec 64} (h : oldestVoice vs = some x) :
    ∃ w, vs[x.1]? = some w ∧ w.last = x.2 := by
  induction vs generalizing x with
  | nil => cases h
  | cons v rest ih =>
    unfold oldestVoice at h
    split at h
    · obtain rfl := Option.some.inj h
      exact ⟨v, rfl, rfl⟩
    · next j t hj =>
      split at h
      · obtain rfl := Option.some.inj h
        exact ih hj
      · obtain rfl := Option.some.inj h
        exact ⟨v, rfl, rfl⟩

/-- The oldest slot of a list is the first of those with the smallest stamp (R152). -/
theorem oldestVoice_eq_of_first {vs : List Voice} {i : Nat} {v : Voice} (hv : vs[i]? = some v)
    (hmin : ∀ (j : Nat) (w : Voice), vs[j]? = some w →
      v.last.toNat ≤ w.last.toNat ∧ (j < i → v.last.toNat < w.last.toNat)) :
    oldestVoice vs = some (i, v.last) := by
  induction vs generalizing i with
  | nil => cases hv
  | cons u rest ih =>
    cases i with
    | zero =>
      obtain rfl := Option.some.inj hv
      cases hrest : oldestVoice rest with
      | none => simp only [oldestVoice, hrest]
      | some x =>
        obtain ⟨w, hw, hlast⟩ := oldestVoice_mem hrest
        have hle : ¬ x.2 < u.last := hlast ▸ Nat.not_lt.mpr (hmin (x.1 + 1) w hw).1
        simp only [oldestVoice, hrest, hle, if_false]
    | succ i =>
      have hrest : oldestVoice rest = some (i, v.last) :=
        ih hv (fun j w hw => by simpa using hmin (j + 1) w hw)
      have hlt : v.last < u.last := (hmin 0 u rfl).2 (Nat.succ_pos i)
      simp only [oldestVoice, hrest, hlt, if_true]

/-! ## What a note-on writes (R153) -/

/-- A byte whose last write an operation makes reads that write. -/
theorem Acts.imgByte_of_lastWrite {s t : State} {n k a : Nat} {b : Byte} {es : List Event} (h : Acts s t n es)
    (hs : s.Shaped) (hb : lastWrite k a es = some b) : t.imgByte k a = some b := by
  obtain ⟨hchip, -⟩ : k < s.cfg.nchips ∧ a < s.cfg.imgSize := h.tidy.fits hs _ (mem_of_lastWrite hb)
  rw [h.imgByte_eq, State.emit_imgByte s es k a (hs.images ▸ hchip), hb, Option.some_or]

/-- The four writes that follow the 64 image bytes: pan, the note frequency, the gate (R153). -/
def noteOnTail (s : State) (i : Nat) (c : Chan) (an : Int) : List Event :=
  [.wr (chipOf s.cfg i) (vbase s.cfg i + 0x1D) (s.panByte c),
   .wr (chipOf s.cfg i) (nfaddr s.cfg i) ((s.fword an c).extractLsb' 8 8),
   .wr (chipOf s.cfg i) (nfaddr s.cfg i + 1) ((s.fword an c).extractLsb' 0 8),
   .wr (chipOf s.cfg i) (vbase s.cfg i + 0x1E) s.cfg.gateOn]

/-- The 64 image bytes, ascending (R153). -/
def noteOnImage (s : State) (i : Nat) (P : Patch) (vol : Byte) : List Event :=
  (List.range 64).map (fun a => .wr (chipOf s.cfg i) (vbase s.cfg i + a) (encodeByte s.cfg.vsm P vol a))

/-- The write sequence of a note-on: the image, the four writes after it, the strobe. -/
theorem noteOnEvents_eq (s : State) (i : Nat) (P : Patch) (c : Chan) (an : Int) (vol : Byte) :
    s.noteOnEvents i P c an vol = bracket (chipOf s.cfg i) (noteOnImage s i P vol ++ noteOnTail s i c an ++
      [.strobe (chipOf s.cfg i) .gateReset (localVoice s.cfg i)]) := by
  simp [State.noteOnEvents, noteOnImage, noteOnTail, wr16]

/-- A note-on leaves in each byte the last of the four writes to it, else the image byte. -/
theorem lastWrite_noteOnEvents (s : State) (i : Nat) (P : Patch) (c : Chan) (an : Int) (vol : Byte) (k x : Nat) :
    lastWrite k x (s.noteOnEvents i P c an vol) = (lastWrite k x (noteOnTail s i c an)).or
      (if chipOf s.cfg i = k ∧ vbase s.cfg i ≤ x ∧ x < vbase s.cfg i + 64 then
        some (encodeByte s.cfg.vsm P vol (x - vbase s.cfg i)) else none) := by
  rw [noteOnEvents_eq, lastWrite_bracket, lastWrite_append, lastWrite_append, noteOnImage, lastWrite_range]
  rfl

/-- A note-on writes into the window and the frequency word of its slot alone. -/
theorem wr_mem_noteOnEvents {s : State} {i : Nat} {P : Patch} {c : Chan} {an : Int} {vol : Byte} {k x : Nat} {b : Byte}
    (h : Event.wr k x b ∈ s.noteOnEvents i P c an vol) : (∃ a < 64, atVoice s i a k x) ∨ atFreq s i k x := by
  rw [noteOnEvents_eq, wr_mem_bracket] at h
  simp only [noteOnImage, noteOnTail, List.mem_append, List.mem_map, List.mem_range, List.mem_cons, List.not_mem_nil,
    or_false, Event.wr.injEq, reduceCtorEq] at h
  rcases h with ⟨a, ha, rfl, rfl, -⟩ | ⟨rfl, rfl, -⟩ | ⟨rfl, rfl, -⟩ | ⟨rfl, rfl, -⟩ | ⟨rfl, rfl, -⟩
  · exact .inl ⟨a, ha, rfl, rfl⟩
  · exact .inl ⟨0x1D, by decide, rfl, rfl⟩
  · exact .inr ⟨rfl, .inl rfl⟩
  · exact .inr ⟨rfl, .inr rfl⟩
  · exact .inl ⟨0x1E, by decide, rfl, rfl⟩

/-- A retrigger warning writes nothing. -/
theorem lastWrite_retriggerEvents (s : State) (c : Chan) (n : Data) (y : Choice) (k x : Nat) :
    lastWrite k x (s.retriggerEvents c n y) = none := by
  cases y with
  | reuse i =>
    rw [State.retriggerEvents]
    split
    · rfl
    · rfl
  | free i => rfl
  | steal i => rfl

/-- A note-on does what its warning and its one bracket say. -/
theorem acts_noteOn {s : State} {c : Chan} {n : Data} {y : Choice}
    (hy : s.selectVoice c (adjusted s c n) = some y) (vel : Data) :
    Acts s ((s.emit (s.retriggerEvents c n y)).startVoice y.slot (s.effective c) c (adjusted s c n) vel) 1
      (s.retriggerEvents c n y ++ s.noteOnEvents y.slot (s.effective c) c (adjusted s c n) (s.cvol vel c)) := by
  have hfm : s.noteOnFM c n vel =
      some ((s.emit (s.retriggerEvents c n y)).startVoice y.slot (s.effective c) c (adjusted s c n) vel) := by
    rw [State.noteOnFM, State.adjNote_eq, hy]; rfl
  obtain ⟨es, hacts⟩ := acts_noteOnFM hfm
  exact hacts.of_out (List.append_assoc _ _ _)

/-- A window byte of the slot after a note-on: pan and gate from the writes after the image, else the image (R153). -/
theorem lastWrite_noteOn_window {s : State} (hf : Params.Facts s.cfg) {i a : Nat} (ha : a < 64) (P : Patch) (c : Chan)
    (an : Int) (vol : Byte) :
    lastWrite (chipOf s.cfg i) (vbase s.cfg i + a) (s.noteOnEvents i P c an vol) =
      if a = 0x1E then some s.cfg.gateOn else if a = 0x1D then some (s.panByte c)
      else some (encodeByte s.cfg.vsm P vol a) := by
  have hhigh : ¬ nfaddr s.cfg i = vbase s.cfg i + a := (vbase_ne_nfaddr hf i i ha (b := 0) (by decide)).symm
  have hlow : ¬ nfaddr s.cfg i + 1 = vbase s.cfg i + a := (vbase_ne_nfaddr hf i i ha (b := 1) (by decide)).symm
  rw [lastWrite_noteOnEvents, if_pos ⟨rfl, Nat.le_add_right _ _, by omega⟩, Nat.add_sub_cancel_left]
  simp only [noteOnTail, lastWrite, true_and, hhigh, hlow, if_false, Nat.add_left_cancel_iff, Option.none_or,
    Option.or_none, eq_comm (b := a)]
  split
  · rfl
  · split
    · rfl
    · rfl

/-- The note frequency of the slot after a note-on, high byte first (R153). -/
theorem lastWrite_noteOn_freq {s : State} (hf : Params.Facts s.cfg) {i b : Nat} (hb : b < 2) (P : Patch) (c : Chan)
    (an : Int) (vol : Byte) :
    lastWrite (chipOf s.cfg i) (nfaddr s.cfg i + b) (s.noteOnEvents i P c an vol) =
      some ((s.fword an c).extractLsb' (8 - 8 * b) 8) := by
  have hne : ∀ a < 64, ¬ vbase s.cfg i + a = nfaddr s.cfg i ∧ ¬ vbase s.cfg i + a = nfaddr s.cfg i + 1 := fun a ha =>
    ⟨vbase_ne_nfaddr hf i i ha (b := 0) (by decide), vbase_ne_nfaddr hf i i ha (by decide)⟩
  rw [lastWrite_noteOnEvents]
  interval_cases b
  · simp [noteOnTail, lastWrite, hne]
  · simp [noteOnTail, lastWrite, hne]

/-- The fields of a note-on over free locks, with its trace in any form (R151, R154). -/
theorem noteOn_state_eq {s : State} (hu : s.Unlocked) {c : Chan} {n : Data} {y : Choice}
    (hy : s.selectVoice c (adjusted s c n) = some y) (vel : Data) {out : List Event}
    (hout : out = s.out ++
      (s.retriggerEvents c n y ++ s.noteOnEvents y.slot (s.effective c) c (adjusted s c n) (s.cvol vel c))) :
    (s.emit (s.retriggerEvents c n y)).startVoice y.slot (s.effective c) c (adjusted s c n) vel = { s with
      vs := s.vs.set y.slot ⟨true, adjusted s c n, c, vel, s.cvol vel c, s.tick⟩
      tick := s.tick + 1
      out := out
      img := ((s.emit (s.retriggerEvents c n y)).startVoice y.slot (s.effective c) c (adjusted s c n) vel).img } := by
  have hacts := acts_noteOn hy vel
  rw [hout, ← hacts.out, ← modify_const_eq_set (selectVoice_lt hy)]
  conv_rhs => rw [← hacts.lock_of_unlocked hu]
  rfl

/-- What a note-on into the selected slot leaves, as the statements say it (R151, R153, R154). -/
theorem voiceStarted_of_select {s : State} (hs : s.Shaped) (hu : s.Unlocked) {c : Chan} {n : Data} {y : Choice}
    (hy : s.selectVoice c (adjusted s c n) = some y) (vel : Data) :
    VoiceStarted s ((s.emit (s.retriggerEvents c n y)).startVoice y.slot (s.effective c) c (adjusted s c n) vel) y.slot c
      n vel (s.retriggerEvents c n y) := by
  have hacts := acts_noteOn hy vel
  have hf := Params.legal_facts hs.legal
  have hbyte : ∀ {x : Nat} {b : Byte}, lastWrite (chipOf s.cfg y.slot) x
        (s.noteOnEvents y.slot (s.effective c) c (adjusted s c n) (s.cvol vel c)) = some b →
      ((s.emit (s.retriggerEvents c n y)).startVoice y.slot (s.effective c) c (adjusted s c n) vel).imgByte
        (chipOf s.cfg y.slot) x = some b := fun hb =>
    hacts.imgByte_of_lastWrite hs (by rw [lastWrite_append, hb, Option.some_or])
  unfold VoiceStarted
  simp only [← State.fword_eq]
  refine ⟨?state, fun a ha hpan hgate => hbyte ?image, hbyte ?pan, hbyte ?gate, hbyte ?high, hbyte ?low,
    fun k x hwindow hfreq => ?frame⟩
  case state =>
    exact noteOn_state_eq hu hy vel (by simp [noteOnEvents_eq, bracket, noteOnImage, noteOnTail])
  case image => rw [lastWrite_noteOn_window hf ha, if_neg hgate, if_neg hpan]
  case pan => rw [lastWrite_noteOn_window hf (by decide), if_neg (by decide), if_pos rfl]
  case gate => rw [lastWrite_noteOn_window hf (by decide), if_pos rfl]
  case high => exact lastWrite_noteOn_freq hf (b := 0) (by decide) _ _ _ _
  case low => exact lastWrite_noteOn_freq hf (b := 1) (by decide) _ _ _ _
  case frame =>
    refine hacts.imgByte_of_not_wr (fun b hb => ?_)
    rcases List.mem_append.mp hb with hwarn | hon
    · exact lastWrite_eq_none_iff.mp (lastWrite_retriggerEvents s c n y k x) b hwarn
    · rcases wr_mem_noteOnEvents hon with ⟨a, ha, hat⟩ | hat
      · exact hwindow a ha hat
      · exact hfreq hat

/-- Settles O35: the first sounding slot is selected for reuse, and the warning is that of the held list. -/
theorem noteOnReusesTheMatchingVoice : Obligations.NoteOnReusesTheMatchingVoice := by
  intro s c n vel i v hs hu hfm hscan hv hsounds hfirst
  have hy := selectVoice_of_reuse (reuseVoice_of_first hscan hv hsounds hfirst)
  exact ⟨_, exec_noteOn_fm hfm hy vel, voiceStarted_of_select hs hu hy vel⟩

/-- Settles O36: with none to reuse the first Free slot is selected. -/
theorem noteOnTakesTheFirstFreeVoice : Obligations.NoteOnTakesTheFirstFreeVoice := by
  intro s c n vel i v hs hu hfm hno hv hfree hfirst
  have hslot : s.freeVoice = some i :=
    findIdx?_eq_some_of_first hv (by simp [hfree]) (fun j w hj hw => by simp [hfirst j w hj hw])
  have hy := selectVoice_of_free (reuseVoice_of_none hno) hslot
  exact ⟨_, exec_noteOn_fm hfm hy vel, voiceStarted_of_select hs hu hy vel⟩

/-- Settles O37: with none to reuse and none Free the oldest slot is selected. -/
theorem noteOnStealsTheOldestVoice : Obligations.NoteOnStealsTheOldestVoice := by
  intro s c n vel i v hs hu hfm hno hheld hv hmin
  have hnone : s.freeVoice = none :=
    findIdx?_eq_none_of_forall (fun j w hw => by simp [hheld w (List.mem_of_getElem? hw)])
  have hy := selectVoice_of_oldest (reuseVoice_of_none hno) hnone (oldestVoice_eq_of_first hv hmin)
  exact ⟨_, exec_noteOn_fm hfm hy vel, voiceStarted_of_select hs hu hy vel⟩

/-- The slots after a note-on: the selected one is set to the new note's. -/
theorem startVoice_vs {s : State} {c : Chan} {n : Data} {y : Choice}
    (hy : s.selectVoice c (adjusted s c n) = some y) (vel : Data) :
    ((s.emit (s.retriggerEvents c n y)).startVoice y.slot (s.effective c) c (adjusted s c n) vel).vs =
      s.vs.set y.slot ⟨true, adjusted s c n, c, vel, s.cvol vel c, s.tick⟩ :=
  modify_const_eq_set (selectVoice_lt hy) _

/-- Over a non-empty pool a slot is selected (R155). -/
theorem exists_selectVoice {s : State} (h : s.vs ≠ []) (c : Chan) (an : Int) : ∃ y, s.selectVoice c an = some y :=
  Option.isSome_iff_exists.mp (selectVoice_isSome h c an)

/-- Settles O38: whatever slot is selected is set to the new note's, stamped with the tick. -/
theorem noteOnAlwaysGetsAVoice : Obligations.NoteOnAlwaysGetsAVoice := by
  intro s c n vel hne hfm
  obtain ⟨y, hy⟩ := exists_selectVoice hne c (adjusted s c n)
  refine ⟨_, exec_noteOn_fm hfm hy vel, ?_, rfl, ⟨true, adjusted s c n, c, vel, s.cvol vel c, s.tick⟩, ?_,
    ⟨rfl, rfl, rfl⟩, rfl, rfl⟩
  · rw [startVoice_vs hy, List.length_set]
  · rw [startVoice_vs hy]
    exact List.mem_set (selectVoice_lt hy) _

/-! ## The gate of a note-on, and the number of its writes (R125, R153, R309) -/

/-- An event that writes the gate byte of slot `i`. -/
def isGateWrite (s : State) (i : Nat) : Event → Bool
  | .wr k a _ => k == chipOf s.cfg i && a == vbase s.cfg i + 0x1E
  | .lock _ => false
  | .unlock _ => false
  | .strobe _ _ _ => false
  | .warn _ => false

/-- The image writes the gate byte once, with 0 (R125). -/
theorem gateWrites_noteOnImage (s : State) (i : Nat) (P : Patch) (vol : Byte) :
    (noteOnImage s i P vol).filter (isGateWrite s i) = [.wr (chipOf s.cfg i) (vbase s.cfg i + 0x1E) 0x00] := by
  have htest : isGateWrite s i ∘ (fun a => .wr (chipOf s.cfg i) (vbase s.cfg i + a) (encodeByte s.cfg.vsm P vol a)) =
      fun a => a == 0x1E := by
    funext a
    simp [isGateWrite]
  have hrange : (List.range 64).filter (fun a => a == 0x1E) = [0x1E] := by decide
  rw [noteOnImage, List.filter_map, htest, hrange, List.map_singleton, encodeByte_of_not_volume (by decide)]
  rfl

/-- Of the four writes after it the last is to the gate byte, with `GATE_ON` (R153). -/
theorem gateWrites_noteOnTail {s : State} (hf : Params.Facts s.cfg) (i : Nat) (c : Chan) (an : Int) :
    (noteOnTail s i c an).filter (isGateWrite s i) = [.wr (chipOf s.cfg i) (vbase s.cfg i + 0x1E) s.cfg.gateOn] := by
  have hne : ∀ a < 64, ¬ nfaddr s.cfg i = vbase s.cfg i + a :=
    fun a ha => (vbase_ne_nfaddr hf i i ha (b := 0) (by decide)).symm
  simp [noteOnTail, isGateWrite, hne]

/-- Among the events of a note-on the gate byte is written 0x00 and then `GATE_ON`. -/
theorem gateWrites_noteOn {s : State} (hf : Params.Facts s.cfg) (i : Nat) (P : Patch) (c : Chan) (an : Int)
    (vol : Byte) : (s.noteOnEvents i P c an vol).filter (isGateWrite s i) =
      [.wr (chipOf s.cfg i) (vbase s.cfg i + 0x1E) 0x00, .wr (chipOf s.cfg i) (vbase s.cfg i + 0x1E) s.cfg.gateOn] := by
  simp [noteOnEvents_eq, bracket, gateWrites_noteOnImage, gateWrites_noteOnTail hf, isGateWrite]

theorem countWrites_append (es fs : List Event) : countWrites (es ++ fs) = countWrites es + countWrites fs :=
  List.countP_append

/-- The image is 64 writes. -/
theorem countWrites_noteOnImage (s : State) (i : Nat) (P : Patch) (vol : Byte) :
    countWrites (noteOnImage s i P vol) = 64 := by
  simp [noteOnImage, countWrites, List.countP_map, Function.comp_def]

/-- A note-on is 68 writes (R309). -/
theorem countWrites_noteOnEvents (s : State) (i : Nat) (P : Patch) (c : Chan) (an : Int) (vol : Byte) :
    countWrites (s.noteOnEvents i P c an vol) = 68 := by
  have hbracket : ∀ k body, countWrites (bracket k body) = countWrites body := fun k body => by
    simp [bracket, countWrites]
  rw [noteOnEvents_eq, hbracket, countWrites_append, countWrites_append, countWrites_noteOnImage]
  rfl

/-- A retrigger warning is no write. -/
theorem retriggerEvents_eq_nil_or_warn (s : State) (c : Chan) (n : Data) (y : Choice) :
    s.retriggerEvents c n y = [] ∨ s.retriggerEvents c n y = [.warn (.retrigger c n)] := by
  cases y with
  | reuse i =>
    rw [State.retriggerEvents]
    split
    · exact .inl rfl
    · exact .inr rfl
  | free i => exact .inl rfl
  | steal i => exact .inl rfl

/-- Settles O39: the selected slot is set, and of the events the warning writes nothing and the bracket its 68 bytes. -/
theorem noteOnClearsTheGateBeforeSettingIt : Obligations.NoteOnClearsTheGateBeforeSettingIt := by
  intro s c n vel hs hfm
  obtain ⟨y, hy⟩ := exists_selectVoice hs.voices_ne_nil c (adjusted s c n)
  have hlt := selectVoice_lt hy
  have hwarn : (s.retriggerEvents c n y).filter (isGateWrite s y.slot) = [] ∧
      countWrites (s.retriggerEvents c n y) = 0 := by
    rcases retriggerEvents_eq_nil_or_warn s c n y with h | h
    · rw [h]; exact ⟨rfl, rfl⟩
    · rw [h]; exact ⟨rfl, rfl⟩
  refine ⟨_, _, y.slot, ⟨true, adjusted s c n, c, vel, s.cvol vel c, s.tick⟩, exec_noteOn_fm hfm hy vel,
    (acts_noteOn hy vel).out, hs.voice_lt hlt, ?slot, ⟨rfl, rfl, rfl⟩, rfl, rfl, fun j hj => ?other, ?gate, ?count⟩
  case slot => rw [startVoice_vs hy, List.getElem?_set_self hlt]
  case other => rw [startVoice_vs hy, List.getElem?_set_ne hj.symm]
  case gate =>
    show List.filter (isGateWrite s y.slot) _ = _
    rw [List.filter_append, hwarn.1, gateWrites_noteOn (Params.legal_facts hs.legal), List.nil_append]
  case count => rw [countWrites_append, hwarn.2, countWrites_noteOnEvents]

end Sys2Proof.Machine

/-! # GM_RESET and the release edge of the pedal -/

namespace Sys2Proof.Machine

open Sys2Proof.Claims

/-! ## GM_RESET (R233) -/

/-- GM_RESET after the silencing of both pools: channels, drum set by the switch, live patches (R233, log 8). -/
theorem State.gmReset_eq (s : State) :
    s.gmReset = { (s.silenceVoices (fun _ => true)).silenceDrums (fun _ => true) with
      ch := Vector.replicate 16 Channel.atReset
      drumset := if s.cfg.gmClearsDrumset then 0x0200 else s.drumset
      pb := s.po } := by
  unfold State.gmReset
  dsimp only
  split
  · rfl
  · rfl

/-- Settles O51: the silencing of both pools with every slot in the sweep, then fields that are no slot and no byte. -/
theorem gmResetSilencesAndRestores : Obligations.GmResetSilencesAndRestores := by
  intro s hs hu
  have hpools := silenceVoices_silenceDrums_eq hu (fun _ => true) (fun _ => true)
  simp only [Bool.and_true] at hpools
  refine ⟨s.gmReset, rfl, ?state, fun c => ?chan, fun v hv => ?voices, fun v hv => ?drums, ?bytes⟩
  case state =>
    conv_lhs => rw [State.gmReset_eq, hpools]
    rw [State.gmReset_eq]
  case chan => rw [State.gmReset_chan, State.resetOf_chan]
  case voices =>
    rw [State.gmReset_eq, hpools] at hv
    obtain ⟨w, -, rfl⟩ := List.mem_map.mp hv
    split
    · rfl
    · next hfree => exact Bool.eq_false_iff.mpr hfree
  case drums =>
    rw [State.gmReset_eq, hpools] at hv
    obtain ⟨w, -, rfl⟩ := List.mem_map.mp hv
    split
    · rfl
    · next hfree => exact Bool.eq_false_iff.mpr hfree
  case bytes =>
    rw [State.gmReset_eq]
    exact silencedBytes_silenceDrums hs (fun _ => true) (fun _ => true)

/-! ## The release edge of the pedal (R158, R227) -/

/-- The test of a sweep that does not tell the updated slots from the old ones may run over the old ones. -/
theorem voiceEvents_map {vs : List Voice} {f : Voice → Voice} {p : Voice → Bool} (hp : ∀ v, p (f v) = p v)
    (ev : Nat → List Event) : voiceEvents (vs.map f) p (fun i _ => ev i) = voiceEvents vs p (fun i _ => ev i) := by
  simp [voiceEvents, List.zipIdx_map, List.flatMap_map, hp]

/-- A test that one slot of the pool passes visits that slot alone. -/
theorem voiceEvents_of_unique {vs : List Voice} {p : Voice → Bool} {i : Nat} {v : Voice} (hv : vs[i]? = some v)
    (hp : p v = true) (honly : ∀ (j : Nat) (w : Voice), vs[j]? = some w → p w = true → j = i)
    (ev : Nat → Voice → List Event) : voiceEvents vs p ev = ev i v := by
  have hnodup : (vs.zipIdx.filter (fun x => p x.1)).Nodup :=
    (List.Nodup.of_map Prod.snd (List.nodup_zipIdx_map_snd vs)).filter _
  have hmem : ∀ x, x ∈ vs.zipIdx.filter (fun x => p x.1) ↔ x = (v, i) := by
    rintro ⟨w, j⟩
    rw [List.mem_filter, List.mk_mem_zipIdx_iff_getElem?, Prod.mk.injEq]
    constructor
    · rintro ⟨hw, hpw⟩
      obtain rfl := honly j w hw hpw
      exact ⟨Option.some.inj (hw.symm.trans hv), rfl⟩
    · rintro ⟨rfl, rfl⟩
      exact ⟨hv, hp⟩
  have hsingle : vs.zipIdx.filter (fun x => p x.1) = [(v, i)] :=
    List.perm_singleton.mp ((List.perm_ext_iff_of_nodup hnodup (List.nodup_singleton _)).mpr
      (fun x => (hmem x).trans List.mem_singleton.symm))
  rw [voiceEvents_eq_sweep, sweep, hsingle, List.flatMap_singleton]

/-- Updating the slots of the pool that pass a test is updating the one that does. -/
theorem map_ite_of_unique {vs : List Voice} {p : Voice → Bool} {i : Nat} {v : Voice} (hv : vs[i]? = some v)
    (hp : p v = true) (honly : ∀ (j : Nat) (w : Voice), vs[j]? = some w → p w = true → j = i) (g : Voice → Voice) :
    vs.map (fun w => if p w then g w else w) = vs.modify i g := by
  apply List.ext_getElem?
  intro j
  rw [List.getElem?_map, List.getElem?_modify]
  cases hw : vs[j]? with
  | none => rfl
  | some w =>
    by_cases hij : i = j
    · subst hij
      obtain rfl := Option.some.inj (hw.symm.trans hv)
      simp [hp]
    · have hpw : p w = false := Bool.eq_false_iff.mpr (fun hpw => hij (honly j w hw hpw).symm)
      simp [hpw, hij]

/-- A test that no slot passes visits none and updates none. -/
theorem State.sweepVoices_of_none {s : State} {p : Voice → Bool} (h : ∀ v ∈ s.vs, p v = false) (g : Voice → Voice)
    (ev : Nat → Voice → List Event) : s.sweepVoices p g ev = s := by
  have hevents : voiceEvents s.vs p ev = [] := by
    rw [List.eq_nil_iff_forall_not_mem]
    intro e he
    obtain ⟨i, v, hv, hp, -⟩ := mem_voiceEvents.mp he
    rw [h v (List.mem_of_getElem? hv)] at hp
    cases hp
  have hmap : s.vs.map (fun v => if p v then g v else v) = s.vs := by
    refine (List.map_congr_left (fun v hv => ?_)).trans (List.map_id _)
    rw [h v hv]; rfl
  calc s.sweepVoices p g ev
      = State.emit { s with vs := s.vs.map (fun v => if p v then g v else v) } (voiceEvents s.vs p ev) := rfl
    _ = s := by rw [hevents, hmap]; exact State.emit_nil s

/-- Among unique Held slots a release is the sweep over the slots that sound the note, of which there is at most one
(R23, R156). -/
theorem State.releaseVoice_eq_sweep {s : State} (hu : s.UniqueVoices) (c : Chan) (n : Data) :
    s.releaseVoice c n =
      s.sweepVoices (Voice.sounds c (adjusted s c n)) Voice.freed (fun i _ => gateOffEvents s.cfg i) := by
  cases hmatch : s.matchVoice c (adjusted s c n) with
  | none =>
    have hno := List.findIdx?_eq_none_iff.mp hmatch
    rw [State.releaseVoice_of_none hmatch, State.sweepVoices_of_none hno]
  | some i =>
    obtain ⟨hi, hsi, -⟩ := List.findIdx?_eq_some_iff_getElem.mp hmatch
    have hv : s.vs[i]? = some s.vs[i] := List.getElem?_eq_getElem hi
    have honly : ∀ (j : Nat) (w : Voice), s.vs[j]? = some w → Voice.sounds c (adjusted s c n) w = true → j = i := by
      intro j w hw hsw
      obtain ⟨hwuse, hwchan, hwnote⟩ := Voice.sounds_iff.mp hsw
      obtain ⟨hiuse, hichan, hinote⟩ := Voice.sounds_iff.mp hsi
      exact hu j i w _ hw hv hwuse hiuse (hwchan.trans hichan.symm) (hwnote.trans hinote.symm)
    have hevents := voiceEvents_of_unique hv hsi honly (fun i _ => gateOffEvents s.cfg i)
    calc s.releaseVoice c n
        = (s.modVoice i Voice.freed).emit (gateOffEvents s.cfg i) := State.releaseVoice_of_some hmatch
      _ = State.emit { s with vs := s.vs.map (fun w => if Voice.sounds c (adjusted s c n) w then w.freed else w) }
            (voiceEvents s.vs (Voice.sounds c (adjusted s c n)) (fun i _ => gateOffEvents s.cfg i)) := by
          rw [hevents, map_ite_of_unique hv hsi honly]; rfl

/-- Whether the loop over the raw notes `ns` releases slot `w`: it sounds the adjusted note of a held one (R158). -/
def releasedBy (s : State) (c : Chan) (ns : List Nat) (w : Voice) : Bool :=
  ns.any (fun n => (s.chan c).holds (BitVec.ofNat 7 n) && Voice.sounds c (adjusted s c (BitVec.ofNat 7 n)) w)

/-- The events of the loop over the raw notes `ns`: the releases of each held one (R158). -/
def releaseEvents (s : State) (c : Chan) (ns : List Nat) : List Event :=
  ns.flatMap (fun n => if (s.chan c).holds (BitVec.ofNat 7 n) then
    voiceEvents s.vs (Voice.sounds c (adjusted s c (BitVec.ofNat 7 n))) (fun i _ => gateOffEvents s.cfg i) else [])

/-- A freed slot sounds nothing. -/
@[simp] theorem Voice.sounds_freed (c : Chan) (an : Int) (v : Voice) : Voice.sounds c an v.freed = false := by
  simp [Voice.sounds]

/-- Different raw notes have different adjusted notes (R134). -/
theorem adjusted_inj {s : State} {c : Chan} {m n : Nat} (hm : m < 128) (hn : n < 128)
    (h : adjusted s c (BitVec.ofNat 7 m) = adjusted s c (BitVec.ofNat 7 n)) : m = n := by
  simp only [adjusted, BitVec.toNat_ofNat] at h
  omega

/-- Freeing the slots of one note does not tell on the slots of another. -/
theorem sounds_freed_other {c : Chan} {an an' : Int} (h : an' ≠ an) (w : Voice) :
    Voice.sounds c an' (if Voice.sounds c an w then w.freed else w) = Voice.sounds c an' w := by
  split
  · next hw =>
    rw [Voice.sounds_freed, eq_comm, Bool.eq_false_iff]
    intro hw'
    obtain ⟨-, -, hnote⟩ := Voice.sounds_iff.mp hw
    obtain ⟨-, -, hnote'⟩ := Voice.sounds_iff.mp hw'
    exact h (hnote'.symm.trans hnote)
  · rfl

/-- Releasing one note leaves the events of the others' releases (R158). -/
theorem releaseEvents_sweepVoices {s : State} {c : Chan} {an : Int} {ns : List Nat}
    (hother : ∀ m ∈ ns, adjusted s c (BitVec.ofNat 7 m) ≠ an) (ev : Nat → Voice → List Event) :
    releaseEvents (s.sweepVoices (Voice.sounds c an) Voice.freed ev) c ns = releaseEvents s c ns := by
  refine List.flatMap_congr (fun m hm => ?_)
  have hsame := voiceEvents_map (vs := s.vs) (sounds_freed_other (c := c) (hother m hm))
    (fun i => gateOffEvents s.cfg i)
  exact congrArg (fun es => if (s.chan c).holds (BitVec.ofNat 7 m) then es else []) hsame

/-- Releasing a held note and then the others frees what releasing all of them frees (R158). -/
theorem map_releasedBy_cons {s : State} {c : Chan} {n : Nat} (hheld : (s.chan c).holds (BitVec.ofNat 7 n) = true)
    (ns : List Nat) :
    (s.vs.map (fun w => if Voice.sounds c (adjusted s c (BitVec.ofNat 7 n)) w then w.freed else w)).map
        (fun w => if releasedBy s c ns w then w.freed else w) =
      s.vs.map (fun w => if releasedBy s c (n :: ns) w then w.freed else w) := by
  rw [List.map_map]
  refine List.map_congr_left (fun w _ => ?_)
  have hcons : releasedBy s c (n :: ns) w =
      (Voice.sounds c (adjusted s c (BitVec.ofNat 7 n)) w || releasedBy s c ns w) := by simp [releasedBy, hheld]
  have hfreed : releasedBy s c ns w.freed = false := by simp [releasedBy]
  rw [hcons, Function.comp_apply]
  cases Voice.sounds c (adjusted s c (BitVec.ofNat 7 n)) w with
  | true => simp [hfreed]
  | false => simp

/-- The loop of `sustainRelease`, over different raw notes with the pedal up and unique Held slots: the slots it frees
and the events it produces are those of the state before it (R158). -/
theorem releaseLoop_eq {c : Chan} {ns : List Nat} {s : State} (hnodup : ns.Nodup) (hlt : ∀ n ∈ ns, n < 128)
    (hu : s.UniqueVoices) (hup : (s.chan c).sus = false) :
    ns.foldl (State.releaseHeld c) s =
      State.emit { s with vs := s.vs.map (fun w => if releasedBy s c ns w then w.freed else w) }
        (releaseEvents s c ns) := by
  induction ns generalizing s with
  | nil =>
    simp [releasedBy, releaseEvents]
  | cons n ns ih =>
    obtain ⟨hnot, hnodup⟩ := List.nodup_cons.mp hnodup
    have hlt' : ∀ m ∈ ns, m < 128 := fun m hm => hlt m (List.mem_cons_of_mem n hm)
    rw [List.foldl_cons]
    cases hheld : (s.chan c).holds (BitVec.ofNat 7 n) with
    | false =>
      have hstep : State.releaseHeld c s n = s := by simp [State.releaseHeld, hheld]
      rw [hstep, ih hnodup hlt' hu hup]
      simp [releasedBy, releaseEvents, hheld]
    | true =>
      have hstep : State.releaseHeld c s n = s.sweepVoices (Voice.sounds c (adjusted s c (BitVec.ofNat 7 n)))
          Voice.freed (fun i _ => gateOffEvents s.cfg i) := by
        rw [State.releaseHeld, if_pos hheld, State.noteOffFM_of_up hup, State.releaseVoice_eq_sweep hu]
      have hother : ∀ m ∈ ns, adjusted s c (BitVec.ofNat 7 m) ≠ adjusted s c (BitVec.ofNat 7 n) := by
        intro m hm hadj
        exact hnot (adjusted_inj (hlt' m hm) (hlt n List.mem_cons_self) hadj ▸ hm)
      rw [ih hnodup hlt' (hu.heldFrom (calm_releaseHeld c s n).held) (by rw [hstep]; exact hup), hstep]
      have hevents : releaseEvents s c (n :: ns) =
          voiceEvents s.vs (Voice.sounds c (adjusted s c (BitVec.ofNat 7 n))) (fun i _ => gateOffEvents s.cfg i) ++
            releaseEvents s c ns := by simp [releaseEvents, hheld]
      rw [releaseEvents_sweepVoices hother, hevents, ← map_releasedBy_cons hheld, ← State.emit_emit]
      rfl

/-- A slot is released by the loop over all raw notes exactly when it sounds the adjusted note of a held one. -/
theorem releasedBy_range_iff {s : State} {c : Chan} {w : Voice} :
    releasedBy s c (List.range 128) w = true ↔
      ∃ n : Data, (s.chan c).held.getLsbD n.toNat = true ∧ Sounds w c (adjusted s c n) := by
  simp only [releasedBy, List.any_eq_true, List.mem_range, Bool.and_eq_true, Voice.sounds_iff_Sounds, Channel.holds]
  constructor
  · rintro ⟨n, -, hheld, hsounds⟩
    exact ⟨BitVec.ofNat 7 n, hheld, hsounds⟩
  · rintro ⟨n, hheld, hsounds⟩
    have hn : BitVec.ofNat 7 n.toNat = n := by simp
    exact ⟨n.toNat, n.isLt, hn.symm ▸ hheld, hn.symm ▸ hsounds⟩

/-- The loop writes the gate bytes of the slots it releases, with 0. -/
theorem wr_mem_releaseEvents {s : State} {c : Chan} {k x : Nat} {b : Byte} :
    Event.wr k x b ∈ releaseEvents s c (List.range 128) ↔ b = 0 ∧ ∃ (i : Nat) (w : Voice), s.vs[i]? = some w ∧
      releasedBy s c (List.range 128) w = true ∧ atVoice s i 0x1E k x := by
  simp only [releaseEvents, releasedBy, List.mem_flatMap, List.any_eq_true, Bool.and_eq_true]
  constructor
  · rintro ⟨n, hn, hmem⟩
    split at hmem
    · next hheld =>
      obtain ⟨i, w, hw, hsounds, hwr⟩ := mem_voiceEvents.mp hmem
      obtain ⟨hat, rfl⟩ := wr_mem_gateOffEvents.mp hwr
      exact ⟨rfl, i, w, hw, ⟨n, hn, hheld, hsounds⟩, hat⟩
    · cases hmem
  · rintro ⟨rfl, i, w, hw, ⟨n, hn, hheld, hsounds⟩, hat⟩
    refine ⟨n, hn, ?_⟩
    rw [if_pos hheld]
    exact mem_voiceEvents.mpr ⟨i, w, hw, hsounds, wr_mem_gateOffEvents.mpr ⟨hat, rfl⟩⟩

/-- The events of the loop over all raw notes, as the statements write them. -/
theorem releaseEvents_range_eq (s : State) (c : Chan) :
    releaseEvents s c (List.range 128) =
      ((List.range 128).filter (fun n => (s.chan c).held.getLsbD n)).flatMap (fun n =>
        sweep s.vs (fun w => w.inuse && w.chan == c && w.note == adjusted s c (BitVec.ofNat 7 n)) (fun i _ =>
          [.lock (chipOf s.cfg i), .wr (chipOf s.cfg i) (vbase s.cfg i + 0x1E) 0x00, .unlock (chipOf s.cfg i)])) := by
  have hheld : (List.range 128).filter (fun n => (s.chan c).holds (BitVec.ofNat 7 n)) =
      (List.range 128).filter (fun n => (s.chan c).held.getLsbD n) := by
    refine List.filter_congr (fun n hn => ?_)
    rw [Channel.holds, BitVec.toNat_ofNat, Nat.mod_eq_of_lt (List.mem_range.mp hn)]
  rw [releaseEvents, flatMap_ite_eq_flatMap_filter (fun n => (s.chan c).holds (BitVec.ofNat 7 n)), hheld]
  exact List.flatMap_congr (fun n _ => voiceEvents_eq_sweep _ _ _)

/-- The state in which the release edge runs its loop: the value is stored and the flag is 0 (R227). -/
def pedalLifted (s : State) (c : Chan) (v : Data) : State :=
  s.modChan c (fun x => { x.setCtrl 64 v with sus := false })

theorem pedalLifted_chan (s : State) (c : Chan) (v : Data) :
    (pedalLifted s c v).chan c = { (s.chan c).setCtrl 64 v with sus := false } := State.modChan_chan_same s c _

/-- Storing the value and lifting the pedal changes no adjusted note (R134). -/
theorem adjusted_pedalLifted (s : State) (c : Chan) (v n : Data) :
    adjusted (pedalLifted s c v) c n = adjusted s c n := by
  unfold adjusted State.effective
  rw [pedalLifted_chan]
  rfl

/-- Over free locks closed brackets change trace and images alone. -/
theorem State.emit_eq_of_unlocked {s : State} {es : List Event} (hu : s.Unlocked) (hb : bracketed es) :
    s.emit es = { s with out := (s.emit es).out, img := (s.emit es).img } := by
  conv_rhs => rw [← State.emit_lock_of_unlocked hu hb]
  rfl

/-- The state before the events of the release edge: the value stored, flag and list cleared, the slots of the held
notes freed (R158, R227). -/
def pedalReleased (s : State) (c : Chan) (v : Data) : State :=
  { s.modChan c (fun x => { x.setCtrl 64 v with sus := false, held := 0 }) with
    vs := s.vs.map (fun w => if releasedBy (pedalLifted s c v) c (List.range 128) w then w.freed else w) }

/-- CC64 on the release edge, with unique Held slots: the loop over the held notes in closed form, and the list emptied
(R158, R227). -/
theorem control_releaseEdge {s : State} (hunique : s.UniqueVoices) {c : Chan} {v : Data}
    (hdown : (s.chan c).sus = true) (hv : v.toNat < 64) :
    (stored s c 64 v).control c 64 v =
      (pedalReleased s c v).emit (releaseEvents (pedalLifted s c v) c (List.range 128)) := by
  have hup : pressed v = false := by simp [pressed, hv]
  have hedge : (((stored s c 64 v).chan c).sus && !pressed v) = true := by
    rw [stored, State.modChan_chan_same, Channel.setCtrl_sus, hdown, hup]; rfl
  have hloop := releaseLoop_eq (c := c) (ns := List.range 128) (s := pedalLifted s c v) List.nodup_range
    (fun _ hn => List.mem_range.mp hn) hunique (by rw [pedalLifted_chan])
  have hclear := State.modChan_modChan s c (fun x => { x.setCtrl 64 v with sus := false }) (fun x => { x with held := 0 })
  calc (stored s c 64 v).control c 64 v
      = (stored s c 64 v).sustainPedal c v := rfl
    _ = ((List.range 128).foldl (State.releaseHeld c) (pedalLifted s c v)).modChan c (fun x => { x with held := 0 }) := by
        rw [State.sustainPedal, if_pos hedge, State.sustainRelease, stored, State.modChan_modChan, hup]; rfl
    _ = (pedalReleased s c v).emit (releaseEvents (pedalLifted s c v) c (List.range 128)) := by
        rw [hloop, pedalReleased, ← hclear]; rfl

/-- The release edge does what the events of its loop say. -/
theorem acts_releaseEdge {s : State} (hunique : s.UniqueVoices) {c : Chan} {v : Data}
    (hdown : (s.chan c).sus = true) (hv : v.toNat < 64) :
    Acts s ((stored s c 64 v).control c 64 v) (128 + 2 * s.vs.length + s.ds.length)
      (releaseEvents (pedalLifted s c v) c (List.range 128)) := by
  obtain ⟨es, hacts⟩ := exec_acts (exec_cc s c 64 v)
  exact hacts.of_out (by rw [control_releaseEdge hunique hdown hv]; rfl)

/-- The held notes of the state with the pedal lifted are those before the command. -/
theorem releasedBy_pedalLifted_iff {s : State} {c : Chan} {v : Data} {w : Voice} :
    releasedBy (pedalLifted s c v) c (List.range 128) w = true ↔
      ∃ n : Data, (s.chan c).held.getLsbD n.toNat = true ∧ Sounds w c (adjusted s c n) := by
  rw [releasedBy_range_iff, pedalLifted_chan]
  simp only [adjusted_pedalLifted, Channel.setCtrl_held]

/-- Settles O47: the release edge in closed form; each slot and each byte is decided by whether the slot sounds a held
note. -/
theorem pedalReleaseFreesExactlyTheHeldNotes : Obligations.PedalReleaseFreesExactlyTheHeldNotes := by
  intro s c v hs hu hunique hdown hv
  have hcontrol := control_releaseEdge hunique hdown hv
  have hacts := acts_releaseEdge hunique hdown hv
  have hvs : ∀ (i : Nat) (w : Voice), s.vs[i]? = some w → ((stored s c 64 v).control c 64 v).vs[i]? =
      some (if releasedBy (pedalLifted s c v) c (List.range 128) w then w.freed else w) := fun i w hw => by
    rw [hcontrol]
    exact List.getElem?_map.trans (congrArg (Option.map _) hw)
  refine ⟨_, exec_cc s c 64 v, ?state, ?out, ?length, fun i w hw => ⟨fun hex => ⟨?freed, ?gate⟩, fun hno => ?kept⟩,
    fun k x hno => ?frame⟩
  case state =>
    rw [hcontrol, stored, State.modChan_modChan]
    exact State.emit_eq_of_unlocked (s := pedalReleased s c v) hu hacts.tidy.closed
  case out =>
    rw [hacts.out, releaseEvents_range_eq, pedalLifted_chan]
    simp only [adjusted_pedalLifted, Channel.setCtrl_held]
    rfl
  case length =>
    rw [hcontrol]
    exact List.length_map _
  case freed =>
    rw [hvs i w hw, if_pos (releasedBy_pedalLifted_iff.mpr hex)]
    rfl
  case gate =>
    exact hacts.imgByte_of_wr hs
      (wr_mem_releaseEvents.mpr ⟨rfl, i, w, hw, releasedBy_pedalLifted_iff.mpr hex, rfl, rfl⟩)
      (fun _ hb => (wr_mem_releaseEvents.mp hb).1)
  case kept =>
    refine (hvs i w hw).trans (congrArg some (if_neg (fun h => ?_)))
    obtain ⟨n, hheld, hsounds⟩ := releasedBy_pedalLifted_iff.mp h
    exact hno n hheld hsounds
  case frame =>
    refine hacts.imgByte_of_not_wr (fun b hb => ?_)
    obtain ⟨-, i, w, hw, hrel, hat⟩ := wr_mem_releaseEvents.mp hb
    obtain ⟨n, hheld, hsounds⟩ := releasedBy_pedalLifted_iff.mp hrel
    exact hno i w n hw hheld hsounds hat

end Sys2Proof.Machine

/-! # Scripts (30_encoding.md R105 to R108; 43_control.md R243) -/

namespace Sys2Proof.Machine

open Sys2Proof.Claims

/-- The words of a script decode to its expansion, command by command (R105). -/
theorem decode_assemble {lines : List Source} {ws : List PortWord} (h : assemble lines = some ws) :
    ws.map (fun x => decode x.port x.word) = (lines.flatMap expandLine).map Except.ok := by
  unfold assemble at h
  split at h
  · obtain rfl := Option.some.inj h
    rw [List.map_map]
    exact List.map_congr_left (fun i _ => decodeEncodeRoundTrip i)
  · cases h

/-! ## The field bytes of a load entry (R243) -/

/-- The given values of one field are those of the operators that have it, each with its operator number. -/
theorem mem_givenOps {get : OperatorEntry → Option Nat} {ops : List OperatorEntry} {i v : Nat} :
    (i, v) ∈ givenOps get ops ↔ ∃ o, ops[i]? = some o ∧ get o = some v := by
  simp only [givenOps, List.mem_filterMap, Option.map_eq_some_iff, Prod.mk.injEq]
  constructor
  · rintro ⟨⟨o, j⟩, ho, u, hu, rfl, rfl⟩
    exact ⟨o, List.mk_mem_zipIdx_iff_getElem?.mp ho, hu⟩
  · rintro ⟨o, ho, hv⟩
    exact ⟨(o, i), List.mk_mem_zipIdx_iff_getElem?.mpr ho, v, hv, rfl, rfl⟩

/-- An operator gives a field once. -/
theorem givenOps_nodup (get : OperatorEntry → Option Nat) (ops : List OperatorEntry) :
    ((givenOps get ops).map Prod.fst).Nodup := by
  have hindices : ops.zipIdx.Pairwise (fun x y => x.2 ≠ y.2) :=
    List.pairwise_map.mp (List.nodup_zipIdx_map_snd ops)
  refine List.pairwise_map.mpr (List.pairwise_filterMap.mpr (hindices.imp (fun {x y} hne a ha b hb => ?_)))
  obtain ⟨u, -, rfl⟩ := Option.map_eq_some_iff.mp ha
  obtain ⟨v, -, rfl⟩ := Option.map_eq_some_iff.mp hb
  exact hne

/-- An entry's fields are the bytes it gives, segment by segment (R243). -/
theorem mem_fields {e : PatchEntry} {ra v : Nat} : (ra, v) ∈ PatchEntry.fields e ↔ givesByte e ra v := by
  simp only [PatchEntry.fields, List.mem_append, List.mem_map, List.mem_flatMap, Option.mem_toList, List.mem_filter,
    List.mem_range, Prod.exists, mem_givenOps, Prod.mk.injEq, List.mem_cons, List.not_mem_nil, or_false, givesByte,
    givesWave, packedWave, Bool.or_eq_true]
  constructor
  · rintro (((((((((⟨_, h, rfl, rfl⟩ | ⟨_, h, rfl, rfl⟩) | ⟨k, h, rfl, rfl⟩) | ⟨i, f, ⟨o, ho, h⟩, hbytes⟩) |
      ⟨i, _, ⟨o, ho, h⟩, rfl, rfl⟩) | ⟨j, ⟨hj, hgiven⟩, rfl, rfl⟩) | ⟨i, _, ⟨o, ho, h⟩, rfl, rfl⟩) |
      ⟨i, _, ⟨o, ho, h⟩, rfl, rfl⟩) | ⟨i, _, ⟨o, ho, h⟩, rfl, rfl⟩) | ⟨i, _, ⟨o, ho, h⟩, rfl, rfl⟩)
    · exact .inl ⟨rfl, h⟩
    · exact .inr (.inl ⟨rfl, h⟩)
    · exact .inr (.inr (.inl ⟨k, rfl, h, rfl⟩))
    · exact .inr (.inr (.inr (.inl ⟨i, o, ho, .inl ⟨f, h, hbytes⟩⟩)))
    · exact .inr (.inr (.inr (.inl ⟨i, o, ho, .inr (.inl ⟨rfl, h⟩)⟩)))
    · exact .inr (.inr (.inr (.inr ⟨j, hj, rfl, hgiven, rfl⟩)))
    · exact .inr (.inr (.inr (.inl ⟨i, o, ho, .inr (.inr (.inl ⟨rfl, h⟩))⟩)))
    · exact .inr (.inr (.inr (.inl ⟨i, o, ho, .inr (.inr (.inr (.inl ⟨rfl, h⟩)))⟩)))
    · exact .inr (.inr (.inr (.inl ⟨i, o, ho, .inr (.inr (.inr (.inr (.inl ⟨rfl, h⟩))))⟩)))
    · exact .inr (.inr (.inr (.inl ⟨i, o, ho, .inr (.inr (.inr (.inr (.inr ⟨rfl, h⟩))))⟩)))
  · rintro (⟨rfl, h⟩ | ⟨rfl, h⟩ | ⟨k, rfl, h, rfl⟩ | ⟨i, o, ho, ⟨f, h, hbytes⟩ | ⟨rfl, h⟩ | ⟨rfl, h⟩ | ⟨rfl, h⟩ |
      ⟨rfl, h⟩ | ⟨rfl, h⟩⟩ | ⟨j, hj, rfl, hgiven, rfl⟩)
    · exact .inl (.inl (.inl (.inl (.inl (.inl (.inl (.inl (.inl ⟨_, h, rfl, rfl⟩))))))))
    · exact .inl (.inl (.inl (.inl (.inl (.inl (.inl (.inl (.inr ⟨_, h, rfl, rfl⟩))))))))
    · exact .inl (.inl (.inl (.inl (.inl (.inl (.inl (.inr ⟨k, h, rfl, rfl⟩)))))))
    · exact .inl (.inl (.inl (.inl (.inl (.inl (.inr ⟨i, f, ⟨o, ho, h⟩, hbytes⟩))))))
    · exact .inl (.inl (.inl (.inl (.inl (.inr ⟨i, _, ⟨o, ho, h⟩, rfl, rfl⟩)))))
    · exact .inl (.inl (.inl (.inr ⟨i, _, ⟨o, ho, h⟩, rfl, rfl⟩)))
    · exact .inl (.inl (.inr ⟨i, _, ⟨o, ho, h⟩, rfl, rfl⟩))
    · exact .inl (.inr ⟨i, _, ⟨o, ho, h⟩, rfl, rfl⟩)
    · exact .inr ⟨i, _, ⟨o, ho, h⟩, rfl, rfl⟩
    · exact .inl (.inl (.inl (.inl (.inr ⟨j, ⟨hj, hgiven⟩, rfl, rfl⟩))))

/-! ## No address of an entry is given twice -/

/-- The segment of `PatchEntry.fields` that an address belongs to, numbered in its order (log 17). -/
def fieldSegment (ra : Nat) : Nat :=
  if ra = 0x1C then 0 else if ra = 0x1F then 1 else if ra = 0x40 then 2 else if ra < 0x10 then 3
  else if ra < 0x18 then 4 else if ra < 0x1C then 5 else 6 + ra % 4

/-- Different addresses, all of segments before `k`. -/
def DistinctBelow (k : Nat) (as : List Nat) : Prop := as.Nodup ∧ ∀ a ∈ as, fieldSegment a < k

/-- A next segment of different addresses keeps all of them different. -/
theorem DistinctBelow.append {k : Nat} {as bs : List Nat} (h : DistinctBelow k as) (hb : bs.Nodup)
    (hseg : ∀ b ∈ bs, fieldSegment b = k) : DistinctBelow (k + 1) (as ++ bs) := by
  obtain ⟨ha, hlt⟩ := h
  refine ⟨List.nodup_append.mpr ⟨ha, hb, fun a haa b hbb hab => ?_⟩, fun a haa => ?_⟩
  · have := hlt a haa
    rw [hab, hseg b hbb] at this
    exact lt_irrefl k this
  · rcases List.mem_append.mp haa with h | h
    · exact (hlt a h).trans (Nat.lt_succ_self k)
    · exact hseg a h ▸ Nat.lt_succ_self k

/-- An operator-wise segment has different addresses where the address tells the operator. -/
theorem givenOps_map_nodup {f : Nat → Nat} (hf : Function.Injective f) (get : OperatorEntry → Option Nat)
    (ops : List OperatorEntry) : ((givenOps get ops).map (fun x => f x.1)).Nodup := by
  have h := (givenOps_nodup get ops).map hf
  rwa [List.map_map] at h

/-- Every address of an operator-wise segment is in it, there being at most 8 operators. -/
theorem givenOps_map_segment {ops : List OperatorEntry} (hops : ops.length ≤ 8) {f : Nat → Nat} {k : Nat}
    (hseg : ∀ i < 8, fieldSegment (f i) = k) (get : OperatorEntry → Option Nat) :
    ∀ a ∈ (givenOps get ops).map (fun x => f x.1), fieldSegment a = k := by
  intro a ha
  obtain ⟨⟨i, v⟩, hx, rfl⟩ := List.mem_map.mp ha
  obtain ⟨o, ho, -⟩ := mem_givenOps.mp hx
  exact hseg i ((lt_of_getElem?_some ho).trans_le hops)

/-- An operator-wise segment of different addresses extends the ones before it. -/
theorem DistinctBelow.append_givenOps {k : Nat} {as : List Nat} {ops : List OperatorEntry} {f : Nat → Nat}
    (h : DistinctBelow k as) (hops : ops.length ≤ 8) (hf : Function.Injective f)
    (hseg : ∀ i < 8, fieldSegment (f i) = k) (get : OperatorEntry → Option Nat) :
    DistinctBelow (k + 1) (as ++ (givenOps get ops).map (fun x => f x.1)) :=
  h.append (givenOps_map_nodup hf get ops) (givenOps_map_segment hops hseg get)

/-- An envelope address tells its operator. -/
theorem envelopeAddress_injective (base : Nat) : Function.Injective (fun i => base + 4 * i) := by
  intro i j h
  have : base + 4 * i = base + 4 * j := h
  omega

/-- The four bytes of an envelope quad are of four segments. -/
theorem fieldSegment_envelope {q : Nat} (hq : q < 4) (i : Nat) (_ : i < 8) :
    fieldSegment (0x20 + q + 4 * i) = 6 + q := by
  unfold fieldSegment
  split_ifs <;> omega

/-- The two bytes of each given frequency have different addresses. -/
theorem frequency_addresses_nodup (get : OperatorEntry → Option Nat) (ops : List OperatorEntry) :
    ((givenOps get ops).flatMap (fun x => [2 * x.1, 2 * x.1 + 1])).Nodup := by
  refine List.nodup_flatMap.mpr ⟨fun x _ => by simp, (List.pairwise_map.mp (givenOps_nodup get ops)).imp ?_⟩
  intro x y hne a ha hb
  simp only [List.mem_cons, List.not_mem_nil, or_false] at ha hb
  omega

/-- The addresses of an entry's fields, segment by segment. -/
theorem fields_addresses_eq (e : PatchEntry) : (PatchEntry.fields e).map Prod.fst =
    e.modmode.toList.map (fun _ => 0x1C) ++ e.feedback.toList.map (fun _ => 0x1F) ++
    e.keyShift.toList.map (fun _ => 0x40) ++
    (givenOps (·.frequency) e.operators).flatMap (fun x => [2 * x.1, 2 * x.1 + 1]) ++
    (givenOps (·.volume) e.operators).map (fun x => 0x10 + x.1) ++
    ((List.range 4).filter (givesWave e.operators)).map (fun j => 0x18 + j) ++
    (givenOps (·.attack) e.operators).map (fun x => 0x20 + 4 * x.1) ++
    (givenOps (·.decay) e.operators).map (fun x => 0x21 + 4 * x.1) ++
    (givenOps (·.sustain) e.operators).map (fun x => 0x22 + 4 * x.1) ++
    (givenOps (·.release) e.operators).map (fun x => 0x23 + 4 * x.1) := by
  simp only [PatchEntry.fields, List.map_append, List.map_map, List.map_flatMap, Function.comp_def, List.map_cons,
    List.map_nil]

/-- A field given at most once. -/
theorem toList_const_nodup {α : Type} (o : Option α) (a : Nat) : (o.toList.map (fun _ => a)).Nodup := by
  cases o with
  | none => exact List.nodup_nil
  | some x => exact List.nodup_singleton a

/-- No address of an entry is given twice (R243). -/
theorem fields_addresses_nodup {e : PatchEntry} (h : e.wellFormed = true) :
    ((PatchEntry.fields e).map Prod.fst).Nodup := by
  have hops : e.operators.length ≤ 8 := by
    simp only [PatchEntry.wellFormed, Bool.and_eq_true, decide_eq_true_eq] at h
    obtain ⟨⟨-, hlen⟩, -⟩ := h
    exact hlen
  have hone : ∀ {α : Type} (o : Option α) (a : Nat), ∀ b ∈ o.toList.map (fun _ => a),
      fieldSegment b = fieldSegment a := by
    intro α o a b hb
    obtain ⟨_, -, rfl⟩ := List.mem_map.mp hb
    rfl
  have hempty : DistinctBelow 0 [] := ⟨List.nodup_nil, fun a ha => absurd ha List.not_mem_nil⟩
  have hhead := ((hempty.append (toList_const_nodup e.modmode 0x1C) (hone _ _)).append
    (toList_const_nodup e.feedback 0x1F) (hone _ _)).append (toList_const_nodup e.keyShift 0x40) (hone _ _)
  have hfreq := hhead.append (frequency_addresses_nodup (·.frequency) e.operators) (by
    intro a ha
    obtain ⟨⟨i, v⟩, hx, hai⟩ := List.mem_flatMap.mp ha
    obtain ⟨o, ho, -⟩ := mem_givenOps.mp hx
    have hi := (lt_of_getElem?_some ho).trans_le hops
    simp only [List.mem_cons, List.not_mem_nil, or_false] at hai
    unfold fieldSegment
    split_ifs <;> omega)
  have hvol := hfreq.append_givenOps hops (f := (0x10 + ·)) (add_right_injective _)
    (fun i hi => by unfold fieldSegment; split_ifs <;> omega) (·.volume)
  have hwave := hvol.append (bs := ((List.range 4).filter (givesWave e.operators)).map (0x18 + ·))
    ((List.nodup_range.filter _).map (add_right_injective _)) (by
      intro a ha
      obtain ⟨j, hj, rfl⟩ := List.mem_map.mp ha
      have hj4 := List.mem_range.mp (List.mem_filter.mp hj).1
      unfold fieldSegment
      split_ifs <;> omega)
  have hattack := hwave.append_givenOps hops (envelopeAddress_injective 0x20) (fieldSegment_envelope (q := 0) (by omega))
    (·.attack)
  have hdecay := hattack.append_givenOps hops (envelopeAddress_injective 0x21)
    (fieldSegment_envelope (q := 1) (by omega)) (·.decay)
  have hsustain := hdecay.append_givenOps hops (envelopeAddress_injective 0x22)
    (fieldSegment_envelope (q := 2) (by omega)) (·.sustain)
  have hrelease := hsustain.append_givenOps hops (envelopeAddress_injective 0x23)
    (fieldSegment_envelope (q := 3) (by omega)) (·.release)
  rw [fields_addresses_eq]
  exact hrelease.1

/-- Settles O60: the words of a script decode to its expansion, by the round trip of each command (O2); each line's
expansion is its own equation, and the pairs of a LOAD entry are the bytes it gives, each address once. -/
theorem scriptsAssembleToTheirExpansion : Obligations.ScriptsAssembleToTheirExpansion :=
  ⟨fun _ _ => decode_assemble,
    fun _ _ _ => ⟨rfl, rfl, rfl, rfl, fun _ => rfl, rfl, rfl, rfl, rfl, rfl, rfl, rfl, rfl, rfl⟩,
    fun _ _ => ⟨rfl, rfl, rfl, rfl, rfl, rfl, rfl, rfl, rfl, rfl, rfl, rfl⟩,
    fun _ _ => rfl,
    fun _ he => ⟨fields_addresses_nodup he, fun _ => mem_fields⟩⟩

end Sys2Proof.Machine
